-- ==== Sys2Proof/Word.lean ====
section
/-! DEFINITION. The words of the block: operand words, the command word, bytes, and the numeric type NUM. -/

namespace Sys2Proof

/-- One command operand, `W_ARG = 32` bits, and the signed result, `W = 32` bits (R7, R96). -/
abbrev Word := BitVec 32

/-- A pin identifier: opaque, carried in a 32-bit operand as it stands (R7, R98). -/
abbrev PinId := Word

/-- The command word, 68 bits (R96). -/
abbrev CommandWord := BitVec 68

/-- An 8-bit data register. -/
abbrev Byte := BitVec 8

/-- A value of the surrounding software's numeric type NUM (R205): a rational number, or one of the
host's values that is no rational number (an infinity, a not-a-number), told apart by a tag.
The spec leaves NUM a parameter; that it has one zero, `rat 0`, is the model's choice: log entry 11. -/
inductive Num where
  | rat (q : Rat)
  | nonFinite (tag : Nat)
  deriving DecidableEq, Repr, Inhabited

end Sys2Proof
end

