-- ==== Sys2Proof/Config.lean ====
section
/-! DEFINITION. The constants of the block (R7) and the free values: what the spec leaves to the host or to the converter, as constants without a body. -/

namespace Sys2Proof.Config

/-- `T_HI_MIN`, microseconds (R7). -/
def tHiMin : Nat := 1

/-- `T_LO_MIN`, microseconds (R7). -/
def tLoMin : Nat := 1

/-- `T_PD`: a longer clock-high interval certainly powers the converter down, microseconds (R7, R292). -/
def tPd : Nat := 60

/-- `T_PD_SAFE`: an interval up to this is certainly harmless, microseconds (R7, R292; log entry 10). -/
def tPdSafe : Nat := 50

/-- `READ_RAW_POLL_MS` (R7, R141). -/
def readRawPollMs : Nat := 0

/-- `N_AVG_DEFAULT`, the fixed count of TARE and SET_SCALE (R7). -/
def nAvgDefault : Nat := 10

/-- The brief yield after each frame of READ_AVERAGE, milliseconds (R198). -/
def yieldMs : Nat := 0

/-- Integers below this magnitude are values of every NUM and come out exact (R205; log entry 11). -/
def exactIntegerBound : Nat := 2 ^ 53

/-- FREE VALUE: the n-th answer of the data line, where no script gives it (R262; log entry 6). -/
opaque freeLevel : Nat → Bool

/-- FREE VALUE: by how many milliseconds the clock has advanced at its n-th answer (R257; log entry 7). -/
opaque freeAdvance : Nat → Nat

/-- FREE VALUE: the extra real time of the n-th collaborator call, microseconds (R233, R262; log entry 8). -/
opaque freeSlack : Nat → Nat

/-- FREE VALUE: whether the n-th clock-high interval between T_PD_SAFE and T_PD powers the converter
down (R292; log entry 10). -/
opaque freeBand : Nat → Bool

/-- FREE VALUE: the host's rounding of an exact result that is no exactly held integer (R205; log entry 11). -/
opaque hostRound : Rat → Num

/-- FREE VALUE: the host's difference, where an operand is no rational number (R205; log entry 11). -/
opaque hostSub : Num → Num → Num

/-- FREE VALUE: the host's quotient, where the divisor is 0 or an operand is no rational number
(R204, R205; log entry 11: of the one zero). -/
opaque hostDiv : Num → Num → Num

end Sys2Proof.Config
end

