-- ==== Sys2Proof/Syntax.lean ====
section
/-! DEFINITION. The operations of the block: one constructor per row of the opcode table (R97). -/

namespace Sys2Proof

/-- `bit_order` of SHIFT_BYTE (R54, R86). -/
inductive BitOrder where
  /-- Most significant bit first. -/
  | msb
  /-- Least significant bit first. -/
  | lsb
  deriving DecidableEq, Repr

/-- A decoded command: the operation and the operands it uses, each the 32-bit field as it stands
(R96, R98). Operand fields an operation does not use are ignored on decode. -/
inductive Instr where
  /-- 0x1 BEGIN, R180. -/
  | begin (clockPin dataPin : PinId)
  /-- 0x2 IS_READY, R110. -/
  | isReady
  /-- 0x3 SET_GAIN, R183. -/
  | setGain (gain : Word)
  /-- 0x4 READ_RAW, R140. -/
  | readRaw
  /-- 0x5 WAIT_READY, R160. -/
  | waitReady (pollMs : Word)
  /-- 0x6 WAIT_READY_RETRY, R163. -/
  | waitReadyRetry (attempts pollMs : Word)
  /-- 0x7 WAIT_READY_TIMEOUT, R167. -/
  | waitReadyTimeout (timeoutMs pollMs : Word)
  /-- 0x8 READ_AVERAGE, R196. -/
  | readAverage (n : Word)
  /-- 0x9 GET_UNITS, R203. -/
  | getUnits (n : Word)
  /-- 0xA TARE, R200. -/
  | tare
  /-- 0xB SET_SCALE, R201. -/
  | setScale (referenceWeight : Word)
  /-- 0xC SET_OFFSET, R199. -/
  | setOffset (offset : Word)
  /-- 0xD SHIFT_BYTE, R120. -/
  | shiftByte (order : BitOrder)
  /-- 0xE CLOCK_PULSE, R125. -/
  | clockPulse
  /-- 0x0, reserved (R100). -/
  | reserved0
  /-- 0xF, reserved (R100). -/
  | reservedF
  deriving DecidableEq, Repr

end Sys2Proof
end

