-- ==== Sys2Proof/WellFormed.lean ====
section
/-! DEFINITION. Which commands name an operation of the block. -/

namespace Sys2Proof

/-- A command is well-formed when its opcode names an operation: 0x0 and 0xF are reserved (R100).
No operand value is an encoding error (R101), so nothing else is checked. -/
def Instr.wellFormed : Instr → Bool
  | .begin _ _ => true
  | .isReady => true
  | .setGain _ => true
  | .readRaw => true
  | .waitReady _ => true
  | .waitReadyRetry _ _ => true
  | .waitReadyTimeout _ _ => true
  | .readAverage _ => true
  | .getUnits _ => true
  | .tare => true
  | .setScale _ => true
  | .setOffset _ => true
  | .shiftByte _ => true
  | .clockPulse => true
  | .reserved0 => false
  | .reservedF => false

end Sys2Proof
end

