-- ==== Sys2Proof/Decode.lean ====
section
/-! DEFINITION. The decoder of command words and, after it, the encoder (R96 to R100). -/

namespace Sys2Proof

/-- `bit_order` from `a[0]`: 0 = most significant first, 1 = least significant first (R99). -/
def BitOrder.ofBit (b : Bool) : BitOrder := if b then .lsb else .msb

/-- The bit that codes a `bit_order` (R86, R99). -/
def BitOrder.toBit : BitOrder → Bool
  | .msb => false
  | .lsb => true

/-- Operand A: `cmd[63:32]` (R96). -/
def operandA (w : CommandWord) : Word := w.extractLsb' 32 32

/-- Operand B: `cmd[31:0]` (R96). -/
def operandB (w : CommandWord) : Word := w.extractLsb' 0 32

/-- The command a 68-bit word stands for. The operation is told from `cmd[67:64]` alone, and unused
operand bits are ignored (R96); the rows are R97's. Every word decodes: the two reserved codes
decode to the reserved commands, which are refused by name when they are performed (R100). -/
def decode (w : CommandWord) : Instr :=
  match w.getLsbD 67, w.getLsbD 66, w.getLsbD 65, w.getLsbD 64 with
  | false, false, false, false => .reserved0
  | false, false, false, true => .begin (operandA w) (operandB w)
  | false, false, true, false => .isReady
  | false, false, true, true => .setGain (operandA w)
  | false, true, false, false => .readRaw
  | false, true, false, true => .waitReady (operandA w)
  | false, true, true, false => .waitReadyRetry (operandA w) (operandB w)
  | false, true, true, true => .waitReadyTimeout (operandA w) (operandB w)
  | true, false, false, false => .readAverage (operandA w)
  | true, false, false, true => .getUnits (operandA w)
  | true, false, true, false => .tare
  | true, false, true, true => .setScale (operandA w)
  | true, true, false, false => .setOffset (operandA w)
  | true, true, false, true => .shiftByte (BitOrder.ofBit ((operandA w).getLsbD 0))
  | true, true, true, false => .clockPulse
  | true, true, true, true => .reservedF

/-- Why a number is no command word. -/
inductive DecodeError where
  /-- It has a bit above bit 67: the one command length is 68 bits (R96, R102). -/
  | longerThanCommandWord
  deriving DecidableEq, Repr

/-- The command that a number stands for, its bits those of the command word; a number with a bit
above the word's 68 is refused by name (R96). -/
def decodeNumber (w : Nat) : Except DecodeError Instr :=
  if w < 2 ^ 68 then .ok (decode (BitVec.ofNat 68 w)) else .error .longerThanCommandWord

/-- The command decoded from a table row's bits. The table's 68 bits are one word, bit 0 its least
significant bit (R96); `nbits` is the row's length and decides nothing, since there is one length. -/
def decodeTableWord (_nbits w : Nat) : Option Instr :=
  match decodeNumber w with
  | .ok i => some i
  | .error _ => none

/-- A command word from its three fields (R96). -/
def pack (op : BitVec 4) (a b : Word) : CommandWord := op ++ a ++ b

/-- The command word of a command, its unused operand bits 0 (R96 to R99). -/
def encode : Instr → CommandWord
  | .reserved0 => pack 0x0 0 0
  | .begin c d => pack 0x1 c d
  | .isReady => pack 0x2 0 0
  | .setGain g => pack 0x3 g 0
  | .readRaw => pack 0x4 0 0
  | .waitReady p => pack 0x5 p 0
  | .waitReadyRetry n p => pack 0x6 n p
  | .waitReadyTimeout t p => pack 0x7 t p
  | .readAverage n => pack 0x8 n 0
  | .getUnits n => pack 0x9 n 0
  | .tare => pack 0xA 0 0
  | .setScale r => pack 0xB r 0
  | .setOffset v => pack 0xC v 0
  | .shiftByte o => pack 0xD (BitVec.ofNat 32 o.toBit.toNat) 0
  | .clockPulse => pack 0xE 0 0
  | .reservedF => pack 0xF 0 0

/-- The 4-bit opcode of a command (R97). -/
def Instr.opcode : Instr → BitVec 4
  | .reserved0 => 0x0
  | .begin _ _ => 0x1
  | .isReady => 0x2
  | .setGain _ => 0x3
  | .readRaw => 0x4
  | .waitReady _ => 0x5
  | .waitReadyRetry _ _ => 0x6
  | .waitReadyTimeout _ _ => 0x7
  | .readAverage _ => 0x8
  | .getUnits _ => 0x9
  | .tare => 0xA
  | .setScale _ => 0xB
  | .setOffset _ => 0xC
  | .shiftByte _ => 0xD
  | .clockPulse => 0xE
  | .reservedF => 0xF

/-- The bits of the command word that a command's format uses: `op`, and the operands of formats A and AB, of
SHIFT_BYTE's operand its lowest bit only (R96, R99). -/
def Instr.usedBits : Instr → CommandWord
  | .reserved0 => pack 0xF 0 0
  | .begin _ _ => pack 0xF 0xFFFFFFFF 0xFFFFFFFF
  | .isReady => pack 0xF 0 0
  | .setGain _ => pack 0xF 0xFFFFFFFF 0
  | .readRaw => pack 0xF 0 0
  | .waitReady _ => pack 0xF 0xFFFFFFFF 0
  | .waitReadyRetry _ _ => pack 0xF 0xFFFFFFFF 0xFFFFFFFF
  | .waitReadyTimeout _ _ => pack 0xF 0xFFFFFFFF 0xFFFFFFFF
  | .readAverage _ => pack 0xF 0xFFFFFFFF 0
  | .getUnits _ => pack 0xF 0xFFFFFFFF 0
  | .tare => pack 0xF 0 0
  | .setScale _ => pack 0xF 0xFFFFFFFF 0
  | .setOffset _ => pack 0xF 0xFFFFFFFF 0
  | .shiftByte _ => pack 0xF 1 0
  | .clockPulse => pack 0xF 0 0
  | .reservedF => pack 0xF 0 0

end Sys2Proof
end

