-- ==== Sys2Proof/Machine/State.lean ====
section
/-! DEFINITION. The state of the block, of its ports and of what its environment has still to answer, as plain data, and the state after reset. -/

namespace Sys2Proof.Machine

/-- LIFECYCLE (R21). -/
inductive Lifecycle where
  | uninitialized
  | configured
  deriving DecidableEq, Repr

/-- GAIN_CODE: the three legal codes, named by the gain and channel each selects (R23). -/
inductive GainCode where
  /-- Code 1: channel A, gain 128. -/
  | a128
  /-- Code 2: channel B, gain 32. -/
  | b32
  /-- Code 3: channel A, gain 64. -/
  | a64
  deriving DecidableEq, Repr

/-- SCK_LEVEL: the level last written to the clock pin, or `undriven` while the block has written none
(R26, R36; log entry 3, and log entry 22 for the first write). -/
inductive Line where
  | undriven
  | low
  | high
  deriving DecidableEq, Repr

/-- OP: the mnemonics an operation in progress can have (R28, R97). -/
inductive Op where
  | begin
  | isReady
  | setGain
  | readRaw
  | waitReady
  | waitReadyRetry
  | waitReadyTimeout
  | readAverage
  | getUnits
  | tare
  | setScale
  | setOffset
  | shiftByte
  | clockPulse
  deriving DecidableEq, Repr

/-- PHASE: the position inside an operation (R216). -/
inductive Phase where
  /-- IDLE: no call. -/
  | idle
  /-- SG_LOW: the clock-low write of SET_GAIN. -/
  | sgLow
  /-- CHK: a readiness check. -/
  | chk
  /-- PAU: the pause after a failed check. -/
  | pau
  /-- TQ0: the clock at entry of WAIT_READY_TIMEOUT. -/
  | tq0
  /-- TQ: the clock at the head of each round. -/
  | tq
  /-- D_HI_W: clock high, data pulse. -/
  | dHiW
  /-- D_HI_D: the high hold, data pulse. -/
  | dHiD
  /-- D_SMP: the data sample. -/
  | dSmp
  /-- D_LO_W: clock low, data pulse. -/
  | dLoW
  /-- D_LO_D: the low hold, data pulse. -/
  | dLoD
  /-- G_HI_W: clock high, gain pulse. -/
  | gHiW
  /-- G_HI_D: the high hold, gain pulse. -/
  | gHiD
  /-- G_LO_W: clock low, gain pulse. -/
  | gLoW
  /-- G_LO_D: the low hold, gain pulse. -/
  | gLoD
  /-- AVG_Y: the yield after a frame of READ_AVERAGE. -/
  | avgY
  deriving DecidableEq, Repr

/-- The named registers: configuration (R21 to R23), data (R24), wait and mean bookkeeping (R29), and the
surrounding software's (R32). -/
structure Regs where
  lifecycle : Lifecycle
  clockPin : PinId
  dataPin : PinId
  gainCode : GainCode
  sr : Byte
  byte2 : Byte
  byte1 : Byte
  byte0 : Byte
  fill : Byte
  result : Word
  attempt : Nat
  t0 : Nat
  argA : Word
  argB : Word
  /-- SUM, exact integer addition in NUM (R205; log entry 12). -/
  sum : Int
  count : Nat
  offset : Num
  scale : Num
  deriving DecidableEq, Repr

/-- The sequencer position (R28). -/
structure Position where
  /-- OP; `none` is the spec's own idle value. -/
  op : Option Op
  phase : Phase
  byteIx : Fin 3
  bitIx : Fin 8
  pulseIx : Nat
  order : BitOrder
  deriving DecidableEq, Repr

/-- Why an operation was refused (R245). -/
inductive RefuseReason where
  | reservedOpcode
  | notConfigured
  | invalidCount
  deriving DecidableEq, Repr

/-- What port `rsp` carries at the end of an operation (R20). -/
inductive Response where
  | none
  | bool (b : Bool)
  | int (v : Int)
  | num (x : Num)
  | refused (reason : RefuseReason)
  deriving DecidableEq, Repr

/-- One collaborator call, an event of the trace (R13, R15). -/
inductive Event where
  /-- `W(p,b)`. -/
  | write (pin : PinId) (level : Bool)
  /-- `R(p)=b`. -/
  | read (pin : PinId) (level : Bool)
  /-- `D(n)`. -/
  | delay (us : Nat)
  /-- `P(n)`. -/
  | pause (ms : Nat)
  /-- `T()=t`. -/
  | now (ms : Nat)
  deriving DecidableEq, Repr

/-- The pin space (R33): the level the block drives on each pin it has written, as a list of pin and
level with rising pins; a pin that is not listed is not driven by the block (log entry 13). -/
abbrev Memory := List (Nat × Bool)

/-- What one collaborator will answer: a script first, then the free values of `Config` from index
`drawn` on (R262; log entry 6). -/
structure Answers (α : Type) where
  script : List α
  /-- The model's own counter: how many answers have been given. -/
  drawn : Nat
  deriving DecidableEq, Repr

/-- A conversion the attached converter has still to finish (R263): the real time, in microseconds, until
its result is latched, and the result. -/
structure Conversion where
  us : Nat
  value : BitVec 24
  deriving DecidableEq, Repr

/-- Where the attached converter stands (R34 (a), (b), (d)). -/
inductive ConvPhase where
  /-- No result is latched. -/
  | converting
  /-- A result is latched and no pulse has come: the data line is low (R263). -/
  | latched (v : BitVec 24)
  /-- Inside a frame that started from a latched result, `k` of its pulses have come (R57, R264). -/
  | shifting (v : BitVec 24) (k : Nat)
  /-- Inside a frame that started from no latched result, `k` of its pulses have come: the answers are the oracle's
  until a power-down (R57, U12). -/
  | unready (k : Nat)
  /-- Powered down inside a frame, `k` of its pulses have come (R267, U5). -/
  | poweredDown (k : Nat)
  /-- The spec does not say where the converter stands: pulses outside a whole frame have come, or a frame has ended
  that started from no latched result or in which it was powered down (R57, U12, U17): every answer is the
  oracle's, but for the samples after a power-down in a later frame (R267). -/
  | unknown
  deriving DecidableEq, Repr

/-- The attached converter, as far as R263 to R267 describe it (R34; log entry 9). -/
structure Converter where
  phase : ConvPhase
  /-- R34 (c): the selection committed for the next conversion; `none`: the spec does not say which. -/
  selection : Option GainCode
  /-- The selection under which the result latched last was converted (R64). -/
  convertedUnder : Option GainCode
  upcoming : List Conversion
  deriving DecidableEq, Repr

/-- The environment: the oracle of R262 and what it keeps between two calls. -/
structure Env where
  levels : Answers Bool
  clock : Answers Nat
  lastMs : Nat
  slack : Answers Nat
  band : Answers Bool
  highUs : Nat
  highs : List Nat
  conv : Option Converter
  exactNum : Bool
  deriving DecidableEq, Repr

/-- The machine's state. -/
structure State where
  regs : Regs
  pos : Position
  busy : Bool
  sckLevel : Line
  pins : Memory
  cmds : List CommandWord
  responses : List Response
  trace : List Event
  env : Env
  deriving DecidableEq, Repr

/-- Why the machine stops. The spec gives the block no fault (R240). -/
inductive Fault where
  /-- Raised by the sequencer in a state whose OP and PHASE together have no transition in R217 to R230. No
  run from a state that keeps the machine's invariant reaches one. Safe: the machine stops. -/
  | noTransition
  deriving DecidableEq, Repr

/-- Why an instruction has no meaning. The refusals the spec names are responses (`RefuseReason`), not these. -/
inductive Refusal where
  /-- Raised by `exec` for an instruction not modelled yet; no arm raises it. Safe: the machine stops. -/
  | notModelled (mnemonic : String)
  deriving DecidableEq, Repr

/-- The registers after reset (R36; the values the spec does not give are log entry 2). -/
def Regs.reset : Regs where
  lifecycle := .uninitialized
  clockPin := 0
  dataPin := 0
  gainCode := .a128
  sr := 0
  byte2 := 0
  byte1 := 0
  byte0 := 0
  fill := 0
  result := 0
  attempt := 0
  t0 := 0
  argA := 0
  argB := 0
  sum := 0
  count := 0
  offset := .rat 0
  scale := .rat 1

/-- The sequencer position after reset: OP none, PHASE IDLE (R36). -/
def Position.reset : Position where
  op := none
  phase := .idle
  byteIx := 0
  bitIx := 0
  pulseIx := 0
  order := .msb

/-- The environment right after reset: nothing scripted, so that every answer is a free value, and no
converter that the model knows of (log entries 6 to 11). -/
def Env.reset : Env where
  levels := ⟨[], 0⟩
  clock := ⟨[], 0⟩
  lastMs := 0
  slack := ⟨[], 0⟩
  band := ⟨[], 0⟩
  highUs := 0
  highs := []
  conv := none
  exactNum := false

/-- The machine right after reset, the start of the process (R36, R280). -/
def State.reset : State where
  regs := Regs.reset
  pos := Position.reset
  busy := false
  sckLevel := .undriven
  pins := []
  cmds := []
  responses := []
  trace := []
  env := Env.reset

end Sys2Proof.Machine
end

