-- ==== Sys2Proof/Machine/Operands.lean ====
section
/-! DEFINITION. How operands, gain codes, bits and bytes are read (R10, R11, R23, R54, R98). -/

namespace Sys2Proof.Machine

/-- An unsigned operand: `zext_32` of its field (R98). -/
def zext (w : Word) : Nat := w.toNat

/-- A signed operand: `sext_32` of its field (R98). -/
def sext (w : Word) : Int := w.toInt

/-- A `NUM` operand, converted from the signed 32-bit integer (R98). -/
def numOperand (w : Word) : Num := .rat (sext w)

/-- The number of gain pulses a code stands for: 1, 2 or 3 (R23, R143). -/
def GainCode.pulses : GainCode → Nat
  | .a128 => 1
  | .b32 => 2
  | .a64 => 3

/-- The 2-bit register value of a gain code (R23). -/
def GainCode.code (g : GainCode) : BitVec 2 := BitVec.ofNat 2 g.pulses

/-- The code that a number of pulses after the 24th selects: 1, 2 or 3 (R265); no other number is stated. -/
def GainCode.ofPulses : Nat → Option GainCode
  | 1 => some .a128
  | 2 => some .b32
  | 3 => some .a64
  | _ => none

/-- SET_GAIN's map: 128 to 1, 64 to 3, 32 to 2; any other gain leaves the code as it is (R85, R183). -/
def gainSelect (gain : Word) (now : GainCode) : GainCode :=
  if gain = 128 then .a128
  else if gain = 64 then .a64
  else if gain = 32 then .b32
  else now

/-- The position in SR of the `i`-th sampled bit (R54). -/
def bitPosition : BitOrder → Fin 8 → Fin 8
  | .msb, i => 7 - i
  | .lsb, i => i

/-- A byte with one bit written (R10, R12). -/
def setBit (v : Byte) (i : Fin 8) (b : Bool) : Byte :=
  (v &&& ~~~(1#8 <<< i.val)) ||| (if b then 1#8 <<< i.val else 0#8)

/-- The fill byte: all ones when the sign bit of the high byte is set, else all zeros (R144). -/
def fillOf (byte2 : Byte) : Byte := if byte2.getLsbD 7 then 0xFF else 0x00

/-- The 32-bit pattern of step 5, `(FILL << 24) | (BYTE2 << 16) | (BYTE1 << 8) | BYTE0` (R145). -/
def assemble (fill byte2 byte1 byte0 : Byte) : Word :=
  (fill.setWidth 32 <<< 24) ||| (byte2.setWidth 32 <<< 16) ||| (byte1.setWidth 32 <<< 8) ||| byte0.setWidth 32

/-- The count `n` of an operation that takes a mean: its operand for READ_AVERAGE and GET_UNITS, 10 for
TARE and SET_SCALE (R230). -/
def meanCount (op : Option Op) (argA : Word) : Int :=
  match op with
  | some .tare => Config.nAvgDefault
  | some .setScale => Config.nAvgDefault
  | _ => sext argA

end Sys2Proof.Machine
end

