-- ==== Sys2Proof/Machine/Converter.lean ====
section
/-! DEFINITION. The environment: the oracle's answers, real time, and the attached converter as R263 to R267 describe it. -/

namespace Sys2Proof.Machine

/-- The next answer: the script's, else the free value of this index (R262). -/
def Answers.next {α : Type} (free : Nat → α) (q : Answers α) : α :=
  match q.script with
  | x :: _ => x
  | [] => free q.drawn

/-- The answers after one was drawn. -/
def Answers.rest {α : Type} (q : Answers α) : Answers α := ⟨q.script.tail, q.drawn + 1⟩

/-! ## The converter

A read of the data pin changes none of it (R50): what does is the clock line, the time, and where a whole frame
starts and ends. -/

/-- The converter is where the oracle has it: bit pointer, selection and readiness are not known (R57, U12, U17). -/
def Converter.lost (c : Converter) : Converter :=
  { c with phase := .unknown, selection := none, convertedUnder := none }

/-- Real time passes. A conversion that has had its time is latched, converted under the selection committed
last (R64, R263, R266). -/
def Converter.wait (us : Nat) (c : Converter) : Converter :=
  match c.phase, c.upcoming with
  | .converting, ⟨left, v⟩ :: more =>
    if left ≤ us then { c with phase := .latched v, convertedUnder := c.selection, upcoming := more }
    else { c with upcoming := ⟨left - us, v⟩ :: more }
  | .converting, [] => c
  | .latched _, _ => c
  | .shifting _ _, _ => c
  | .unready _, _ => c
  | .poweredDown _, _ => c
  | .unknown, _ => c

/-- A frame starts that finds no result latched: what the converter shows and selects is not stated (U12), but that a
power-down in the frame shows in its later samples is (R267, U5). -/
def Converter.openUnready (c : Converter) : Converter := { c.lost with phase := .unready 0 }

/-- The block starts a frame (R57): the converter counts its pulses from here. -/
def Converter.openFrame (c : Converter) : Converter :=
  match c.phase with
  | .latched v => { c with phase := .shifting v 0 }
  | .converting => c.openUnready
  | .shifting _ _ => c.openUnready
  | .unready _ => c.openUnready
  | .poweredDown _ => c.openUnready
  | .unknown => c.openUnready

/-- A rising edge of the clock line advances the bit presented (R51, R264). A pulse outside a whole frame leaves the
converter where the oracle has it (R57, D24, U12). -/
def Converter.rise (c : Converter) : Converter :=
  match c.phase with
  | .shifting v k => { c with phase := .shifting v (k + 1) }
  | .unready k => { c with phase := .unready (k + 1) }
  | .poweredDown k => { c with phase := .poweredDown (k + 1) }
  | .converting => c.lost
  | .latched _ => c.lost
  | .unknown => c

/-- A high interval taken as power-down has ended: in any frame, whatever it started from, the conversion state is reset
mid-sequence (R267, R291), and what the converter selects afterwards is not stated (R150 (b), U7). -/
def Converter.powerDown (c : Converter) : Converter :=
  match c.phase with
  | .shifting _ k => { c with phase := .poweredDown k, selection := none }
  | .unready k => { c with phase := .poweredDown k }
  | .poweredDown k => { c with phase := .poweredDown k, selection := none }
  | .converting => c.lost
  | .latched _ => c.lost
  | .unknown => c

/-- The block ends a frame: the number of its pulses after the 24th commits the next conversion's selection, and that
conversion begins (R265, R266). After a power-down, or a frame that found no result latched, the converter's state is
not stated (U12, U17). -/
def Converter.closeFrame (c : Converter) : Converter :=
  match c.phase with
  | .shifting _ k => { c with phase := .converting, selection := GainCode.ofPulses (k - 24) }
  | .unready _ => c.lost
  | .poweredDown _ => c.lost
  | .converting => c.lost
  | .latched _ => c.lost
  | .unknown => c

/-- The level of the data line. Low while a result is latched (R263). While the clock is high in pulse `k` of
the 24 of a frame, bit `24 - k` of the result, once the clock has been high for T_HI_MIN and unless the interval is by
now one that is taken as power-down (R264, R292). After a power-down, 1 in the pulses left of the 24 (R267, U5).
Everywhere else the spec does not say: the oracle's answer `free` (R262, U16). -/
def Converter.level (high : Bool) (highUs : Nat) (tooLong free : Bool) (c : Converter) : Bool :=
  match c.phase with
  | .converting => free
  | .latched _ => if high then free else false
  | .shifting v k =>
    if high && decide (k ≤ 24) && decide (Config.tHiMin ≤ highUs) && !tooLong then v.getLsbD (24 - k) else free
  | .unready _ => free
  | .poweredDown k => if high && decide (k ≤ 24) then true else free
  | .unknown => free

/-! ## The environment -/

/-- The real time one call takes: what was asked for at least, and what the host adds (R233, R250, R257). -/
def Env.duration (atLeast : Nat) (e : Env) : Nat := atLeast + e.slack.next Config.freeSlack

/-- Time passes until one call has completed; while the clock line is high its high interval grows (R233), and the
converter gets on with its conversion (R263). -/
def Env.pass (high : Bool) (atLeast : Nat) (e : Env) : Env :=
  { e with
    slack := e.slack.rest
    highUs := if high then e.highUs + e.duration atLeast else e.highUs
    conv := e.conv.map (Converter.wait (e.duration atLeast)) }

/-- A rising edge starts a high interval (R233). -/
def Env.rise (e : Env) : Env := { e with highUs := 0, conv := e.conv.map Converter.rise }

/-- Whether the high interval, as long as it is now, is taken as power-down: certainly above T_PD, certainly not up to
T_PD_SAFE, and as the oracle chooses for this interval in between (R292). -/
def Env.tooLong (e : Env) : Bool :=
  decide (Config.tPd < e.highUs) || (decide (Config.tPdSafe < e.highUs) && e.band.next Config.freeBand)

/-- A falling edge ends a high interval (R233, R267). -/
def Env.fall (e : Env) : Env :=
  { e with
    highs := e.highs ++ [e.highUs]
    band := e.band.rest
    conv := e.conv.map fun c => if e.tooLong then c.powerDown else c }

/-- The clock line goes from one level to another (R51). The first write, from a line the block has not driven: DESIGN
CHOICE (log entry 22; R184, N7), written low it ends no high interval and the converter takes nothing from it, written
high it is a rising edge. -/
def Env.clockLine (was : Line) (level : Bool) (e : Env) : Env :=
  match was, level with
  | .high, false => e.fall
  | .low, true => e.rise
  | .undriven, true => e.rise
  | .high, true => e
  | .low, false => e
  | .undriven, false => e

/-- What a read of the data line answers: the oracle's answer, where no constraint of an attached converter
fixes the level (R50, R262 to R267). DESIGN CHOICE (log entry 9; R22, R182 (d), U11): the pins are not looked at, so an
attached converter answers as it does elsewhere where CLOCK_PIN and DATA_PIN are the same pin too. -/
def Env.level (high : Bool) (e : Env) : Bool :=
  match e.conv with
  | none => e.levels.next Config.freeLevel
  | some c => c.level high e.highUs e.tooLong (e.levels.next Config.freeLevel)

/-- The environment after a read of the data line: one answer of the oracle is used up, and no state of the
converter has changed (R50). -/
def Env.afterRead (e : Env) : Env := { e with levels := e.levels.rest }

/-- The block starts a frame. -/
def Env.openFrame (e : Env) : Env := { e with conv := e.conv.map Converter.openFrame }

/-- The block ends a frame. -/
def Env.closeFrame (e : Env) : Env := { e with conv := e.conv.map Converter.closeFrame }

/-- The next answer of the millisecond clock: not below the last one (R257). -/
def Env.nowMs (e : Env) : Nat := e.lastMs + e.clock.next Config.freeAdvance

/-- The environment after a reading of the millisecond clock. -/
def Env.afterNow (e : Env) : Env := { e with clock := e.clock.rest, lastMs := e.nowMs }

end Sys2Proof.Machine
end

