-- ==== Sys2Proof/Machine/Flags.lean ====
section
/-! DEFINITION. The block keeps no flag and no condition code; two Boolean values exist and neither is stored (R31). -/

namespace Sys2Proof.Machine

/-- *ready*: true iff the data line reads logic-low at the instant of the check (R31, R110). -/
def ready (level : Bool) : Bool := !level

/-- The Boolean response of a readiness operation (R31). -/
def boolResponse (b : Bool) : Response := .bool b

end Sys2Proof.Machine
end

