-- ==== Sys2Proof/Machine/Numeric.lean ====
section
/-! DEFINITION. Arithmetic in NUM, the surrounding software's numeric type (R205; log entry 11). -/

namespace Sys2Proof.Machine

/-- Whether an exact result is an integer that every NUM holds (R205). -/
def isHeldInteger (q : Rat) : Bool := q.den = 1 && q.num.natAbs < Config.exactIntegerBound

/-- A result of exact value `q`, in NUM, which has one zero and no signed ones (DESIGN CHOICE, log entry 11): exact where the host's NUM is exact rational arithmetic or `q` is an
integer every NUM holds, else the host's rounding, a free value (R205). -/
def numRound (exact : Bool) (q : Rat) : Num :=
  if exact || isHeldInteger q then .rat q else Config.hostRound q

/-- The exact embedding of an integer sum (R205). -/
def numOfInt (z : Int) : Num := .rat z

/-- Subtraction in NUM (R205). What 0 is taken from stays as it is: GET_UNITS with the reset OFFSET returns the plain
mean over SCALE (R203). -/
def numSub (exact : Bool) (x y : Num) : Num :=
  if y = .rat 0 then x
  else
    match x, y with
    | .rat p, .rat q => numRound exact (p - q)
    | .rat _, .nonFinite _ => Config.hostSub x y
    | .nonFinite _, _ => Config.hostSub x y

/-- Division in NUM, total: nothing is assumed where the divisor is 0 (R204, R205). What is divided by 1 stays as it is:
GET_UNITS with the reset values returns the plain mean (R203). DESIGN CHOICE (log entry 11): NUM has one zero, so
quotients of equal dividends by a divisor 0 are equal, whatever the signs of what made it 0. -/
def numDiv (exact : Bool) (x y : Num) : Num :=
  if y = .rat 1 then x
  else
    match x, y with
    | .rat p, .rat q => if q = 0 then Config.hostDiv x y else numRound exact (p / q)
    | .rat _, .nonFinite _ => Config.hostDiv x y
    | .nonFinite _, _ => Config.hostDiv x y

end Sys2Proof.Machine
end

