-- ==== Sys2Proof/Machine/Ops.lean ====
section
/-! DEFINITION. The pin space, the five collaborator calls (R13), and how an operation is accepted, refused and ended (R14, R217). -/

namespace Sys2Proof.Machine

/-! ## The pin space (R33) -/

/-- The level the block drives on a pin; `none` where it drives none (R58). -/
def Memory.read (m : Memory) (pin : Nat) : Option Bool :=
  match m with
  | [] => none
  | (p, b) :: rest => if p = pin then some b else Memory.read rest pin

/-- The pin space with the level of one pin set (R51). -/
def Memory.write (m : Memory) (pin : Nat) (level : Bool) : Memory :=
  match m with
  | [] => [(pin, level)]
  | (p, b) :: rest =>
    if pin < p then (pin, level) :: (p, b) :: rest
    else if pin = p then (pin, level) :: rest
    else (p, b) :: Memory.write rest pin level

/-- Every pin listed is above a bound, and the list's pins rise strictly. -/
def Memory.above (bound : Nat) : Memory → Bool
  | [] => true
  | (p, _) :: rest => decide (bound < p) && Memory.above p rest

/-- The canonical form of the pin space: strictly rising pins (log entry 13). -/
def Memory.wf : Memory → Bool
  | [] => true
  | (p, _) :: rest => Memory.above p rest

/-! ## The collaborator calls (R13): each makes one event -/

/-- Whether the clock line is high. -/
def State.high (s : State) : Bool := decide (s.sckLevel = .high)

/-- A written level, as SCK_LEVEL holds it (R26). -/
def Line.ofBool (b : Bool) : Line := if b then .high else .low

/-- `PinWrite(CLOCK_PIN, b)` (R51): the call is made whatever level the pin has (D25). -/
def State.pinWrite (b : Bool) (s : State) : State :=
  { s with
    sckLevel := Line.ofBool b
    pins := s.pins.write s.regs.clockPin.toNat b
    trace := s.trace ++ [.write s.regs.clockPin b]
    env := (s.env.pass s.high 0).clockLine s.sckLevel b }

/-- The level that a `PinRead(DATA_PIN)` answers now (R50). -/
def State.level (s : State) : Bool := (s.env.pass s.high 0).level s.high

/-- The state after a `PinRead(DATA_PIN)`: no register, no pin and, the time that has passed apart, no converter state
changes (R50). -/
def State.pinRead (s : State) : State :=
  { s with
    trace := s.trace ++ [.read s.regs.dataPin s.level]
    env := (s.env.pass s.high 0).afterRead }

/-- `DelayUs(n)`: at least `n` microseconds pass (R13, R257). -/
def State.delayUs (n : Nat) (s : State) : State :=
  { s with trace := s.trace ++ [.delay n], env := s.env.pass s.high n }

/-- `PauseMs(n)`: some time passes, of a length the spec does not bound (R13, R162, R257). -/
def State.pauseMs (n : Nat) (s : State) : State :=
  { s with trace := s.trace ++ [.pause n], env := s.env.pass s.high 0 }

/-- The answer of a `NowMs()` made now (R13, R257). -/
def State.clockMs (s : State) : Nat := s.env.nowMs

/-- The state after a `NowMs()`. -/
def State.nowMs (s : State) : State :=
  { s with trace := s.trace ++ [.now s.clockMs], env := (s.env.pass s.high 0).afterNow }

/-- A frame starts: from here to `closeFrame` the pulses are those of one whole frame (R57, R80). No call, no event. -/
def State.openFrame (s : State) : State := { s with env := s.env.openFrame }

/-- A frame ends, its gain pulses issued (R57, R80). No call, no event. -/
def State.closeFrame (s : State) : State := { s with env := s.env.closeFrame }

/-! ## Registers and the sequencer position -/

/-- The registers changed, nothing else. -/
def State.setRegs (f : Regs → Regs) (s : State) : State := { s with regs := f s.regs }

/-- The sequencer position changed, nothing else. -/
def State.setPos (f : Position → Position) (s : State) : State := { s with pos := f s.pos }

/-- `PHASE <- ph` (R12). -/
def State.goto (ph : Phase) (s : State) : State := s.setPos ({ · with phase := ph })

/-- Respond (R217): give the response, `BUSY <- 0`, `OP <- none`, `PHASE <- IDLE`. -/
def State.respond (r : Response) (s : State) : State :=
  { s with
    responses := s.responses ++ [r]
    busy := false
    pos := { s.pos with op := none, phase := .idle } }

/-- `refuse(reason)` (R14, R245): the response `refused`, no state change, no event. -/
def State.refuse (reason : RefuseReason) (s : State) : State :=
  { s with responses := s.responses ++ [.refused reason] }

/-- Field `a` of the word at the command port (R20, R96): what an operation that does not use it latches all the
same (R217); with no word at the port, 0 (log entry 4). -/
def State.portA (s : State) : Word := operandA (s.cmds.headD 0)

/-- Field `b` of the word at the command port, as `portA`. -/
def State.portB (s : State) : Word := operandB (s.cmds.headD 0)

/-- The operands of the command in progress are latched (R29). -/
@[simps] def Regs.latch (a b : Word) (r : Regs) : Regs := { r with argA := a, argB := b }

/-- Acceptance, step (4) of R217: `BUSY <- 1`, `OP`, `ARG_A`, `ARG_B`, and the first `PHASE`. -/
def State.accept (op : Op) (a b : Word) (ph : Phase) (s : State) : State :=
  { s with
    busy := true
    regs := s.regs.latch a b
    pos := { s.pos with op := some op, phase := ph } }

/-- A command offered while `BUSY = 1` is not taken: nothing changes (R30, R245). -/
def State.offered (s : State) (take : State → State) : Host.Outcome State Fault Refusal :=
  if s.busy then .next s else .next (take s)

/-- Steps (2) and (4) of acceptance (R217): refused while Uninitialized, else taken (R254). -/
def State.whenConfigured (take : State → State) (s : State) : State :=
  match s.regs.lifecycle with
  | .uninitialized => s.refuse .notConfigured
  | .configured => take s

/-! ## Register updates shared by the sequencer and the big-step rules -/

/-- `SR[position] <- bit` (R54, R224). -/
@[simps] def Regs.storeBit (order : BitOrder) (i : Fin 8) (b : Bool) (r : Regs) : Regs :=
  { r with sr := setBit r.sr (bitPosition order i) b }

/-- `SR <- 0` (R121). -/
@[simps] def Regs.clearSr (r : Regs) : Regs := { r with sr := 0 }

/-- `SR` written to `BYTE2`, `BYTE1` or `BYTE0` as `BYTE_IX` is 2, 1 or 0 (R226 (c)). -/
def Regs.storeByte (ix : Fin 3) (r : Regs) : Regs :=
  match ix with
  | 2 => { r with byte2 := r.sr }
  | 1 => { r with byte1 := r.sr }
  | 0 => { r with byte0 := r.sr }

/-- Steps 4 and 5 of READ_RAW: FILL, then RESULT (R144, R145, R228 (c)). -/
@[simps] def Regs.assembleFrame (r : Regs) : Regs :=
  { r with fill := fillOf r.byte2, result := assemble (fillOf r.byte2) r.byte2 r.byte1 r.byte0 }

/-- The gain written by SET_GAIN (R183). -/
@[simps] def Regs.selectGain (gain : Word) (r : Regs) : Regs := { r with gainCode := gainSelect gain r.gainCode }

/-- The pins bound and the block configured, by BEGIN (R180). -/
@[simps] def Regs.bind (c d : PinId) (r : Regs) : Regs :=
  { r with clockPin := c, dataPin := d, lifecycle := .configured }

/-- `SUM <- 0`, `COUNT <- 0` (R196, R217). -/
@[simps] def Regs.startMean (r : Regs) : Regs := { r with sum := 0, count := 0 }

/-- `SUM <- SUM + RESULT` (R196, R229). -/
@[simps] def Regs.addSample (r : Regs) : Regs := { r with sum := r.sum + r.result.toInt }

/-- `COUNT <- COUNT + 1` (R230). -/
@[simps] def Regs.countSample (r : Regs) : Regs := { r with count := r.count + 1 }

/-- `ATTEMPT <- ATTEMPT + 1` (R220). -/
@[simps] def Regs.countAttempt (r : Regs) : Regs := { r with attempt := r.attempt + 1 }

/-- `m = SUM / n` in NUM (R230). -/
def State.mean (n : Int) (s : State) : Num := numDiv s.env.exactNum (numOfInt s.regs.sum) (numOfInt n)

/-- `m - OFFSET` in NUM (R201, R203). -/
def State.aboveOffset (m : Num) (s : State) : Num := numSub s.env.exactNum m s.regs.offset

/-- `(m - OFFSET) / SCALE` in NUM (R203). -/
def State.units (m : Num) (s : State) : Num := numDiv s.env.exactNum (s.aboveOffset m) s.regs.scale

/-- `(m - OFFSET) / w` in NUM (R201). -/
def State.scaleFor (m : Num) (w : Word) (s : State) : Num :=
  numDiv s.env.exactNum (s.aboveOffset m) (numOperand w)

/-- The response `int RESULT` (R146). -/
def resultResponse (r : Regs) : Response := .int r.result.toInt

/-- The response `int zext_8(SR)` (R120). -/
def srResponse (r : Regs) : Response := .int r.sr.toNat

end Sys2Proof.Machine
end

