-- ==== Sys2Proof/Machine/Configure.lean ====
section
/-! DEFINITION. Acceptance of the configuration operations BEGIN and SET_GAIN (R180, R183, R217). -/

namespace Sys2Proof.Machine

/-- BEGIN (R180, R217): binds the pins, configures the block, selects the default gain 128; then the clock-low write
and one frame. The only operation performed while Uninitialized (R254). -/
def execBegin (clockPin dataPin : PinId) (s : State) : Host.Outcome State Fault Refusal :=
  s.offered fun s =>
    (s.accept .begin clockPin dataPin .sgLow).setRegs fun r => (r.bind clockPin dataPin).selectGain 128

/-- SET_GAIN (R183, R217): GAIN_CODE for a recognised gain; the clock-low write and the frame come in every case (R186). -/
def execSetGain (gain : Word) (s : State) : Host.Outcome State Fault Refusal :=
  s.offered (State.whenConfigured fun s => (s.accept .setGain gain s.portB .sgLow).setRegs (Regs.selectGain gain))

end Sys2Proof.Machine
end

