-- ==== Sys2Proof/Machine/Probe.lean ====
section
/-! DEFINITION. Acceptance of the readiness operations: IS_READY and the three waits (R110, R160, R163, R167, R217). -/

namespace Sys2Proof.Machine

/-- IS_READY (R110, R217): the sequencer goes to its one check. -/
def execIsReady (s : State) : Host.Outcome State Fault Refusal :=
  s.offered (State.whenConfigured fun s => s.accept .isReady s.portA s.portB .chk)

/-- WAIT_READY (R160, R217): the first check comes before any pause. -/
def execWaitReady (pollMs : Word) (s : State) : Host.Outcome State Fault Refusal :=
  s.offered (State.whenConfigured fun s => s.accept .waitReady pollMs s.portB .chk)

/-- WAIT_READY_RETRY (R163, R217): `ATTEMPT <- 0`; no check at all when `attempts <= 0` (R164). -/
def execWaitReadyRetry (attempts pollMs : Word) (s : State) : Host.Outcome State Fault Refusal :=
  s.offered (State.whenConfigured fun s =>
    let t := (s.accept .waitReadyRetry attempts pollMs .chk).setRegs ({ · with attempt := 0 })
    if 0 < sext attempts then t else t.respond (boolResponse false))

/-- WAIT_READY_TIMEOUT (R167, R217): the clock is read at entry. -/
def execWaitReadyTimeout (timeoutMs pollMs : Word) (s : State) : Host.Outcome State Fault Refusal :=
  s.offered (State.whenConfigured (State.accept .waitReadyTimeout timeoutMs pollMs .tq0))

end Sys2Proof.Machine
end

