-- ==== Sys2Proof/Machine/Software.lean ====
section
/-! DEFINITION. Acceptance of the surrounding software's operations and of the reserved codes (R100, R195 to R203, R217). -/

namespace Sys2Proof.Machine

/-- Step (3) of acceptance: a count `n < 1` is refused (R197, R217). -/
def State.whenCounted (n : Word) (take : State → State) (s : State) : State :=
  if sext n < 1 then s.refuse .invalidCount else take s

/-- Acceptance of an operation that takes a mean: `SUM <- 0`, `COUNT <- 0` (R217). -/
def State.acceptMean (op : Op) (a : Word) (s : State) : State := (s.accept op a s.portB .chk).setRegs Regs.startMean

/-- READ_AVERAGE (R196, R217). -/
def execReadAverage (n : Word) (s : State) : Host.Outcome State Fault Refusal :=
  s.offered (State.whenConfigured (State.whenCounted n (State.acceptMean .readAverage n)))

/-- GET_UNITS (R203, R217). -/
def execGetUnits (n : Word) (s : State) : Host.Outcome State Fault Refusal :=
  s.offered (State.whenConfigured (State.whenCounted n (State.acceptMean .getUnits n)))

/-- TARE (R200, R217). -/
def execTare (s : State) : Host.Outcome State Fault Refusal :=
  s.offered (State.whenConfigured fun s => s.acceptMean .tare s.portA)

/-- SET_SCALE (R201, R217). -/
def execSetScale (referenceWeight : Word) (s : State) : Host.Outcome State Fault Refusal :=
  s.offered (State.whenConfigured (State.acceptMean .setScale referenceWeight))

/-- SET_OFFSET (R199, R217): OFFSET is overwritten and the response given at once, with no event. -/
def execSetOffset (offset : Word) (s : State) : Host.Outcome State Fault Refusal :=
  s.offered (State.whenConfigured fun s =>
    ((s.accept .setOffset offset s.portB .idle).setRegs ({ · with offset := numOperand offset })).respond .none)

/-- Reserved code 0x0 (R100): the response `refused`, before any other test (R217). -/
def execReserved0 (s : State) : Host.Outcome State Fault Refusal :=
  s.offered (State.refuse .reservedOpcode)

/-- Reserved code 0xF (R100): the response `refused`, before any other test (R217). -/
def execReservedF (s : State) : Host.Outcome State Fault Refusal :=
  s.offered (State.refuse .reservedOpcode)

end Sys2Proof.Machine
end

