-- ==== Sys2Proof/Machine/Transport.lean ====
section
/-! DEFINITION. Acceptance of the transport operations and of a frame: SHIFT_BYTE, CLOCK_PULSE, READ_RAW (R120, R125, R140, R217). -/

namespace Sys2Proof.Machine

/-- Operand A of a SHIFT_BYTE: `a[0]` is its `bit_order`, and the ignored bits are those of the field (R99, R217). -/
def orderOperand (order : BitOrder) (a : Word) : Word := a.extractLsb' 1 31 ++ BitVec.ofBool order.toBit

/-- `BIT_IX <- 0` and `ORDER`, for the first pulse of a group (R217). -/
def Position.startGroup (order : BitOrder) (p : Position) : Position := { p with bitIx := 0, order := order }

/-- SHIFT_BYTE (R120, R217): `SR <- 0`, `BIT_IX <- 0`, `ORDER`. -/
def execShiftByte (order : BitOrder) (s : State) : Host.Outcome State Fault Refusal :=
  s.offered (State.whenConfigured fun s =>
    ((s.accept .shiftByte (orderOperand order s.portA) s.portB .dHiW).setRegs Regs.clearSr).setPos (Position.startGroup order))

/-- CLOCK_PULSE (R125, R217): `PULSE_IX <- 0`. -/
def execClockPulse (s : State) : Host.Outcome State Fault Refusal :=
  s.offered (State.whenConfigured fun s =>
    (s.accept .clockPulse s.portA s.portB .gHiW).setPos ({ · with pulseIx := 0 }))

/-- READ_RAW (R140, R217): the readiness wait of step 1 comes first. -/
def execReadRaw (s : State) : Host.Outcome State Fault Refusal :=
  s.offered (State.whenConfigured fun s => s.accept .readRaw s.portA s.portB .chk)

end Sys2Proof.Machine
end

