-- ==== Sys2Proof/Machine/Dispatch.lean ====
section
/-! DEFINITION. exec: one arm per command. The meaning of a command is its acceptance (R217); what it then does is the sequencer's (Machine/Sequencer.lean). -/

namespace Sys2Proof.Machine

def exec (i : Instr) (s : State) : Host.Outcome State Fault Refusal :=
  match i with
  | .begin clockPin dataPin => Sys2Proof.Machine.execBegin clockPin dataPin s
  | .isReady => Sys2Proof.Machine.execIsReady s
  | .setGain gain => Sys2Proof.Machine.execSetGain gain s
  | .readRaw => Sys2Proof.Machine.execReadRaw s
  | .waitReady pollMs => Sys2Proof.Machine.execWaitReady pollMs s
  | .waitReadyRetry attempts pollMs => Sys2Proof.Machine.execWaitReadyRetry attempts pollMs s
  | .waitReadyTimeout timeoutMs pollMs => Sys2Proof.Machine.execWaitReadyTimeout timeoutMs pollMs s
  | .readAverage n => Sys2Proof.Machine.execReadAverage n s
  | .getUnits n => Sys2Proof.Machine.execGetUnits n s
  | .tare => Sys2Proof.Machine.execTare s
  | .setScale referenceWeight => Sys2Proof.Machine.execSetScale referenceWeight s
  | .setOffset offset => Sys2Proof.Machine.execSetOffset offset s
  | .shiftByte order => Sys2Proof.Machine.execShiftByte order s
  | .clockPulse => Sys2Proof.Machine.execClockPulse s
  | .reserved0 => Sys2Proof.Machine.execReserved0 s
  | .reservedF => Sys2Proof.Machine.execReservedF s

end Sys2Proof.Machine
end

