-- ==== Sys2Proof/Machine/Fetch.lean ====
section
/-! DEFINITION. The command port (R20): what the caller offers and what the block takes. -/

namespace Sys2Proof.Machine

/-- The command word at the port, where the block is ready to take one: in IDLE with BUSY = 0 (R20, R217). -/
def State.offeredWord (s : State) : Option CommandWord :=
  match s.pos.phase, s.busy with
  | .idle, false => s.cmds.head?
  | _, _ => none

/-- The word taken off the port. -/
def State.taken (s : State) : State := { s with cmds := s.cmds.tail }

/-- What a command's performance answers, its word taken off the port. -/
def takingWord : Host.Outcome State Fault Refusal → Host.Outcome State Fault Refusal
  | .next t => .next t.taken
  | .fault r => .fault r
  | .refused r => .refused r

/-- A word put at the head of the command port of an idle block, the port's other words behind it. -/
def State.offerWord (w : CommandWord) (s : State) : State :=
  { s with
    cmds := w :: s.cmds
    busy := false
    pos := { s.pos with op := none, phase := .idle } }

end Sys2Proof.Machine
end

