-- ==== Sys2Proof/Machine/Sequencer.lean ====
section
/-! DEFINITION. The sequencer: one transition for every PHASE (R215 to R230), each making exactly one collaborator call. -/

namespace Sys2Proof.Machine

/-- What OP an operation in progress has, as the transitions tell them apart (R216, R219). -/
inductive OpClass where
  /-- The operation contains a frame (R216). -/
  | frame
  /-- IS_READY. -/
  | probe
  /-- A wait. -/
  | wait
  /-- SHIFT_BYTE, CLOCK_PULSE, SET_OFFSET. -/
  | other
  deriving DecidableEq, Repr

/-- The classes of R216 and R219. -/
def Op.kind : Op → OpClass
  | .begin => .frame
  | .isReady => .probe
  | .setGain => .frame
  | .readRaw => .frame
  | .waitReady => .wait
  | .waitReadyRetry => .wait
  | .waitReadyTimeout => .wait
  | .readAverage => .frame
  | .getUnits => .frame
  | .tare => .frame
  | .setScale => .frame
  | .setOffset => .other
  | .shiftByte => .other
  | .clockPulse => .other

/-- The response of a wait whose check reads low (R219 (b)): WAIT_READY gives none, the bounded waits true. -/
def waitResponse : Op → Response
  | .waitReadyRetry => boolResponse true
  | .waitReadyTimeout => boolResponse true
  | _ => .none

/-- A frame's first data pulse comes next: `BYTE_IX <- 2`, `BIT_IX <- 0`, `SR <- 0`, `ORDER <- MSB` (R219 (c)). -/
def State.startFrame (s : State) : State :=
  (s.openFrame.setRegs Regs.clearSr).setPos ({ · with phase := .dHiW, byteIx := 2, bitIx := 0, order := .msb })

/-- SG_LOW (R218). -/
def seqSgLow (s : State) : Host.Outcome State Fault Refusal := .next ((s.pinWrite false).goto .chk)

/-- CHK (R219). -/
def seqChk (s : State) : Host.Outcome State Fault Refusal :=
  match s.pos.op with
  | none => .fault .noTransition
  | some op =>
    match op.kind with
    | .probe => .next (s.pinRead.respond (boolResponse (ready s.level)))
    | .wait =>
      .next (if ready s.level then s.pinRead.respond (waitResponse op) else s.pinRead.goto .pau)
    | .frame => .next (if ready s.level then s.pinRead.startFrame else s.pinRead.goto .pau)
    | .other => .fault .noTransition

/-- PAU (R220). -/
def seqPau (s : State) : Host.Outcome State Fault Refusal :=
  match s.pos.op with
  | none => .fault .noTransition
  | some op =>
    match op.kind with
    | .frame => .next ((s.pauseMs Config.readRawPollMs).goto .chk)
    | .probe => .fault .noTransition
    | .other => .fault .noTransition
    | .wait =>
      match op with
      | .waitReadyRetry =>
        let t := (s.pauseMs (zext s.regs.argB)).setRegs Regs.countAttempt
        .next (if (t.regs.attempt : Int) < sext s.regs.argA then t.goto .chk else t.respond (boolResponse false))
      | .waitReadyTimeout => .next ((s.pauseMs (zext s.regs.argB)).goto .tq)
      | _ => .next ((s.pauseMs (zext s.regs.argA)).goto .chk)

/-- TQ0 (R221). -/
def seqTq0 (s : State) : Host.Outcome State Fault Refusal :=
  .next ((s.nowMs.setRegs ({ · with t0 := s.clockMs })).goto .tq)

/-- TQ (R222): the elapsed time is exact, since the clock does not decrease (R169). -/
def seqTq (s : State) : Host.Outcome State Fault Refusal :=
  .next (if s.clockMs - s.regs.t0 < zext s.regs.argA then s.nowMs.goto .chk
    else s.nowMs.respond (boolResponse false))

/-- D_HI_W (R223). -/
def seqDHiW (s : State) : Host.Outcome State Fault Refusal := .next ((s.pinWrite true).goto .dHiD)

/-- D_HI_D (R223). -/
def seqDHiD (s : State) : Host.Outcome State Fault Refusal := .next ((s.delayUs Config.tHiMin).goto .dSmp)

/-- D_SMP (R224). -/
def seqDSmp (s : State) : Host.Outcome State Fault Refusal :=
  .next ((s.pinRead.setRegs (Regs.storeBit s.pos.order s.pos.bitIx s.level)).goto .dLoW)

/-- D_LO_W (R225). -/
def seqDLoW (s : State) : Host.Outcome State Fault Refusal := .next ((s.pinWrite false).goto .dLoD)

/-- The end of a group of eight bits in a frame (R226 (c)). -/
def State.endGroup (s : State) : State :=
  let t := s.setRegs (Regs.storeByte s.pos.byteIx)
  match s.pos.byteIx with
  | 0 => t.setPos ({ · with phase := .gHiW, pulseIx := 0 })
  | 1 => (t.setRegs Regs.clearSr).setPos ({ · with phase := .dHiW, byteIx := 0, bitIx := 0 })
  | 2 => (t.setRegs Regs.clearSr).setPos ({ · with phase := .dHiW, byteIx := 1, bitIx := 0 })

/-- D_LO_D (R226). -/
def seqDLoD (s : State) : Host.Outcome State Fault Refusal :=
  let t := s.delayUs Config.tLoMin
  if s.pos.bitIx < 7 then .next (t.setPos ({ · with phase := .dHiW, bitIx := s.pos.bitIx + 1 }))
  else
    match s.pos.op with
    | none => .fault .noTransition
    | some op =>
      match op.kind with
      | .frame => .next t.endGroup
      | .probe => .fault .noTransition
      | .wait => .fault .noTransition
      | .other =>
        match op with
        | .shiftByte => .next (t.respond (srResponse t.regs))
        | _ => .fault .noTransition

/-- G_HI_W (R227). -/
def seqGHiW (s : State) : Host.Outcome State Fault Refusal := .next ((s.pinWrite true).goto .gHiD)

/-- G_HI_D (R227). -/
def seqGHiD (s : State) : Host.Outcome State Fault Refusal := .next ((s.delayUs Config.tHiMin).goto .gLoW)

/-- G_LO_W (R227). -/
def seqGLoW (s : State) : Host.Outcome State Fault Refusal := .next ((s.pinWrite false).goto .gLoD)

/-- The end of an assembled frame, by OP (R229). -/
def State.endFrame (op : Op) (s : State) : State :=
  match op with
  | .readRaw => s.respond (resultResponse s.regs)
  | .begin => s.respond .none
  | .setGain => s.respond .none
  | _ => (s.setRegs Regs.addSample).goto .avgY

/-- G_LO_D (R228). -/
def seqGLoD (s : State) : Host.Outcome State Fault Refusal :=
  let t := (s.delayUs Config.tLoMin).setPos ({ · with pulseIx := s.pos.pulseIx + 1 })
  match s.pos.op with
  | none => .fault .noTransition
  | some op =>
    match op.kind with
    | .frame =>
      .next (if t.pos.pulseIx < t.regs.gainCode.pulses then t.goto .gHiW
        else (t.setRegs Regs.assembleFrame).closeFrame.endFrame op)
    | .probe => .fault .noTransition
    | .wait => .fault .noTransition
    | .other =>
      match op with
      | .clockPulse => .next (t.respond .none)
      | _ => .fault .noTransition

/-- The end of a mean of `n` frames, by OP (R230). -/
def State.endMean (op : Op) (n : Int) (s : State) : Host.Outcome State Fault Refusal :=
  let m := s.mean n
  match op with
  | .readAverage => .next (s.respond (.num m))
  | .getUnits => .next (s.respond (.num (s.units m)))
  | .tare => .next ((s.setRegs ({ · with offset := m })).respond .none)
  | .setScale => .next ((s.setRegs ({ · with scale := s.scaleFor m s.regs.argA })).respond .none)
  | _ => .fault .noTransition

/-- AVG_Y (R230). -/
def seqAvgY (s : State) : Host.Outcome State Fault Refusal :=
  let t := (s.pauseMs Config.yieldMs).setRegs Regs.countSample
  let n := meanCount s.pos.op s.regs.argA
  match s.pos.op with
  | none => .fault .noTransition
  | some op => if (t.regs.count : Int) < n then .next (t.goto .chk) else t.endMean op n

/-- One step of an operation in progress, enabled by PHASE alone (R215). In IDLE there is none. -/
def sequencer (s : State) : Host.Outcome State Fault Refusal :=
  match s.pos.phase with
  | .idle => .next s
  | .sgLow => seqSgLow s
  | .chk => seqChk s
  | .pau => seqPau s
  | .tq0 => seqTq0 s
  | .tq => seqTq s
  | .dHiW => seqDHiW s
  | .dHiD => seqDHiD s
  | .dSmp => seqDSmp s
  | .dLoW => seqDLoW s
  | .dLoD => seqDLoD s
  | .gHiW => seqGHiW s
  | .gHiD => seqGHiD s
  | .gLoW => seqGLoW s
  | .gLoD => seqGLoD s
  | .avgY => seqAvgY s

end Sys2Proof.Machine
end

