-- ==== Sys2Proof/Machine/Step.lean ====
section
/-! DEFINITION. One step of the machine: the acceptance of a command, or the one call of the operation in progress (R215). -/

namespace Sys2Proof.Machine

/-- One step. Where a word stands at the command port and the block may take it, its command is performed by
`exec` and the word taken; otherwise the sequencer steps, which in IDLE changes nothing: the block idles until a command arrives (R36). -/
def step (s : State) : Host.Outcome State Fault Refusal :=
  match s.offeredWord with
  | some w => takingWord (exec (decode w) s)
  | none => sequencer s

/-- `s` with the instruction of a table row's bits at the head of the command port, the block idle, so that the
next step performs it (log entry 1). -/
def State.withFetchWord (s : State) (_nbits w : Nat) : State := s.offerWord (BitVec.ofNat 68 w)

end Sys2Proof.Machine
end

