-- ==== Sys2Proof/Machine/BigStep.lean ====
section
/-! DEFINITION. The big-step rules: each operation as the pseudocode of files 40 to 45 gives it, over the same collaborator calls as the sequencer (R18). A wait without bound runs on fuel, one unit a check: no answer means that it has not ended within so many checks. -/

namespace Sys2Proof.Machine

/-- `return v`: the response given (R14). -/
def State.answer (r : Response) (s : State) : State := { s with responses := s.responses ++ [r] }

/-- One round of SHIFT_BYTE's loop (R120): a data pulse, its sample stored after the low hold. -/
def bigDataPulse (order : BitOrder) (i : Fin 8) (s : State) : State :=
  let t := (s.pinWrite true).delayUs Config.tHiMin
  ((t.pinRead.pinWrite false).delayUs Config.tLoMin).setRegs (Regs.storeBit order i t.level)

/-- The rounds of SHIFT_BYTE's loop that are left, `i = 8 - left` to 7 (R120). -/
def bigDataPulses (order : BitOrder) : (left : Nat) → State → State
  | 0, s => s
  | left + 1, s => bigDataPulses order left (bigDataPulse order (Fin.ofNat 8 (7 - left)) s)

/-- SHIFT_BYTE (R120). -/
def bigShiftByte (order : BitOrder) (s : State) : State := bigDataPulses order 8 (s.setRegs Regs.clearSr)

/-- CLOCK_PULSE (R125). -/
def bigClockPulse (s : State) : State :=
  (((s.pinWrite true).delayUs Config.tHiMin).pinWrite false).delayUs Config.tLoMin

/-- So many CLOCK_PULSEs (R143). -/
def bigClockPulses : Nat → State → State
  | 0, s => s
  | n + 1, s => bigClockPulses n (bigClockPulse s)

/-- WAIT_READY (R160). -/
def bigWaitReady (pollMs : Nat) : (fuel : Nat) → State → Option State
  | 0, _ => none
  | fuel + 1, s =>
    if ready s.level then some s.pinRead else bigWaitReady pollMs fuel (s.pinRead.pauseMs pollMs)

/-- WAIT_READY_RETRY's loop, so many attempts left (R163). -/
def bigRetry (pollMs : Nat) : (left : Nat) → State → Bool × State
  | 0, s => (false, s)
  | left + 1, s =>
    if ready s.level then (true, s.pinRead)
    else bigRetry pollMs left ((s.pinRead.pauseMs pollMs).setRegs Regs.countAttempt)

/-- WAIT_READY_TIMEOUT's loop (R167). -/
def bigTimeout (timeoutMs pollMs : Nat) : (fuel : Nat) → State → Option (Bool × State)
  | 0, _ => none
  | fuel + 1, s =>
    if s.clockMs - s.regs.t0 < timeoutMs then
      if ready s.nowMs.level then some (true, s.nowMs.pinRead)
      else bigTimeout timeoutMs pollMs fuel (s.nowMs.pinRead.pauseMs pollMs)
    else some (false, s.nowMs)

/-- Steps 2 to 5 of READ_RAW: three bytes, high byte first, the gain pulses, the assembly (R142 to R145). -/
def bigFrame (s : State) : State :=
  let s2 := (bigShiftByte .msb s.openFrame).setRegs (Regs.storeByte 2)
  let s1 := (bigShiftByte .msb s2).setRegs (Regs.storeByte 1)
  let s0 := (bigShiftByte .msb s1).setRegs (Regs.storeByte 0)
  ((bigClockPulses s0.regs.gainCode.pulses s0).setRegs Regs.assembleFrame).closeFrame

/-- READ_RAW, its value in RESULT (R140). -/
def bigReadRaw (fuel : Nat) (s : State) : Option State :=
  (bigWaitReady Config.readRawPollMs fuel s).map bigFrame

/-- SET_GAIN (R183), its frame's value dropped. -/
def bigSetGain (gain : Word) (fuel : Nat) (s : State) : Option State :=
  bigReadRaw fuel ((s.setRegs (Regs.selectGain gain)).pinWrite false)

/-- The frames of READ_AVERAGE that are left (R196). -/
def bigSamples (fuel : Nat) : (left : Nat) → State → Option State
  | 0, s => some s
  | left + 1, s =>
    match bigReadRaw fuel s with
    | none => none
    | some t => bigSamples fuel left (((t.setRegs Regs.addSample).pauseMs Config.yieldMs).setRegs Regs.countSample)

/-- READ_AVERAGE up to its division (R196). -/
def bigMean (n : Int) (fuel : Nat) (s : State) : Option State :=
  bigSamples fuel n.toNat (s.setRegs Regs.startMean)

/-- The operand latch of an operation that is performed (R29). -/
def State.latched (a b : Word) (s : State) : State := s.setRegs (Regs.latch a b)

/-- An operation performed when the block is configured, else refused (R254). -/
def bigConfigured (perform : State → Option State) (s : State) : Option State :=
  match s.regs.lifecycle with
  | .uninitialized => some (s.refuse .notConfigured)
  | .configured => perform s

/-- An operation performed when its count is at least 1, else refused (R197). -/
def bigCounted (n : Word) (perform : State → Option State) (s : State) : Option State :=
  if sext n < 1 then some (s.refuse .invalidCount) else perform s

/-- The big-step rule of each command, from the state in which it is offered to the state in which its response
has been given. -/
def bigStep (i : Instr) (fuel : Nat) (s : State) : Option State :=
  match i with
  | .begin c d =>
    (bigSetGain 128 fuel ((s.latched c d).setRegs (Regs.bind c d))).map (State.answer .none)
  | .isReady =>
    bigConfigured (fun s => some ((s.latched s.portA s.portB).pinRead.answer (boolResponse (ready (s.latched s.portA s.portB).level)))) s
  | .setGain gain =>
    bigConfigured (fun s => (bigSetGain gain fuel (s.latched gain s.portB)).map (State.answer .none)) s
  | .readRaw =>
    bigConfigured (fun s => (bigReadRaw fuel (s.latched s.portA s.portB)).map fun t => t.answer (resultResponse t.regs)) s
  | .waitReady p =>
    bigConfigured (fun s => (bigWaitReady (zext p) fuel (s.latched p s.portB)).map (State.answer .none)) s
  | .waitReadyRetry n p =>
    bigConfigured (fun s =>
      let r := bigRetry (zext p) (sext n).toNat ((s.latched n p).setRegs ({ · with attempt := 0 }))
      some (r.2.answer (boolResponse r.1))) s
  | .waitReadyTimeout t p =>
    bigConfigured (fun s =>
      let u := s.latched t p
      (bigTimeout (zext t) (zext p) fuel (u.nowMs.setRegs ({ · with t0 := u.clockMs }))).map
        fun r => r.2.answer (boolResponse r.1)) s
  | .readAverage n =>
    bigConfigured (bigCounted n fun s =>
      (bigMean (sext n) fuel (s.latched n s.portB)).map fun t => t.answer (.num (t.mean (sext n)))) s
  | .getUnits n =>
    bigConfigured (bigCounted n fun s =>
      (bigMean (sext n) fuel (s.latched n s.portB)).map fun t => t.answer (.num (t.units (t.mean (sext n))))) s
  | .tare =>
    bigConfigured (fun s => (bigMean Config.nAvgDefault fuel (s.latched s.portA s.portB)).map fun t =>
      (t.setRegs ({ · with offset := t.mean Config.nAvgDefault })).answer .none) s
  | .setScale w =>
    bigConfigured (fun s => (bigMean Config.nAvgDefault fuel (s.latched w s.portB)).map fun t =>
      (t.setRegs ({ · with scale := t.scaleFor (t.mean Config.nAvgDefault) w })).answer .none) s
  | .setOffset v =>
    bigConfigured (fun s => some (((s.latched v s.portB).setRegs ({ · with offset := numOperand v })).answer .none)) s
  | .shiftByte order =>
    bigConfigured (fun s =>
      let t := bigShiftByte order (s.latched (orderOperand order s.portA) s.portB)
      some (t.answer (srResponse t.regs))) s
  | .clockPulse => bigConfigured (fun s => some ((bigClockPulse (s.latched s.portA s.portB)).answer .none)) s
  | .reserved0 => some (s.refuse .reservedOpcode)
  | .reservedF => some (s.refuse .reservedOpcode)

/-- Two states that differ in the sequencer position only (R231). -/
def State.sameButPosition (s t : State) : Prop := { t with pos := s.pos } = s

end Sys2Proof.Machine
end

