-- ==== Sys2Proof/Safety.lean ====
section
/-! DEFINITION. What claims about the machine are stated in: runs, the machine's invariant, the traces of the operations, and the premises on the environment. -/

namespace Sys2Proof.Machine

/-- `k` steps of the machine. -/
def run (k : Nat) (s : State) : Host.Outcome State Fault Refusal := Host.Core.run Sys2Proof.core k s

/-! ## The machine's invariant -/

/-- The phases in which the clock line is high (the table of R216). -/
def Phase.clockHigh : Phase → Bool
  | .dHiD => true
  | .dSmp => true
  | .dLoW => true
  | .gHiD => true
  | .gLoW => true
  | _ => false

/-- The phases of a data pulse (R216). -/
def Phase.isData : Phase → Bool
  | .dHiW => true
  | .dHiD => true
  | .dSmp => true
  | .dLoW => true
  | .dLoD => true
  | _ => false

/-- The phases of a gain pulse (R216). -/
def Phase.isGain : Phase → Bool
  | .gHiW => true
  | .gHiD => true
  | .gLoW => true
  | .gLoD => true
  | _ => false

/-- The operations that sum frames (R216, R229). -/
def Op.takesMean : Op → Bool
  | .readAverage => true
  | .getUnits => true
  | .tare => true
  | .setScale => true
  | _ => false

/-- The phases an operation in progress can be in (R216 to R230). -/
def Op.visits (op : Op) (ph : Phase) : Bool :=
  match op.kind with
  | .probe => ph == .chk
  | .wait =>
    ph == .chk || ph == .pau || (op == .waitReadyTimeout && (ph == .tq0 || ph == .tq))
  | .frame =>
    ph == .chk || ph == .pau || ph.isData || ph.isGain ||
      ((op == .begin || op == .setGain) && ph == .sgLow) || (op.takesMean && ph == .avgY)
  | .other => (op == .shiftByte && ph.isData) || (op == .clockPulse && ph.isGain)

/-- OP and PHASE fit together: no operation in IDLE, and elsewhere one that visits the phase (R28). -/
def Position.coherent (p : Position) : Bool :=
  match p.op with
  | none => p.phase == .idle
  | some op => op.visits p.phase

/-- SCK_LEVEL is the one R216 gives the phase; undriven only before the first BEGIN has written it (R26). -/
def State.lineFits (s : State) : Bool :=
  match s.sckLevel with
  | .high => s.pos.phase.clockHigh
  | .low => !s.pos.phase.clockHigh && s.regs.lifecycle == .configured
  | .undriven =>
    (s.pos.phase == .idle && s.regs.lifecycle == .uninitialized) ||
      (s.pos.phase == .sgLow && s.pos.op == some .begin)

/-- What every state of a run keeps (R21, R23 to R30, R33, R84, R216). -/
structure State.Inv (s : State) : Prop where
  /-- BUSY is 1 exactly inside an operation (R30). -/
  busy : s.busy = decide (s.pos.phase ≠ .idle)
  /-- OP and PHASE fit together (R28, R216). -/
  position : s.pos.coherent = true
  /-- The clock line is where the phase has it (R26, R216). -/
  line : s.lineFits = true
  /-- Nothing but an idle block is Uninitialized (R21, R254). -/
  lifecycle : s.regs.lifecycle = .uninitialized → s.pos.phase = .idle
  /-- The gain pulses of a frame never outrun GAIN_CODE (R228). -/
  pulses : s.pos.phase.isGain = true →
    s.pos.pulseIx < if s.pos.op = some .clockPulse then 1 else s.regs.gainCode.pulses
  /-- A retry in progress has attempts left (R163). -/
  attempts : s.pos.op = some .waitReadyRetry → (s.regs.attempt : Int) < sext s.regs.argA
  /-- The clock has not gone back since a timeout began (R169). -/
  clock : s.pos.op = some .waitReadyTimeout → s.pos.phase ≠ .tq0 → s.regs.t0 ≤ s.env.lastMs
  /-- A mean in progress has frames left (R196). -/
  frames : ∀ op, s.pos.op = some op → op.takesMean = true →
    (s.regs.count : Int) < meanCount (some op) s.regs.argA
  /-- The sum of a mean in progress is that of so many 24-bit values (R196, R205). -/
  sum : ∀ op, s.pos.op = some op → op.takesMean = true →
    s.regs.sum.natAbs ≤ (s.regs.count + if s.pos.phase = .avgY then 1 else 0) * 2 ^ 23
  /-- A frame is shifted most significant bit first (R55). -/
  order : ∀ op, s.pos.op = some op → op.kind = .frame → s.pos.phase.isData = true → s.pos.order = .msb
  /-- The fill byte is all zeros or all ones (R24). -/
  fill : s.regs.fill = 0x00 ∨ s.regs.fill = 0xFF
  /-- RESULT is a 24-bit value (R84, R146). -/
  result : -(2 ^ 23) ≤ s.regs.result.toInt ∧ s.regs.result.toInt < 2 ^ 23
  /-- The pin space keeps its canonical form. -/
  pins : s.pins.wf = true
  /-- The clock pin has the level of SCK_LEVEL, once the operation that binds it has written it (R26, R51). -/
  clockPin : s.regs.lifecycle = .configured → s.pos.phase ≠ .sgLow →
    s.pins.read s.regs.clockPin.toNat = some (decide (s.sckLevel = .high))

/-! ## The states an operation starts and ends in -/

/-- The block can take any command: BUSY = 0 and it is configured (R217). -/
def State.standsReady (s : State) : Prop := s.busy = false ∧ s.regs.lifecycle = .configured

/-- No converter is assumed and the data line's next answers are `ls`, then `rest` (R262, R268 (d)). -/
def State.answers (s : State) (ls rest : List Bool) : Prop :=
  s.env.conv = none ∧ s.env.levels.script = ls ++ rest

/-- An operation that began in `s` has ended in `t` with this response and these events (R14, R217). -/
structure State.EndsWith (s t : State) (r : Response) (events : List Event) : Prop where
  responses : t.responses = s.responses ++ [r]
  trace : t.trace = s.trace ++ events
  busy : t.busy = false
  op : t.pos.op = none
  phase : t.pos.phase = .idle
  cmds : t.cmds = s.cmds

/-- The answers the operation drew from the data line, and nothing else the caller could see of the
environment, have gone. -/
structure Env.Drew (e e' : Env) (rest : List Bool) : Prop where
  conv : e'.conv = none
  levels : e'.levels.script = rest
  clock : e'.clock = e.clock
  lastMs : e'.lastMs = e.lastMs
  exactNum : e'.exactNum = e.exactNum

/-! ## Values and traces of the operations -/

/-- The number whose bits are a list of samples, the first the most significant (R121). -/
def msbValue (samples : List Bool) : Nat := samples.foldl (fun v b => 2 * v + b.toNat) 0

/-- The number whose bits are a list of samples, the first the least significant (R121). -/
def lsbValue (samples : List Bool) : Nat := samples.foldr (fun b v => b.toNat + 2 * v) 0

/-- The value a group of eight samples packs to (R121). -/
def groupValue : BitOrder → List Bool → Nat
  | .msb, samples => msbValue samples
  | .lsb, samples => lsbValue samples

/-- The 24 samples that carry a 24-bit value, most significant first (R148). -/
def bits (v : BitVec 24) : List Bool := (List.range 24).map fun k => v.getLsbD (23 - k)

/-- The data registers after a frame whose samples are the bits of `v` (R142 to R147). -/
def Regs.afterFrame (v : BitVec 24) (r : Regs) : Regs :=
  { r with
    sr := v.extractLsb' 0 8
    byte2 := v.extractLsb' 16 8
    byte1 := v.extractLsb' 8 8
    byte0 := v.extractLsb' 0 8
    fill := if v.msb then 0xFF else 0x00
    result := v.signExtend 32 }

/-- The events of a data pulse with one sample (R122). -/
def pulseEvents (clock data : PinId) (sample : Bool) : List Event :=
  [.write clock true, .delay Config.tHiMin, .read data sample, .write clock false, .delay Config.tLoMin]

/-- The events of a gain pulse (R126). -/
def gainEvents (clock : PinId) : List Event :=
  [.write clock true, .delay Config.tHiMin, .write clock false, .delay Config.tLoMin]

/-- The events of `k` failed checks, each followed by a pause (R161). -/
def failedChecks (data : PinId) (pollMs k : Nat) : List Event :=
  (List.replicate k [Event.read data true, Event.pause pollMs]).flatten

/-- The events of WAIT_READY when `k` checks fail before one succeeds (R161). -/
def waitEvents (data : PinId) (pollMs k : Nat) : List Event := failedChecks data pollMs k ++ [.read data false]

/-- The events of the frame proper: the data pulses, then the gain pulses (R149). -/
def frameEvents (clock data : PinId) (samples : List Bool) (g : GainCode) : List Event :=
  samples.flatMap (pulseEvents clock data) ++ (List.replicate g.pulses (gainEvents clock)).flatten

/-- The events of READ_RAW when `k` checks fail first (R149). -/
def readRawEvents (clock data : PinId) (k : Nat) (samples : List Bool) (g : GainCode) : List Event :=
  waitEvents data Config.readRawPollMs k ++ frameEvents clock data samples g

/-- A frame to come: the checks that fail before it, and its value. -/
structure FrameToCome where
  failed : Nat
  value : BitVec 24
  deriving DecidableEq, Repr

/-- The answers of the data line that give one frame (R148). -/
def FrameToCome.levels (f : FrameToCome) : List Bool := List.replicate f.failed true ++ false :: bits f.value

/-- The simulated device of R268 (a): `k` checks, none of which reads low. -/
def neverReady (k : Nat) : List Bool := List.replicate k true

/-- The simulated device of R268 (c), the constant reading of R206: every check reads low and the samples of each of
the frames are the bits of `c`. -/
def constantReading (c : BitVec 24) (frames : Nat) : List Bool :=
  (List.replicate frames (⟨0, c⟩ : FrameToCome)).flatMap FrameToCome.levels

/-- The events of the READ_RAWs of a mean, the yield after each (R196, R198). -/
def meanEvents (clock data : PinId) (g : GainCode) (frames : List FrameToCome) : List Event :=
  frames.flatMap fun f => readRawEvents clock data f.failed (bits f.value) g ++ [.pause Config.yieldMs]

/-- The exact sum of the frames' values (R196). -/
def frameSum (frames : List FrameToCome) : Int := (frames.map fun f => f.value.toInt).sum

/-- The events of the failed rounds of WAIT_READY_TIMEOUT, from a clock at `t` that advances by `advances` (R167). -/
def timeoutRounds (data : PinId) (pollMs : Nat) : (t : Nat) → (advances : List Nat) → List Event
  | _, [] => []
  | t, a :: more => .now (t + a) :: .read data true :: .pause pollMs :: timeoutRounds data pollMs (t + a) more

/-- The pause a failed check is followed by (R220). -/
def State.pollMs (s : State) : Nat :=
  match s.pos.op with
  | some .waitReady => zext s.regs.argA
  | some .waitReadyRetry => zext s.regs.argB
  | some .waitReadyTimeout => zext s.regs.argB
  | _ => Config.readRawPollMs

/-- The one call that the step of a phase makes (the table of R216); in IDLE none. -/
def State.phaseCall (s : State) : List Event :=
  match s.pos.phase with
  | .idle => []
  | .sgLow => [.write s.regs.clockPin false]
  | .chk => [.read s.regs.dataPin s.level]
  | .pau => [.pause s.pollMs]
  | .tq0 => [.now s.clockMs]
  | .tq => [.now s.clockMs]
  | .dHiW => [.write s.regs.clockPin true]
  | .dHiD => [.delay Config.tHiMin]
  | .dSmp => [.read s.regs.dataPin s.level]
  | .dLoW => [.write s.regs.clockPin false]
  | .dLoD => [.delay Config.tLoMin]
  | .gHiW => [.write s.regs.clockPin true]
  | .gHiD => [.delay Config.tHiMin]
  | .gLoW => [.write s.regs.clockPin false]
  | .gLoD => [.delay Config.tLoMin]
  | .avgY => [.pause Config.yieldMs]

/-- The state after a step's one call, its effect on the pin space and the clock line apart from the rest: one event more,
and whatever the call made of the environment. -/
def State.called (call : Event) (e : Env) (s : State) : State :=
  { s with trace := s.trace ++ [call], env := e }

/-! ## Premises on the environment -/

/-- The clock-high intervals that ended between two states (R233). -/
def Env.newHighs (e e' : Env) : List Nat := e'.highs.drop e.highs.length

/-- `FrameUninterrupted` (R293): every clock-high interval between two states lasted at most T_PD_SAFE. -/
def Env.uninterrupted (e e' : Env) : Prop := ∀ us ∈ e.newHighs e', us ≤ Config.tPdSafe

/-- Two environments that differ only in time: the durations to come and the intervals measured (R300). -/
def Env.sameButTime (e e' : Env) : Prop :=
  { e' with slack := e.slack, band := e.band, highUs := e.highUs, highs := e.highs } = e

/-- Two states that differ only in time (R300). -/
def State.sameButTime (s t : State) : Prop := { t with env := s.env } = s ∧ s.env.sameButTime t.env

end Sys2Proof.Machine
end

