-- ==== Sys2Proof/Certificates/Slice0/Obligations.lean ====
section
/-! DEFINITION. The statements about the block, for the provers. Each docstring names the rule of the spec it formalises, or says what it rests on. -/

open Sys2Proof Sys2Proof.Machine

/-! ## Reset and the invariant -/

/-- The values R36 gives for reset: LIFECYCLE Uninitialized, OP none, PHASE IDLE, BUSY 0, OFFSET 0, SCALE 1, the line
and every pin undriven. -/
def Obligations.ResetLeavesTheSpecsValues : Prop :=
  State.reset.regs.lifecycle = .uninitialized ∧ State.reset.pos.op = none ∧ State.reset.pos.phase = .idle ∧
    State.reset.busy = false ∧ State.reset.regs.offset = .rat 0 ∧ State.reset.regs.scale = .rat 1 ∧
    State.reset.sckLevel = .undriven ∧ ∀ pin, State.reset.pins.read pin = none

/-- The invariant holds right after reset. That FILL and RESULT are in range rests on the reset values the model chose
for them, since R36 gives these registers none: log entry 2. -/
def Obligations.ResetKeepsInvariant : Prop := State.reset.Inv

/-- From every state that keeps the invariant the machine steps, never stops, and keeps it (R240: no exception, ever).
-/
def Obligations.StepKeepsInvariantAndNeverStops : Prop :=
  ∀ s : State, s.Inv → ∃ t, step s = .next t ∧ t.Inv

/-! ## Encodings -/

/-- Decoding an encoded command gives it back, every operand at every value (R96 to R99). -/
def Obligations.DecodeOfEncode : Prop := ∀ i : Instr, decode (encode i) = i

/-- Encoding a decoded word gives the word with its unused operand bits 0 (R96, R99). -/
def Obligations.EncodeOfDecodeKeepsUsedBits : Prop :=
  ∀ w : CommandWord, encode (decode w) = w &&& (decode w).usedBits

/-- The operation is told from `op` alone, and words that agree in the bits their command uses decode alike (R96). -/
def Obligations.UnusedBitsAreIgnored : Prop :=
  ∀ w w' : CommandWord, (decode w).opcode = w.extractLsb' 64 4 ∧
    (w &&& (decode w).usedBits = w' &&& (decode w).usedBits → decode w' = decode w)

/-- R99: SHIFT_BYTE takes `bit_order` from `a[0]`, bit 32 of the word; `a[31:1]` is ignored. -/
def Obligations.ShiftByteOrderFromLowestOperandBit : Prop :=
  ∀ w : CommandWord, w.extractLsb' 64 4 = 0xD →
    decode w = .shiftByte (if w.getLsbD 32 then .lsb else .msb)

/-- The words of the spec's test vectors (95_test_vectors.md 2.8) decode as it says, those of the two reserved rows
whatever their operand bits are. -/
def Obligations.SpecWordsDecode : Prop :=
  decode 0x10000000100000002 = .begin 1 2 ∧ decode 0x20000000000000000 = .isReady ∧
    decode 0x2DEADBEEF12345678 = .isReady ∧
    decode 0x30000004000000000 = .setGain 64 ∧ decode 0x40000000000000000 = .readRaw ∧
    decode 0x50000000500000000 = .waitReady 5 ∧ decode 0x6000000030000000A = .waitReadyRetry 3 10 ∧
    decode 0x7000000190000000A = .waitReadyTimeout 25 10 ∧ decode 0x80000000A00000000 = .readAverage 10 ∧
    decode 0x90000000100000000 = .getUnits 1 ∧ decode 0xA0000000000000000 = .tare ∧
    decode 0xB0000006400000000 = .setScale 100 ∧ decode 0xCFFFFFF0600000000 = .setOffset (BitVec.ofInt 32 (-250)) ∧
    decode 0xD0000000000000000 = .shiftByte .msb ∧ decode 0xD0000000100000000 = .shiftByte .lsb ∧
    decode 0xD0000000200000000 = .shiftByte .msb ∧
    decode 0xE0000000000000000 = .clockPulse ∧
    ∀ operands : BitVec 64, decode ((0x0 : BitVec 4) ++ operands) = .reserved0 ∧
      decode ((0xF : BitVec 4) ++ operands) = .reservedF

/-- R100: a word with opcode 0x0 or 0xF is refused, with no state change and no event. -/
def Obligations.ReservedOpcodesRefused : Prop :=
  ∀ (s : State), s.busy = false →
    exec .reserved0 s = .next { s with responses := s.responses ++ [.refused .reservedOpcode] } ∧
    exec .reservedF s = .next { s with responses := s.responses ++ [.refused .reservedOpcode] } ∧
    ∀ (w : CommandWord) (rest : List CommandWord), s.pos.phase = .idle → s.cmds = w :: rest →
      w.extractLsb' 64 4 = 0x0 ∨ w.extractLsb' 64 4 = 0xF →
      step s = .next { s with cmds := rest, responses := s.responses ++ [.refused .reservedOpcode] }

/-! ## Steps -/

/-- A step of an idle block at whose port a word stands is `exec` of the word's command, the word taken; an accepted
word is latched whole, ARG_A and ARG_B, whichever of its fields the command uses (R217). That the port is a list whose
oldest word is taken is the model's choice, log entry 1; that a step with no word leaves an idle block as it is, log
entry 18. -/
def Obligations.StepPerformsOfferedCommand : Prop :=
  (∀ (s t : State) (w : CommandWord) (rest : List CommandWord), s.pos.phase = .idle → s.busy = false →
    s.cmds = w :: rest → exec (decode w) s = .next t →
    t.cmds = s.cmds ∧ step s = .next { t with cmds := rest } ∧
      ((∃ reason, t.responses = s.responses ++ [.refused reason]) ∨
        t.regs.argA = w.extractLsb' 32 32 ∧ t.regs.argB = w.extractLsb' 0 32)) ∧
  (∀ s : State, s.pos.phase = .idle → s.cmds = [] → step s = .next s)

/-- While BUSY = 1 no command is taken (R30, R245): steps leave the port alone, and a command offered changes nothing
(log entry 14). -/
def Obligations.BusyTakesNoCommand : Prop :=
  ∀ s : State, s.busy = true →
    (∀ t, step s = .next t → t.cmds = s.cmds) ∧ ∀ i : Instr, exec i s = .next s

/-- R254: while Uninitialized only BEGIN is performed; every other operation is refused, SET_OFFSET included. -/
def Obligations.UnconfiguredRefusesAllButBegin : Prop :=
  ∀ (s : State), s.busy = false → s.regs.lifecycle = .uninitialized →
    (∀ i : Instr, i.wellFormed = true → i.opcode ≠ 0x1 →
      exec i s = .next { s with responses := s.responses ++ [.refused .notConfigured] }) ∧
    ∀ c d : PinId, ∃ t, exec (.begin c d) s = .next t ∧ t.busy = true ∧ t.pos.op = some .begin ∧
      t.regs.lifecycle = .configured ∧ t.regs.clockPin = c ∧ t.regs.dataPin = d

/-- R197: READ_AVERAGE and GET_UNITS with a count below 1, negative ones too, are refused. -/
def Obligations.CountBelowOneRefused : Prop :=
  ∀ (s : State) (n : Word), s.standsReady → n.toInt < 1 →
    exec (.readAverage n) s = .next { s with responses := s.responses ++ [.refused .invalidCount] } ∧
    exec (.getUnits n) s = .next { s with responses := s.responses ++ [.refused .invalidCount] }

/-- A refusal leaves all state unchanged and makes no event (R14, R245). -/
def Obligations.RefusalChangesNothingElse : Prop :=
  ∀ (i : Instr) (s t : State) (reason : RefuseReason), exec i s = .next t →
    t.responses = s.responses ++ [.refused reason] →
    t = { s with responses := s.responses ++ [.refused reason] }

/-- Every step makes exactly the one call of its phase, and none in IDLE (R215, the table of R216). -/
def Obligations.StepMakesTheCallOfItsPhase : Prop :=
  ∀ s t : State, step s = .next t → t.trace = s.trace ++ s.phaseCall

/-! ## Acceptance (R217). Operand fields an operation does not use are latched from the word at the port, `portA` and
`portB`; what those are where no word stands there is log entry 4 -/

/-- Acceptance of the readiness operations and of the transport (R217, its rows). A field the operation does not use
is latched from the word at the port (log entry 4: 0 where none stands there). -/
def Obligations.AcceptanceOfProbeWaitsAndTransport : Prop :=
  ∀ s : State, s.standsReady →
    exec .isReady s = .next { s with
      busy := true, regs := { s.regs with argA := s.portA, argB := s.portB }
      pos := { s.pos with op := some .isReady, phase := .chk } } ∧
    exec .readRaw s = .next { s with
      busy := true, regs := { s.regs with argA := s.portA, argB := s.portB }
      pos := { s.pos with op := some .readRaw, phase := .chk } } ∧
    (∀ p : Word, exec (.waitReady p) s = .next { s with
      busy := true, regs := { s.regs with argA := p, argB := s.portB }
      pos := { s.pos with op := some .waitReady, phase := .chk } }) ∧
    (∀ n p : Word, 0 < n.toInt → exec (.waitReadyRetry n p) s = .next { s with
      busy := true, regs := { s.regs with argA := n, argB := p, attempt := 0 }
      pos := { s.pos with op := some .waitReadyRetry, phase := .chk } }) ∧
    (∀ n p : Word, n.toInt ≤ 0 → exec (.waitReadyRetry n p) s = .next { s with
      regs := { s.regs with argA := n, argB := p, attempt := 0 }
      responses := s.responses ++ [.bool false]
      pos := { s.pos with op := none, phase := .idle } }) ∧
    (∀ t p : Word, exec (.waitReadyTimeout t p) s = .next { s with
      busy := true, regs := { s.regs with argA := t, argB := p }
      pos := { s.pos with op := some .waitReadyTimeout, phase := .tq0 } }) ∧
    (∀ o : BitOrder, exec (.shiftByte o) s = .next { s with
      busy := true
      regs := { s.regs with argA := orderOperand o s.portA, argB := s.portB, sr := 0 }
      pos := { s.pos with op := some .shiftByte, phase := .dHiW, bitIx := 0, order := o } }) ∧
    exec .clockPulse s = .next { s with
      busy := true, regs := { s.regs with argA := s.portA, argB := s.portB }
      pos := { s.pos with op := some .clockPulse, phase := .gHiW, pulseIx := 0 } }

/-- Acceptance of the configuration and of the surrounding software's operations (R217, its rows). A field the
operation does not use is latched from the word at the port (log entry 4: 0 where none stands there). -/
def Obligations.AcceptanceOfConfigurationAndMeans : Prop :=
  ∀ s : State, s.busy = false →
    (∀ c d : PinId, exec (.begin c d) s = .next { s with
      busy := true
      regs := { s.regs with
        argA := c, argB := d, clockPin := c, dataPin := d, lifecycle := .configured, gainCode := .a128 }
      pos := { s.pos with op := some .begin, phase := .sgLow } }) ∧
    (s.regs.lifecycle = .configured →
      (∀ g : Word, exec (.setGain g) s = .next { s with
        busy := true
        regs := { s.regs with
          argA := g, argB := s.portB
          gainCode := if g = 128 then .a128 else if g = 64 then .a64 else if g = 32 then .b32 else s.regs.gainCode }
        pos := { s.pos with op := some .setGain, phase := .sgLow } }) ∧
      (∀ n : Word, 1 ≤ n.toInt → exec (.readAverage n) s = .next { s with
        busy := true, regs := { s.regs with argA := n, argB := s.portB, sum := 0, count := 0 }
        pos := { s.pos with op := some .readAverage, phase := .chk } }) ∧
      (∀ n : Word, 1 ≤ n.toInt → exec (.getUnits n) s = .next { s with
        busy := true, regs := { s.regs with argA := n, argB := s.portB, sum := 0, count := 0 }
        pos := { s.pos with op := some .getUnits, phase := .chk } }) ∧
      exec .tare s = .next { s with
        busy := true, regs := { s.regs with argA := s.portA, argB := s.portB, sum := 0, count := 0 }
        pos := { s.pos with op := some .tare, phase := .chk } } ∧
      (∀ w : Word, exec (.setScale w) s = .next { s with
        busy := true, regs := { s.regs with argA := w, argB := s.portB, sum := 0, count := 0 }
        pos := { s.pos with op := some .setScale, phase := .chk } }))

/-- R199: SET_OFFSET overwrites OFFSET unconditionally and responds at once; no call, no event, any value. A field the
operation does not use is latched from the word at the port (log entry 4: 0 where none stands there). -/
def Obligations.SetOffsetCompletes : Prop :=
  ∀ (s : State) (v : Word), s.standsReady →
    exec (.setOffset v) s = .next { s with
      regs := { s.regs with argA := v, argB := s.portB, offset := .rat v.toInt }
      responses := s.responses ++ [.none]
      pos := { s.pos with op := none, phase := .idle } }

/-! ## The sequencer, phase by phase. In each, all of the state that is not named is unchanged -/

/-- R218, SG_LOW: event W(CLOCK_PIN,0), SCK_LEVEL 0, then CHK. -/
def Obligations.SequencerClockLowWrite : Prop :=
  ∀ s : State, s.pos.phase = .sgLow → ∃ e : Env,
    step s = .next { s.called (.write s.regs.clockPin false) e with
      sckLevel := .low, pins := s.pins.write s.regs.clockPin.toNat false
      pos := { s.pos with phase := .chk } }

/-- R219, CHK: event R(DATA_PIN)=b, and the four cases, for the operations that visit the phase. -/
def Obligations.SequencerReadinessCheck : Prop :=
  ∀ (s : State) (op : Op), s.pos.phase = .chk → s.pos.op = some op → op.visits .chk = true → ∃ (b : Bool) (e : Env),
    (op = .isReady → step s = .next ((s.called (.read s.regs.dataPin b) e).respond (.bool (b = false)))) ∧
    (b = false → op = .waitReady → step s = .next ((s.called (.read s.regs.dataPin b) e).respond .none)) ∧
    (b = false → op = .waitReadyRetry ∨ op = .waitReadyTimeout →
      step s = .next ((s.called (.read s.regs.dataPin b) e).respond (.bool true))) ∧
    (b = false → op.kind = .frame → step s = .next { s.called (.read s.regs.dataPin b) e with
      regs := { s.regs with sr := 0 }
      pos := { s.pos with phase := .dHiW, byteIx := 2, bitIx := 0, order := .msb } }) ∧
    (b = true → op ≠ .isReady → step s = .next { s.called (.read s.regs.dataPin b) e with
      pos := { s.pos with phase := .pau } })

/-- R220, PAU: event P(p), the attempt counted, and where each operation goes. -/
def Obligations.SequencerPause : Prop :=
  ∀ s : State, s.pos.phase = .pau → ∃ e : Env,
    (s.pos.op = some .waitReady → step s = .next { s.called (.pause s.regs.argA.toNat) e with
      pos := { s.pos with phase := .chk } }) ∧
    (∀ op, s.pos.op = some op → op.kind = .frame → step s = .next { s.called (.pause Config.readRawPollMs) e with
      pos := { s.pos with phase := .chk } }) ∧
    (s.pos.op = some .waitReadyTimeout → step s = .next { s.called (.pause s.regs.argB.toNat) e with
      pos := { s.pos with phase := .tq } }) ∧
    (s.pos.op = some .waitReadyRetry → (s.regs.attempt : Int) + 1 < s.regs.argA.toInt →
      step s = .next { s.called (.pause s.regs.argB.toNat) e with
        regs := { s.regs with attempt := s.regs.attempt + 1 }
        pos := { s.pos with phase := .chk } }) ∧
    (s.pos.op = some .waitReadyRetry → s.regs.argA.toInt ≤ (s.regs.attempt : Int) + 1 →
      step s = .next (State.respond (.bool false) { s.called (.pause s.regs.argB.toNat) e with
        regs := { s.regs with attempt := s.regs.attempt + 1 } }))

/-- R221, TQ0: event T()=t, T0 is t, then TQ; and the clock's answer is not below the one before (R257). -/
def Obligations.SequencerTimeoutEntry : Prop :=
  ∀ s : State, s.pos.phase = .tq0 → ∃ (t : Nat) (e : Env), s.env.lastMs ≤ t ∧ e.lastMs = t ∧
    step s = .next { s.called (.now t) e with
      regs := { s.regs with t0 := t }, pos := { s.pos with phase := .tq } }

/-- R222, TQ: event T()=t, then CHK while the time elapsed since T0 is below the timeout, else the response false. -/
def Obligations.SequencerTimeoutRound : Prop :=
  ∀ s : State, s.pos.phase = .tq → s.regs.t0 ≤ s.env.lastMs → ∃ (t : Nat) (e : Env),
    s.regs.t0 ≤ t ∧ e.lastMs = t ∧
    (t < s.regs.t0 + s.regs.argA.toNat →
      step s = .next { s.called (.now t) e with pos := { s.pos with phase := .chk } }) ∧
    (s.regs.t0 + s.regs.argA.toNat ≤ t → step s = .next ((s.called (.now t) e).respond (.bool false)))

/-- R223, D_HI_W and D_HI_D: the clock driven high, then the high hold. -/
def Obligations.SequencerDataPulseHigh : Prop :=
  ∀ s : State, ∃ e : Env,
    (s.pos.phase = .dHiW → step s = .next { s.called (.write s.regs.clockPin true) e with
      sckLevel := .high, pins := s.pins.write s.regs.clockPin.toNat true
      pos := { s.pos with phase := .dHiD } }) ∧
    (s.pos.phase = .dHiD → step s = .next { s.called (.delay Config.tHiMin) e with
      pos := { s.pos with phase := .dSmp } })

/-- R224, D_SMP: event R(DATA_PIN)=s, and the sample in bit `7 - BIT_IX` of SR, or in bit `BIT_IX`; the other bits
stay. -/
def Obligations.SequencerDataSample : Prop :=
  ∀ s : State, s.pos.phase = .dSmp → ∃ (b : Bool) (e : Env) (sr : Byte),
    step s = .next { s.called (.read s.regs.dataPin b) e with
      regs := { s.regs with sr := sr }, pos := { s.pos with phase := .dLoW } } ∧
    ∀ j : Nat, j < 8 → sr.getLsbD j =
      if j = (if s.pos.order = .msb then 7 - s.pos.bitIx.val else s.pos.bitIx.val) then b else s.regs.sr.getLsbD j

/-- R225, D_LO_W: the clock driven low. -/
def Obligations.SequencerDataPulseLow : Prop :=
  ∀ s : State, s.pos.phase = .dLoW → ∃ e : Env,
    step s = .next { s.called (.write s.regs.clockPin false) e with
      sckLevel := .low, pins := s.pins.write s.regs.clockPin.toNat false
      pos := { s.pos with phase := .dLoD } }

/-- R226, D_LO_D: event D(T_LO_MIN); the next bit, SHIFT_BYTE's response, or the byte stored and the next byte or the
gain pulses. -/
def Obligations.SequencerDataLowHold : Prop :=
  ∀ s : State, s.pos.phase = .dLoD → ∃ e : Env,
    (s.pos.bitIx.val < 7 → step s = .next { s.called (.delay Config.tLoMin) e with
      pos := { s.pos with phase := .dHiW, bitIx := s.pos.bitIx + 1 } }) ∧
    (s.pos.bitIx.val = 7 → s.pos.op = some .shiftByte →
      step s = .next ((s.called (.delay Config.tLoMin) e).respond (.int s.regs.sr.toNat))) ∧
    (∀ op, s.pos.bitIx.val = 7 → s.pos.op = some op → op.kind = .frame →
      (s.pos.byteIx = 2 → step s = .next { s.called (.delay Config.tLoMin) e with
        regs := { s.regs with byte2 := s.regs.sr, sr := 0 }
        pos := { s.pos with phase := .dHiW, byteIx := 1, bitIx := 0 } }) ∧
      (s.pos.byteIx = 1 → step s = .next { s.called (.delay Config.tLoMin) e with
        regs := { s.regs with byte1 := s.regs.sr, sr := 0 }
        pos := { s.pos with phase := .dHiW, byteIx := 0, bitIx := 0 } }) ∧
      (s.pos.byteIx = 0 → step s = .next { s.called (.delay Config.tLoMin) e with
        regs := { s.regs with byte0 := s.regs.sr }
        pos := { s.pos with phase := .gHiW, pulseIx := 0 } }))

/-- R227, G_HI_W, G_HI_D and G_LO_W: a gain pulse's edges and its high hold; no sample is taken. -/
def Obligations.SequencerGainPulse : Prop :=
  ∀ s : State, ∃ e : Env,
    (s.pos.phase = .gHiW → step s = .next { s.called (.write s.regs.clockPin true) e with
      sckLevel := .high, pins := s.pins.write s.regs.clockPin.toNat true
      pos := { s.pos with phase := .gHiD } }) ∧
    (s.pos.phase = .gHiD → step s = .next { s.called (.delay Config.tHiMin) e with
      pos := { s.pos with phase := .gLoW } }) ∧
    (s.pos.phase = .gLoW → step s = .next { s.called (.write s.regs.clockPin false) e with
      sckLevel := .low, pins := s.pins.write s.regs.clockPin.toNat false
      pos := { s.pos with phase := .gLoD } })

/-- R228 and R229, G_LO_D: event D(T_LO_MIN), the pulse counted; CLOCK_PULSE responds; a frame goes on until GAIN_CODE
pulses have been issued, then it is assembled and ends by OP. -/
def Obligations.SequencerGainLowHold : Prop :=
  ∀ s : State, s.pos.phase = .gLoD → ∃ (e : Env) (fill : Byte) (result : Word),
    fill = (if s.regs.byte2.getLsbD 7 then 0xFF else 0x00) ∧
    result = (fill ++ s.regs.byte2 ++ s.regs.byte1 ++ s.regs.byte0 : BitVec 32) ∧
    (s.pos.op = some .clockPulse → step s = .next (State.respond .none { s.called (.delay Config.tLoMin) e with
      pos := { s.pos with pulseIx := s.pos.pulseIx + 1 } })) ∧
    (∀ op, s.pos.op = some op → op.kind = .frame → s.pos.pulseIx + 1 < s.regs.gainCode.code.toNat →
      step s = .next { s.called (.delay Config.tLoMin) e with
        pos := { s.pos with phase := .gHiW, pulseIx := s.pos.pulseIx + 1 } }) ∧
    (s.pos.pulseIx + 1 = s.regs.gainCode.code.toNat →
      (s.pos.op = some .readRaw → step s = .next (State.respond (.int result.toInt)
        { s.called (.delay Config.tLoMin) e with
          regs := { s.regs with fill := fill, result := result }
          pos := { s.pos with pulseIx := s.pos.pulseIx + 1 } })) ∧
      (s.pos.op = some .setGain ∨ s.pos.op = some .begin → step s = .next (State.respond .none
        { s.called (.delay Config.tLoMin) e with
          regs := { s.regs with fill := fill, result := result }
          pos := { s.pos with pulseIx := s.pos.pulseIx + 1 } })) ∧
      (∀ op, s.pos.op = some op → op.takesMean = true → step s = .next { s.called (.delay Config.tLoMin) e with
        regs := { s.regs with fill := fill, result := result, sum := s.regs.sum + result.toInt }
        pos := { s.pos with phase := .avgY, pulseIx := s.pos.pulseIx + 1 } }))

/-- R230, AVG_Y: event P(0), the frame counted; the next frame, or the mean and what each operation makes of it. -/
def Obligations.SequencerYield : Prop :=
  ∀ (s : State) (op : Op) (n : Int), s.pos.phase = .avgY → s.pos.op = some op → op.takesMean = true →
    n = (if op = .tare ∨ op = .setScale then 10 else s.regs.argA.toInt) → ∃ (e : Env) (t : State) (m d : Sys2Proof.Num),
    t = { s.called (.pause 0) e with regs := { s.regs with count := s.regs.count + 1 } } ∧
    m = numDiv s.env.exactNum (.rat s.regs.sum) (.rat n) ∧ d = numSub s.env.exactNum m s.regs.offset ∧
    ((s.regs.count : Int) + 1 < n → step s = .next { t with pos := { s.pos with phase := .chk } }) ∧
    (n ≤ (s.regs.count : Int) + 1 →
      (op = .readAverage → step s = .next (t.respond (.num m))) ∧
      (op = .getUnits → step s = .next (t.respond (.num (numDiv s.env.exactNum d s.regs.scale)))) ∧
      (op = .tare → step s = .next (State.respond .none { t with regs := { t.regs with offset := m } })) ∧
      (op = .setScale → step s = .next (State.respond .none
        { t with regs := { t.regs with scale := numDiv s.env.exactNum d (.rat s.regs.argA.toInt) } })))

/-! ## Rules over the whole machine -/

/-- Only BEGIN writes LIFECYCLE, CLOCK_PIN and DATA_PIN (R21, R22, R188). -/
def Obligations.OnlyBeginBindsAndConfigures : Prop :=
  ∀ s t : State, step s = .next t →
    (t.regs.lifecycle = s.regs.lifecycle ∧ t.regs.clockPin = s.regs.clockPin ∧ t.regs.dataPin = s.regs.dataPin) ∨
    ∃ (w : CommandWord) (c d : PinId), s.pos.phase = .idle ∧ s.cmds.head? = some w ∧ decode w = .begin c d ∧
      t.regs.lifecycle = .configured ∧ t.regs.clockPin = c ∧ t.regs.dataPin = d

/-- Only SET_GAIN, and BEGIN through it, write GAIN_CODE (R23, R188): a frame does not change it. -/
def Obligations.OnlyGainOperationsWriteGainCode : Prop :=
  ∀ s t : State, step s = .next t → t.regs.gainCode ≠ s.regs.gainCode →
    ∃ w, s.pos.phase = .idle ∧ s.cmds.head? = some w ∧
      ((∃ c d, decode w = .begin c d) ∨ ∃ g, decode w = .setGain g)

/-- OFFSET is written by SET_OFFSET and TARE only, SCALE by SET_SCALE only (R32). -/
def Obligations.CalibrationWriters : Prop :=
  ∀ s t : State, step s = .next t →
    (t.regs.offset ≠ s.regs.offset → (s.pos.phase = .avgY ∧ s.pos.op = some .tare) ∨
      ∃ w v, s.pos.phase = .idle ∧ s.cmds.head? = some w ∧ decode w = .setOffset v) ∧
    (t.regs.scale ≠ s.regs.scale → s.pos.phase = .avgY ∧ s.pos.op = some .setScale)

/-- The block drives no pin but the clock pin, and that one only in the phases that write it (R33, R182 (b)): every
other pin keeps its level. -/
def Obligations.StepWritesNoPinButTheClockPin : Prop :=
  ∀ s t : State, step s = .next t → ∀ pin : Nat,
    pin ≠ s.regs.clockPin.toNat ∨ s.pos.phase ∉ [.sgLow, .dHiW, .dLoW, .gHiW, .gLoW] →
    t.pins.read pin = s.pins.read pin

/-- R231: from acceptance to response the sequencer makes the events of the operation's big-step rule, one a step, and
response, registers and everything but the sequencer position agree. -/
def Obligations.SequencerAgreesWithBigStep : Prop :=
  ∀ (i : Instr) (fuel : Nat) (s t : State), s.busy = false → s.pos.op = none → s.pos.phase = .idle →
    bigStep i fuel s = some t → ∃ a u : State,
      exec i s = .next a ∧ run (t.trace.length - s.trace.length) a = .next u ∧
      t.sameButPosition u ∧ u.pos.op = none ∧ u.pos.phase = .idle

/-- The other direction of R231: where the sequencer comes back to IDLE, the big-step rule ends in the same state. -/
def Obligations.BigStepAgreesWithSequencer : Prop :=
  ∀ (i : Instr) (k : Nat) (s a u : State), s.busy = false → s.pos.op = none → s.pos.phase = .idle →
    exec i s = .next a → run k a = .next u → u.pos.phase = .idle →
    (∀ j < k, ∀ v, run j a = .next v → v.pos.phase ≠ .idle) →
    ∃ (fuel : Nat) (t : State), bigStep i fuel s = some t ∧ t.sameButPosition u ∧
      k = t.trace.length - s.trace.length

/-- R242, NeverReady: while the data line reads high the operations that wait without bound stay between CHK and PAU,
with no response, BUSY = 1 and no pulse; BEGIN from either LIFECYCLE, the first one too (R182 (a)). -/
def Obligations.NeverReadyHangs : Prop :=
  ∀ (s : State) (n : Nat) (rest : List Bool), s.busy = false → s.answers (neverReady n) rest →
    (s.regs.lifecycle = .configured →
      (∀ (i : Instr) (poll : Nat),
        (i = .readRaw ∧ poll = 0) ∨ (∃ p, i = .waitReady p ∧ poll = p.toNat) ∨
        (∃ m, (i = .readAverage m ∨ i = .getUnits m) ∧ 1 ≤ m.toInt ∧ poll = 0) ∨ (i = .tare ∧ poll = 0) ∨
        (∃ w, i = .setScale w ∧ poll = 0) →
        ∃ a t, exec i s = .next a ∧ run (2 * n) a = .next t ∧ t.busy = true ∧ t.pos.phase = .chk ∧
          t.responses = s.responses ∧ t.trace = s.trace ++ failedChecks s.regs.dataPin poll n ∧ t.regs = a.regs) ∧
      (∀ g : Word, ∃ a t, exec (.setGain g) s = .next a ∧ run (1 + 2 * n) a = .next t ∧ t.busy = true ∧
        t.pos.phase = .chk ∧ t.responses = s.responses ∧
        t.trace = s.trace ++ .write s.regs.clockPin false :: failedChecks s.regs.dataPin 0 n ∧ t.regs = a.regs)) ∧
    (∀ c d : PinId, ∃ a t, exec (.begin c d) s = .next a ∧ run (1 + 2 * n) a = .next t ∧ t.busy = true ∧
      t.pos.phase = .chk ∧ t.responses = s.responses ∧
      t.trace = s.trace ++ .write c false :: failedChecks d 0 n ∧ t.regs = a.regs)

/-- R232: a frame operation reaches the end of the frame after exactly `5*24 + 4*GAIN_CODE` steps, whatever the oracle
answers, and until then makes data and gain pulses only. -/
def Obligations.FrameLengthIsFixed : Prop :=
  ∀ (s : State) (op : Op), s.pos.phase = .dHiW → s.pos.byteIx = 2 → s.pos.bitIx = 0 → s.pos.op = some op →
    op.kind = .frame →
    (∃ t, run (5 * 24 + 4 * s.regs.gainCode.code.toNat) s = .next t ∧
      (t.pos.phase = if op.takesMean then .avgY else .idle)) ∧
    ∀ k < 5 * 24 + 4 * s.regs.gainCode.code.toNat, ∃ u, run k s = .next u ∧
      (u.pos.phase.isData = true ∨ u.pos.phase.isGain = true)

/-- No value depends on time, with no converter on the lines: states that differ only in the durations to come run
alike (R15, R300). With no converter attached the data line's answers do not depend on time: the model's choice, log
entry 6. -/
def Obligations.DurationsChangeNoValue : Prop :=
  ∀ (k : Nat) (s s' t : State), s.env.conv = none → s.sameButTime s' → run k s = .next t →
    ∃ t', run k s' = .next t' ∧ t.sameButTime t'

/-! ## The operations, from acceptance to response -/

/-- R110: IS_READY makes one read and answers whether it was low; it writes no register but the operand latch and
leaves the lines alone. A field the operation does not use is latched from the word at the port (log entry 4: 0 where
none stands there). -/
def Obligations.IsReadyCompletes : Prop :=
  ∀ s : State, s.standsReady → ∃ (a t : State) (b : Bool),
    exec .isReady s = .next a ∧ run 1 a = .next t ∧
    s.EndsWith t (.bool (b = false)) [.read s.regs.dataPin b] ∧
    t.regs = { s.regs with argA := s.portA, argB := s.portB } ∧ t.sckLevel = s.sckLevel ∧ t.pins = s.pins ∧
    ∀ b' rest, s.answers [b'] rest → b = b' ∧ s.env.Drew t.env rest

/-- WAIT_READY ends at the first check that reads low, each failed check followed by one pause (R160, R161). A field
the operation does not use is latched from the word at the port (log entry 4: 0 where none stands there). -/
def Obligations.WaitReadyCompletes : Prop :=
  ∀ (s : State) (p : Word) (k : Nat) (rest : List Bool), s.standsReady →
    s.answers (List.replicate k true ++ [false]) rest → ∃ a t : State,
    exec (.waitReady p) s = .next a ∧ run (2 * k + 1) a = .next t ∧
    s.EndsWith t .none (waitEvents s.regs.dataPin p.toNat k) ∧
    t.regs = { s.regs with argA := p, argB := s.portB } ∧ t.sckLevel = s.sckLevel ∧ t.pins = s.pins ∧
    s.env.Drew t.env rest

/-- WAIT_READY_RETRY makes `min(k, max(attempts, 0))` checks and answers whether one of them read low (R163, R164),
the last failed check followed by a pause too (R165). -/
def Obligations.WaitReadyRetryCompletes : Prop :=
  ∀ (s : State) (n p : Word) (k : Nat) (rest : List Bool), s.standsReady →
    ((k : Int) < n.toInt → s.answers (List.replicate k true ++ [false]) rest → ∃ a t : State,
      exec (.waitReadyRetry n p) s = .next a ∧ run (2 * k + 1) a = .next t ∧
      s.EndsWith t (.bool true) (waitEvents s.regs.dataPin p.toNat k) ∧
      t.regs = { s.regs with argA := n, argB := p, attempt := k } ∧ t.sckLevel = s.sckLevel ∧ t.pins = s.pins ∧
      s.env.Drew t.env rest) ∧
    ((k : Int) = max n.toInt 0 → s.answers (List.replicate k true) rest → ∃ a t : State,
      exec (.waitReadyRetry n p) s = .next a ∧ run (2 * k) a = .next t ∧
      s.EndsWith t (.bool false) (failedChecks s.regs.dataPin p.toNat k) ∧
      t.regs = { s.regs with argA := n, argB := p, attempt := k } ∧ t.sckLevel = s.sckLevel ∧ t.pins = s.pins ∧
      s.env.Drew t.env rest)

/-- WAIT_READY_TIMEOUT (R167, R168): after failed rounds, each begun before the deadline, it answers false once the
elapsed time is at least the timeout, and true when a check made before that reads low. -/
def Obligations.WaitReadyTimeoutCompletes : Prop :=
  ∀ (s : State) (m p : Word) (entry last : Nat) (advances more : List Nat) (rest : List Bool), s.standsReady →
    s.env.clock.script = entry :: advances ++ last :: more →
    (∀ j, 0 < j → j ≤ advances.length → (advances.take j).sum < m.toNat) →
    (m.toNat ≤ advances.sum + last → s.answers (List.replicate advances.length true) rest → ∃ a t : State,
      exec (.waitReadyTimeout m p) s = .next a ∧ run (3 * advances.length + 2) a = .next t ∧
      s.EndsWith t (.bool false) (.now (s.env.lastMs + entry) ::
        timeoutRounds s.regs.dataPin p.toNat (s.env.lastMs + entry) advances ++
        [.now (s.env.lastMs + entry + advances.sum + last)]) ∧
      t.regs = { s.regs with argA := m, argB := p, t0 := s.env.lastMs + entry } ∧
      t.sckLevel = s.sckLevel ∧ t.pins = s.pins ∧ t.env.levels.script = rest ∧ t.env.clock.script = more) ∧
    (advances.sum + last < m.toNat → s.answers (List.replicate advances.length true ++ [false]) rest → ∃ a t : State,
      exec (.waitReadyTimeout m p) s = .next a ∧ run (3 * advances.length + 3) a = .next t ∧
      s.EndsWith t (.bool true) (.now (s.env.lastMs + entry) ::
        timeoutRounds s.regs.dataPin p.toNat (s.env.lastMs + entry) advances ++
        [.now (s.env.lastMs + entry + advances.sum + last), .read s.regs.dataPin false]) ∧
      t.regs = { s.regs with argA := m, argB := p, t0 := s.env.lastMs + entry } ∧
      t.sckLevel = s.sckLevel ∧ t.pins = s.pins ∧ t.env.levels.script = rest ∧ t.env.clock.script = more)

/-- SHIFT_BYTE (R120, R121, R122): eight data pulses, and the value of the eight samples in the order asked for, which
is also what SR holds. A field the operation does not use is latched from the word at the port (log entry 4: 0 where
none stands there). -/
def Obligations.ShiftByteCompletes : Prop :=
  ∀ (s : State) (o : BitOrder), s.standsReady → ∃ (a t : State) (samples : List Bool),
    samples.length = 8 ∧ exec (.shiftByte o) s = .next a ∧ run 40 a = .next t ∧
    s.EndsWith t (.int (groupValue o samples)) (samples.flatMap (pulseEvents s.regs.clockPin s.regs.dataPin)) ∧
    t.regs = { s.regs with argA := orderOperand o s.portA, argB := s.portB, sr := BitVec.ofNat 8 (groupValue o samples) } ∧
    t.sckLevel = .low ∧ t.pins = s.pins.write s.regs.clockPin.toNat false ∧
    ∀ ls rest, ls.length = 8 → s.answers ls rest → samples = ls ∧ s.env.Drew t.env rest

/-- CLOCK_PULSE (R125, R126): one pulse, no sample. A field the operation does not use is latched from the word at the
port (log entry 4: 0 where none stands there). -/
def Obligations.ClockPulseCompletes : Prop :=
  ∀ s : State, s.standsReady → ∃ a t : State,
    exec .clockPulse s = .next a ∧ run 4 a = .next t ∧
    s.EndsWith t .none (gainEvents s.regs.clockPin) ∧
    t.regs = { s.regs with argA := s.portA, argB := s.portB } ∧
    t.sckLevel = .low ∧ t.pins = s.pins.write s.regs.clockPin.toNat false ∧
    t.env.levels = s.env.levels ∧ t.env.clock = s.env.clock

/-- READ_RAW (R140 to R149): it waits, shifts 24 bits, issues GAIN_CODE gain pulses, and returns the value whose bits
the samples were; the trace is R149's and the registers are those of R142 to R145. A field the operation does not use
is latched from the word at the port (log entry 4: 0 where none stands there). -/
def Obligations.ReadRawReturnsTheValueShifted : Prop :=
  ∀ (s : State) (f : FrameToCome) (rest : List Bool), s.standsReady → s.answers f.levels rest → ∃ a t : State,
    exec .readRaw s = .next a ∧
    run (2 * f.failed + 1 + 5 * 24 + 4 * s.regs.gainCode.code.toNat) a = .next t ∧
    s.EndsWith t (.int f.value.toInt)
      (readRawEvents s.regs.clockPin s.regs.dataPin f.failed (bits f.value) s.regs.gainCode) ∧
    t.regs = ({ s.regs with argA := s.portA, argB := s.portB } : Regs).afterFrame f.value ∧
    t.sckLevel = .low ∧ t.pins = s.pins.write s.regs.clockPin.toNat false ∧ s.env.Drew t.env rest

/-- SET_GAIN (R183 to R186): the gain written if it is recognised, the clock-low write and one whole frame with the
new number of gain pulses in every case, its value dropped. A field the operation does not use is latched from the
word at the port (log entry 4: 0 where none stands there). -/
def Obligations.SetGainCompletes : Prop :=
  ∀ (s : State) (gain : Word) (f : FrameToCome) (rest : List Bool) (code : GainCode), s.standsReady →
    code = (if gain = 128 then .a128 else if gain = 64 then .a64 else if gain = 32 then .b32 else s.regs.gainCode) →
    s.answers f.levels rest → ∃ a t : State,
    exec (.setGain gain) s = .next a ∧ run (1 + (2 * f.failed + 1 + 5 * 24 + 4 * code.code.toNat)) a = .next t ∧
    s.EndsWith t .none
      (.write s.regs.clockPin false ::
        readRawEvents s.regs.clockPin s.regs.dataPin f.failed (bits f.value) code) ∧
    t.regs = ({ s.regs with argA := gain, argB := s.portB, gainCode := code } : Regs).afterFrame f.value ∧
    t.sckLevel = .low ∧ t.pins = s.pins.write s.regs.clockPin.toNat false ∧ s.env.Drew t.env rest

/-- BEGIN (R180, R182): from either LIFECYCLE, the pins bound, Configured, GAIN_CODE 1, the clock-low write and one
frame of 25 pulses on the new pins; OFFSET and SCALE kept. -/
def Obligations.BeginCompletes : Prop :=
  ∀ (s : State) (c d : PinId) (f : FrameToCome) (rest : List Bool), s.busy = false → s.answers f.levels rest →
    ∃ a t : State,
    exec (.begin c d) s = .next a ∧ run (1 + (2 * f.failed + 1 + 5 * 24 + 4)) a = .next t ∧
    s.EndsWith t .none (.write c false :: readRawEvents c d f.failed (bits f.value) .a128) ∧
    t.regs = ({ s.regs with
      argA := c, argB := d, clockPin := c, dataPin := d, lifecycle := .configured, gainCode := .a128 } :
        Regs).afterFrame f.value ∧
    t.sckLevel = .low ∧ t.pins = s.pins.write c.toNat false ∧ s.env.Drew t.env rest

/-- READ_AVERAGE (R196, R198): `n` frames, a yield after each, and their mean in NUM. A field the operation does not
use is latched from the word at the port (log entry 4: 0 where none stands there). -/
def Obligations.ReadAverageCompletes : Prop :=
  ∀ (s : State) (n : Word) (before : List FrameToCome) (f : FrameToCome) (rest : List Bool), s.standsReady →
    n.toInt = (before.length : Int) + 1 → s.answers ((before ++ [f]).flatMap FrameToCome.levels) rest →
    ∃ a t : State,
    exec (.readAverage n) s = .next a ∧
    run (meanEvents s.regs.clockPin s.regs.dataPin s.regs.gainCode (before ++ [f])).length a = .next t ∧
    s.EndsWith t (.num (numDiv s.env.exactNum (.rat (frameSum (before ++ [f]))) (.rat n.toInt)))
      (meanEvents s.regs.clockPin s.regs.dataPin s.regs.gainCode (before ++ [f])) ∧
    t.regs = ({ s.regs with
      argA := n, argB := s.portB, sum := frameSum (before ++ [f]), count := before.length + 1 } : Regs).afterFrame f.value ∧
    t.sckLevel = .low ∧ t.pins = s.pins.write s.regs.clockPin.toNat false ∧ s.env.Drew t.env rest

/-- GET_UNITS (R203, R204): the mean less OFFSET, divided by SCALE, in NUM; no check of SCALE; with the reset values
OFFSET 0 and SCALE 1 the plain mean. That NUM has one zero is the model's choice: log entry 11. A field the operation
does not use is latched from the word at the port (log entry 4: 0 where none stands there). -/
def Obligations.GetUnitsCompletes : Prop :=
  ∀ (s : State) (n : Word) (before : List FrameToCome) (f : FrameToCome) (rest : List Bool), s.standsReady →
    n.toInt = (before.length : Int) + 1 → s.answers ((before ++ [f]).flatMap FrameToCome.levels) rest →
    ∃ a t : State,
    exec (.getUnits n) s = .next a ∧
    run (meanEvents s.regs.clockPin s.regs.dataPin s.regs.gainCode (before ++ [f])).length a = .next t ∧
    s.EndsWith t
      (.num (numDiv s.env.exactNum
        (numSub s.env.exactNum (numDiv s.env.exactNum (.rat (frameSum (before ++ [f]))) (.rat n.toInt)) s.regs.offset)
        s.regs.scale))
      (meanEvents s.regs.clockPin s.regs.dataPin s.regs.gainCode (before ++ [f])) ∧
    t.regs = ({ s.regs with
      argA := n, argB := s.portB, sum := frameSum (before ++ [f]), count := before.length + 1 } : Regs).afterFrame f.value ∧
    t.sckLevel = .low ∧ t.pins = s.pins.write s.regs.clockPin.toNat false ∧ s.env.Drew t.env rest ∧
    (s.regs.offset = .rat 0 → s.regs.scale = .rat 1 →
      t.responses = s.responses ++
        [.num (numDiv s.env.exactNum (.rat (frameSum (before ++ [f]))) (.rat n.toInt))])

/-- TARE (R200): OFFSET becomes the mean of ten frames, unrounded by the block. A field the operation does not use is
latched from the word at the port (log entry 4: 0 where none stands there). -/
def Obligations.TareCompletes : Prop :=
  ∀ (s : State) (before : List FrameToCome) (f : FrameToCome) (rest : List Bool), s.standsReady →
    before.length = 9 → s.answers ((before ++ [f]).flatMap FrameToCome.levels) rest →
    ∃ a t : State,
    exec .tare s = .next a ∧
    run (meanEvents s.regs.clockPin s.regs.dataPin s.regs.gainCode (before ++ [f])).length a = .next t ∧
    s.EndsWith t .none (meanEvents s.regs.clockPin s.regs.dataPin s.regs.gainCode (before ++ [f])) ∧
    t.regs = ({ s.regs with
      argA := s.portA, argB := s.portB, sum := frameSum (before ++ [f]), count := 10
      offset := numDiv s.env.exactNum (.rat (frameSum (before ++ [f]))) (.rat 10) } : Regs).afterFrame f.value ∧
    t.sckLevel = .low ∧ t.pins = s.pins.write s.regs.clockPin.toNat false ∧ s.env.Drew t.env rest

/-- SET_SCALE (R201, R202): SCALE becomes the mean of ten frames less OFFSET, divided by the reference weight; no
check of the weight. That NUM has one zero is the model's choice: log entry 11. A field the operation does not use is
latched from the word at the port (log entry 4: 0 where none stands there). -/
def Obligations.SetScaleCompletes : Prop :=
  ∀ (s : State) (w : Word) (before : List FrameToCome) (f : FrameToCome) (rest : List Bool), s.standsReady →
    before.length = 9 → s.answers ((before ++ [f]).flatMap FrameToCome.levels) rest →
    ∃ a t : State,
    exec (.setScale w) s = .next a ∧
    run (meanEvents s.regs.clockPin s.regs.dataPin s.regs.gainCode (before ++ [f])).length a = .next t ∧
    s.EndsWith t .none (meanEvents s.regs.clockPin s.regs.dataPin s.regs.gainCode (before ++ [f])) ∧
    t.regs = ({ s.regs with
      argA := w, argB := s.portB, sum := frameSum (before ++ [f]), count := 10
      scale := numDiv s.env.exactNum
        (numSub s.env.exactNum (numDiv s.env.exactNum (.rat (frameSum (before ++ [f]))) (.rat 10)) s.regs.offset)
        (.rat w.toInt) } : Regs).afterFrame f.value ∧
    t.sckLevel = .low ∧ t.pins = s.pins.write s.regs.clockPin.toNat false ∧ s.env.Drew t.env rest

/-! ## Values -/

/-- R147: the value assembled through the fill byte is the 24-bit two's-complement value of the three bytes. -/
def Obligations.AssemblyIsSignExtension : Prop :=
  ∀ byte2 byte1 byte0 : Byte,
    (assemble (fillOf byte2) byte2 byte1 byte0).toInt = (byte2 ++ byte1 ++ byte0 : BitVec 24).toInt

/-- R206 (a): constant readings give READ_AVERAGE that constant, for every count of at least 1. That NUM holds the
integers of magnitude below 2^53 exactly is the model's choice: log entry 11. -/
def Obligations.MeanOfConstantReadings : Prop :=
  (∀ (exact : Bool) (n : Nat) (v : BitVec 24), 1 ≤ n →
    numDiv exact (.rat (frameSum (List.replicate n ⟨0, v⟩))) (.rat (n : Int)) = .rat v.toInt) ∧
  ∀ (s : State) (n : Word) (v : BitVec 24) (rest : List Bool), s.standsReady → 1 ≤ n.toInt →
    s.answers (constantReading v n.toNat) rest → ∃ (k : Nat) (a t : State),
      exec (.readAverage n) s = .next a ∧ run k a = .next t ∧
      t.responses = s.responses ++ [.num (.rat v.toInt)]

/-- R206 (b): TARE and then GET_UNITS(1) on an unchanged reading give 0, for a SCALE that is a number other than 0.
That NUM holds the integers of magnitude below 2^53 exactly, and has one zero, is the model's choice: log entry 11. -/
def Obligations.TareThenUnitsGivesZero : Prop :=
  ∀ (s : State) (v : BitVec 24) (q : Rat) (rest : List Bool), s.standsReady → s.regs.scale = .rat q → q ≠ 0 →
    s.answers (constantReading v 11) rest →
    ∃ (j k : Nat) (a t b u : State), exec .tare s = .next a ∧ run j a = .next t ∧ t.regs.offset = .rat v.toInt ∧
      exec (.getUnits 1) t = .next b ∧ run k b = .next u ∧
      u.responses = s.responses ++ [.none, .num (.rat 0)]

/-- R206 (c), in exact arithmetic: SET_SCALE(w) and then GET_UNITS(1) on the same reading give `w`, for `w` other than 0
and a reading other than OFFSET. -/
def Obligations.SetScaleThenUnitsGivesTheWeight : Prop :=
  ∀ (s : State) (v : BitVec 24) (o : Rat) (w : Word) (rest : List Bool), s.standsReady →
    s.env.exactNum = true → s.regs.offset = .rat o → o ≠ v.toInt → w ≠ 0 →
    s.answers (constantReading v 11) rest →
    ∃ (j k : Nat) (a t b u : State), exec (.setScale w) s = .next a ∧ run j a = .next t ∧
      exec (.getUnits 1) t = .next b ∧ run k b = .next u ∧
      u.responses = s.responses ++ [.none, .num (.rat w.toInt)]

/-! ## The attached converter (R263 to R267 as the model keeps them: log entry 9) -/

/-- READ_RAW from an attached converter, from a check that reads low (R244, R264, R267, R291, R292): whatever the
converter was doing, after a high interval longer than T_PD every later sample of the 24 is 1; and the block returns
the value of whatever it sampled. From a converter that has latched `v`, whose checks read low, the samples are the
bits of `v` as long as no interval up to theirs was longer than T_PD_SAFE, and there is a pulse before which they are
its bits and after which they are 1: none of the intervals before it was longer than T_PD, its own was longer than
T_PD_SAFE. The converter is log entry 9, T_PD_SAFE log entry 10. -/
def Obligations.AttachedConverterFrame : Prop :=
  ∀ (s : State) (conv : Converter), s.standsReady → s.sckLevel = .low → s.env.conv = some conv →
    (∀ v, conv.phase = .latched v → s.level = false) ∧
    (s.level = false → ∃ (a t : State) (samples : List Bool) (highs : List Nat),
      exec .readRaw s = .next a ∧ run (1 + 5 * 24 + 4 * s.regs.gainCode.code.toNat) a = .next t ∧
      samples.length = 24 ∧ s.EndsWith t (.int (BitVec.ofNat 24 (msbValue samples)).toInt)
        (readRawEvents s.regs.clockPin s.regs.dataPin 0 samples s.regs.gainCode) ∧
      t.env.highs = s.env.highs ++ highs ∧ highs.length = 24 + s.regs.gainCode.code.toNat ∧
      (∀ i j, i < j → j < 24 → (∀ us, highs[i]? = some us → Config.tPd < us) → samples[j]? = some true) ∧
      ∀ v, conv.phase = .latched v →
        (∀ j < 24, (∀ i ≤ j, ∀ us, highs[i]? = some us → us ≤ Config.tPdSafe) →
          samples[j]? = some (v.getLsbD (23 - j))) ∧
        ∃ cut ≤ 24, (∀ j < cut, samples[j]? = some (v.getLsbD (23 - j))) ∧
          (∀ j, cut < j → j < 24 → samples[j]? = some true) ∧
          (∀ i < cut, ∀ us, highs[i]? = some us → us ≤ Config.tPd) ∧
          (cut < 24 → ∀ us, highs[cut]? = some us → Config.tPdSafe < us))

/-- READ_RAW, uninterrupted, from a converter that has latched `v` returns `v`, and the converter has committed the
selection that GAIN_CODE stands for (R264 to R266, R293). The converter is log entry 9, T_PD_SAFE log entry 10. -/
def Obligations.UninterruptedFrameReturnsTheConversion : Prop :=
  ∀ (s : State) (conv : Converter) (v : BitVec 24), s.standsReady → s.sckLevel = .low →
    s.env.conv = some conv → conv.phase = .latched v → ∃ a t : State,
    exec .readRaw s = .next a ∧ run (1 + 5 * 24 + 4 * s.regs.gainCode.code.toNat) a = .next t ∧
    (s.env.uninterrupted t.env →
      s.EndsWith t (.int v.toInt)
        (readRawEvents s.regs.clockPin s.regs.dataPin 0 (bits v) s.regs.gainCode) ∧
      t.env.conv = some { conv with
        phase := .converting, selection := some s.regs.gainCode })

/-- After BEGIN with an attached converter that is ready, the frame uninterrupted, LIFECYCLE is Configured, GAIN_CODE
1, the clock line low, and the converter's next conversion is channel A at 128 (R283). The converter, and so the
selection, is log entry 9, T_PD_SAFE in the uninterrupted premise log entry 10, that BEGIN's first write of a line
still undriven leaves the converter as it is log entry 22. -/
def Obligations.BeginCommitsTheDefaultSelection : Prop :=
  ∀ (s : State) (c d : PinId) (conv : Converter) (v : BitVec 24), s.busy = false → s.sckLevel ≠ .high →
    s.env.conv = some conv → conv.phase = .latched v → ∃ a t : State,
    exec (.begin c d) s = .next a ∧ run (1 + (1 + 5 * 24 + 4)) a = .next t ∧ t.pos.phase = .idle ∧
    t.responses = s.responses ++ [.none] ∧ t.regs.lifecycle = .configured ∧ t.regs.gainCode = .a128 ∧
    t.sckLevel = .low ∧ t.env.highs.length = s.env.highs.length + 25 ∧
    (s.env.uninterrupted t.env → ∃ conv', t.env.conv = some conv' ∧ conv'.selection = some .a128)

/-- SET_GAIN with an attached converter that is ready, the frame uninterrupted: the result shifted out was converted
under the selection committed before, and the next conversion is under the new one (R64 (b), R185, R265, R266). The
converter is log entry 9, T_PD_SAFE log entry 10. -/
def Obligations.SetGainCommitsTheNewSelection : Prop :=
  ∀ (s : State) (gain : Word) (conv : Converter) (v : BitVec 24) (code : GainCode), s.standsReady →
    s.sckLevel = .low → s.env.conv = some conv → conv.phase = .latched v → conv.convertedUnder = conv.selection →
    code = (if gain = 128 then .a128 else if gain = 64 then .a64 else if gain = 32 then .b32 else s.regs.gainCode) →
    ∃ a t : State, exec (.setGain gain) s = .next a ∧
    run (1 + (1 + 5 * 24 + 4 * code.code.toNat)) a = .next t ∧ t.pos.phase = .idle ∧ t.regs.gainCode = code ∧
    (s.env.uninterrupted t.env →
      t.regs.result.toInt = v.toInt ∧ ∃ conv', t.env.conv = some conv' ∧ conv'.selection = some code ∧
        conv'.convertedUnder = conv.selection ∧
        ∀ (us : Nat) (u : BitVec 24) (more : List Conversion), conv'.upcoming = ⟨us, u⟩ :: more →
          (conv'.wait us).phase = .latched u ∧ (conv'.wait us).convertedUnder = some code)
end

