-- ==== Sys2Proof/Laws/State.lean ====
section
/-! SUPPORT. One lemma per field of State and per update of it, so that no later proof unfolds a record update. -/

namespace Sys2Proof.Machine

variable (s : State)

@[simp] theorem State.pinWrite_regs (b : Bool) : (s.pinWrite b).regs = s.regs := rfl
@[simp] theorem State.pinWrite_pos (b : Bool) : (s.pinWrite b).pos = s.pos := rfl
@[simp] theorem State.pinWrite_busy (b : Bool) : (s.pinWrite b).busy = s.busy := rfl
@[simp] theorem State.pinWrite_sckLevel (b : Bool) : (s.pinWrite b).sckLevel = Line.ofBool b := rfl
@[simp] theorem State.pinWrite_pins (b : Bool) : (s.pinWrite b).pins = s.pins.write s.regs.clockPin.toNat b := rfl
@[simp] theorem State.pinWrite_cmds (b : Bool) : (s.pinWrite b).cmds = s.cmds := rfl
@[simp] theorem State.pinWrite_responses (b : Bool) : (s.pinWrite b).responses = s.responses := rfl
@[simp] theorem State.pinWrite_trace (b : Bool) : (s.pinWrite b).trace = s.trace ++ [.write s.regs.clockPin b] := rfl
@[simp] theorem State.pinWrite_env (b : Bool) : (s.pinWrite b).env = (s.env.pass s.high 0).clockLine s.sckLevel b := rfl

@[simp] theorem State.pinRead_regs : (s.pinRead).regs = s.regs := rfl
@[simp] theorem State.pinRead_pos : (s.pinRead).pos = s.pos := rfl
@[simp] theorem State.pinRead_busy : (s.pinRead).busy = s.busy := rfl
@[simp] theorem State.pinRead_sckLevel : (s.pinRead).sckLevel = s.sckLevel := rfl
@[simp] theorem State.pinRead_pins : (s.pinRead).pins = s.pins := rfl
@[simp] theorem State.pinRead_cmds : (s.pinRead).cmds = s.cmds := rfl
@[simp] theorem State.pinRead_responses : (s.pinRead).responses = s.responses := rfl
@[simp] theorem State.pinRead_trace : (s.pinRead).trace = s.trace ++ [.read s.regs.dataPin s.level] := rfl
@[simp] theorem State.pinRead_env : (s.pinRead).env = (s.env.pass s.high 0).afterRead := rfl

@[simp] theorem State.delayUs_regs (n : Nat) : (s.delayUs n).regs = s.regs := rfl
@[simp] theorem State.delayUs_pos (n : Nat) : (s.delayUs n).pos = s.pos := rfl
@[simp] theorem State.delayUs_busy (n : Nat) : (s.delayUs n).busy = s.busy := rfl
@[simp] theorem State.delayUs_sckLevel (n : Nat) : (s.delayUs n).sckLevel = s.sckLevel := rfl
@[simp] theorem State.delayUs_pins (n : Nat) : (s.delayUs n).pins = s.pins := rfl
@[simp] theorem State.delayUs_cmds (n : Nat) : (s.delayUs n).cmds = s.cmds := rfl
@[simp] theorem State.delayUs_responses (n : Nat) : (s.delayUs n).responses = s.responses := rfl
@[simp] theorem State.delayUs_trace (n : Nat) : (s.delayUs n).trace = s.trace ++ [.delay n] := rfl
@[simp] theorem State.delayUs_env (n : Nat) : (s.delayUs n).env = s.env.pass s.high n := rfl

@[simp] theorem State.pauseMs_regs (n : Nat) : (s.pauseMs n).regs = s.regs := rfl
@[simp] theorem State.pauseMs_pos (n : Nat) : (s.pauseMs n).pos = s.pos := rfl
@[simp] theorem State.pauseMs_busy (n : Nat) : (s.pauseMs n).busy = s.busy := rfl
@[simp] theorem State.pauseMs_sckLevel (n : Nat) : (s.pauseMs n).sckLevel = s.sckLevel := rfl
@[simp] theorem State.pauseMs_pins (n : Nat) : (s.pauseMs n).pins = s.pins := rfl
@[simp] theorem State.pauseMs_cmds (n : Nat) : (s.pauseMs n).cmds = s.cmds := rfl
@[simp] theorem State.pauseMs_responses (n : Nat) : (s.pauseMs n).responses = s.responses := rfl
@[simp] theorem State.pauseMs_trace (n : Nat) : (s.pauseMs n).trace = s.trace ++ [.pause n] := rfl
@[simp] theorem State.pauseMs_env (n : Nat) : (s.pauseMs n).env = s.env.pass s.high 0 := rfl

@[simp] theorem State.nowMs_regs : (s.nowMs).regs = s.regs := rfl
@[simp] theorem State.nowMs_pos : (s.nowMs).pos = s.pos := rfl
@[simp] theorem State.nowMs_busy : (s.nowMs).busy = s.busy := rfl
@[simp] theorem State.nowMs_sckLevel : (s.nowMs).sckLevel = s.sckLevel := rfl
@[simp] theorem State.nowMs_pins : (s.nowMs).pins = s.pins := rfl
@[simp] theorem State.nowMs_cmds : (s.nowMs).cmds = s.cmds := rfl
@[simp] theorem State.nowMs_responses : (s.nowMs).responses = s.responses := rfl
@[simp] theorem State.nowMs_trace : (s.nowMs).trace = s.trace ++ [.now s.clockMs] := rfl
@[simp] theorem State.nowMs_env : (s.nowMs).env = (s.env.pass s.high 0).afterNow := rfl

@[simp] theorem State.openFrame_regs : (s.openFrame).regs = s.regs := rfl
@[simp] theorem State.openFrame_pos : (s.openFrame).pos = s.pos := rfl
@[simp] theorem State.openFrame_busy : (s.openFrame).busy = s.busy := rfl
@[simp] theorem State.openFrame_sckLevel : (s.openFrame).sckLevel = s.sckLevel := rfl
@[simp] theorem State.openFrame_pins : (s.openFrame).pins = s.pins := rfl
@[simp] theorem State.openFrame_cmds : (s.openFrame).cmds = s.cmds := rfl
@[simp] theorem State.openFrame_responses : (s.openFrame).responses = s.responses := rfl
@[simp] theorem State.openFrame_trace : (s.openFrame).trace = s.trace := rfl
@[simp] theorem State.openFrame_env : (s.openFrame).env = s.env.openFrame := rfl

@[simp] theorem State.closeFrame_regs : (s.closeFrame).regs = s.regs := rfl
@[simp] theorem State.closeFrame_pos : (s.closeFrame).pos = s.pos := rfl
@[simp] theorem State.closeFrame_busy : (s.closeFrame).busy = s.busy := rfl
@[simp] theorem State.closeFrame_sckLevel : (s.closeFrame).sckLevel = s.sckLevel := rfl
@[simp] theorem State.closeFrame_pins : (s.closeFrame).pins = s.pins := rfl
@[simp] theorem State.closeFrame_cmds : (s.closeFrame).cmds = s.cmds := rfl
@[simp] theorem State.closeFrame_responses : (s.closeFrame).responses = s.responses := rfl
@[simp] theorem State.closeFrame_trace : (s.closeFrame).trace = s.trace := rfl
@[simp] theorem State.closeFrame_env : (s.closeFrame).env = s.env.closeFrame := rfl

@[simp] theorem State.setRegs_regs (f : Regs → Regs) : (s.setRegs f).regs = f s.regs := rfl
@[simp] theorem State.setRegs_pos (f : Regs → Regs) : (s.setRegs f).pos = s.pos := rfl
@[simp] theorem State.setRegs_busy (f : Regs → Regs) : (s.setRegs f).busy = s.busy := rfl
@[simp] theorem State.setRegs_sckLevel (f : Regs → Regs) : (s.setRegs f).sckLevel = s.sckLevel := rfl
@[simp] theorem State.setRegs_pins (f : Regs → Regs) : (s.setRegs f).pins = s.pins := rfl
@[simp] theorem State.setRegs_cmds (f : Regs → Regs) : (s.setRegs f).cmds = s.cmds := rfl
@[simp] theorem State.setRegs_responses (f : Regs → Regs) : (s.setRegs f).responses = s.responses := rfl
@[simp] theorem State.setRegs_trace (f : Regs → Regs) : (s.setRegs f).trace = s.trace := rfl
@[simp] theorem State.setRegs_env (f : Regs → Regs) : (s.setRegs f).env = s.env := rfl

@[simp] theorem State.setPos_regs (f : Position → Position) : (s.setPos f).regs = s.regs := rfl
@[simp] theorem State.setPos_pos (f : Position → Position) : (s.setPos f).pos = f s.pos := rfl
@[simp] theorem State.setPos_busy (f : Position → Position) : (s.setPos f).busy = s.busy := rfl
@[simp] theorem State.setPos_sckLevel (f : Position → Position) : (s.setPos f).sckLevel = s.sckLevel := rfl
@[simp] theorem State.setPos_pins (f : Position → Position) : (s.setPos f).pins = s.pins := rfl
@[simp] theorem State.setPos_cmds (f : Position → Position) : (s.setPos f).cmds = s.cmds := rfl
@[simp] theorem State.setPos_responses (f : Position → Position) : (s.setPos f).responses = s.responses := rfl
@[simp] theorem State.setPos_trace (f : Position → Position) : (s.setPos f).trace = s.trace := rfl
@[simp] theorem State.setPos_env (f : Position → Position) : (s.setPos f).env = s.env := rfl

@[simp] theorem State.goto_regs (ph : Phase) : (s.goto ph).regs = s.regs := rfl
@[simp] theorem State.goto_pos (ph : Phase) : (s.goto ph).pos = { s.pos with phase := ph } := rfl
@[simp] theorem State.goto_busy (ph : Phase) : (s.goto ph).busy = s.busy := rfl
@[simp] theorem State.goto_sckLevel (ph : Phase) : (s.goto ph).sckLevel = s.sckLevel := rfl
@[simp] theorem State.goto_pins (ph : Phase) : (s.goto ph).pins = s.pins := rfl
@[simp] theorem State.goto_cmds (ph : Phase) : (s.goto ph).cmds = s.cmds := rfl
@[simp] theorem State.goto_responses (ph : Phase) : (s.goto ph).responses = s.responses := rfl
@[simp] theorem State.goto_trace (ph : Phase) : (s.goto ph).trace = s.trace := rfl
@[simp] theorem State.goto_env (ph : Phase) : (s.goto ph).env = s.env := rfl

@[simp] theorem State.respond_regs (r : Response) : (s.respond r).regs = s.regs := rfl
@[simp] theorem State.respond_pos (r : Response) : (s.respond r).pos = { s.pos with op := none, phase := .idle } := rfl
@[simp] theorem State.respond_busy (r : Response) : (s.respond r).busy = false := rfl
@[simp] theorem State.respond_sckLevel (r : Response) : (s.respond r).sckLevel = s.sckLevel := rfl
@[simp] theorem State.respond_pins (r : Response) : (s.respond r).pins = s.pins := rfl
@[simp] theorem State.respond_cmds (r : Response) : (s.respond r).cmds = s.cmds := rfl
@[simp] theorem State.respond_responses (r : Response) : (s.respond r).responses = s.responses ++ [r] := rfl
@[simp] theorem State.respond_trace (r : Response) : (s.respond r).trace = s.trace := rfl
@[simp] theorem State.respond_env (r : Response) : (s.respond r).env = s.env := rfl

@[simp] theorem State.refuse_regs (reason : RefuseReason) : (s.refuse reason).regs = s.regs := rfl
@[simp] theorem State.refuse_pos (reason : RefuseReason) : (s.refuse reason).pos = s.pos := rfl
@[simp] theorem State.refuse_busy (reason : RefuseReason) : (s.refuse reason).busy = s.busy := rfl
@[simp] theorem State.refuse_sckLevel (reason : RefuseReason) : (s.refuse reason).sckLevel = s.sckLevel := rfl
@[simp] theorem State.refuse_pins (reason : RefuseReason) : (s.refuse reason).pins = s.pins := rfl
@[simp] theorem State.refuse_cmds (reason : RefuseReason) : (s.refuse reason).cmds = s.cmds := rfl
@[simp] theorem State.refuse_responses (reason : RefuseReason) : (s.refuse reason).responses = s.responses ++ [.refused reason] := rfl
@[simp] theorem State.refuse_trace (reason : RefuseReason) : (s.refuse reason).trace = s.trace := rfl
@[simp] theorem State.refuse_env (reason : RefuseReason) : (s.refuse reason).env = s.env := rfl

@[simp] theorem State.accept_regs (op : Op) (a b : Word) (ph : Phase) : (s.accept op a b ph).regs = s.regs.latch a b := rfl
@[simp] theorem State.accept_pos (op : Op) (a b : Word) (ph : Phase) : (s.accept op a b ph).pos = { s.pos with op := some op, phase := ph } := rfl
@[simp] theorem State.accept_busy (op : Op) (a b : Word) (ph : Phase) : (s.accept op a b ph).busy = true := rfl
@[simp] theorem State.accept_sckLevel (op : Op) (a b : Word) (ph : Phase) : (s.accept op a b ph).sckLevel = s.sckLevel := rfl
@[simp] theorem State.accept_pins (op : Op) (a b : Word) (ph : Phase) : (s.accept op a b ph).pins = s.pins := rfl
@[simp] theorem State.accept_cmds (op : Op) (a b : Word) (ph : Phase) : (s.accept op a b ph).cmds = s.cmds := rfl
@[simp] theorem State.accept_responses (op : Op) (a b : Word) (ph : Phase) : (s.accept op a b ph).responses = s.responses := rfl
@[simp] theorem State.accept_trace (op : Op) (a b : Word) (ph : Phase) : (s.accept op a b ph).trace = s.trace := rfl
@[simp] theorem State.accept_env (op : Op) (a b : Word) (ph : Phase) : (s.accept op a b ph).env = s.env := rfl

@[simp] theorem State.answer_regs (r : Response) : (s.answer r).regs = s.regs := rfl
@[simp] theorem State.answer_pos (r : Response) : (s.answer r).pos = s.pos := rfl
@[simp] theorem State.answer_busy (r : Response) : (s.answer r).busy = s.busy := rfl
@[simp] theorem State.answer_sckLevel (r : Response) : (s.answer r).sckLevel = s.sckLevel := rfl
@[simp] theorem State.answer_pins (r : Response) : (s.answer r).pins = s.pins := rfl
@[simp] theorem State.answer_cmds (r : Response) : (s.answer r).cmds = s.cmds := rfl
@[simp] theorem State.answer_responses (r : Response) : (s.answer r).responses = s.responses ++ [r] := rfl
@[simp] theorem State.answer_trace (r : Response) : (s.answer r).trace = s.trace := rfl
@[simp] theorem State.answer_env (r : Response) : (s.answer r).env = s.env := rfl

@[simp] theorem State.taken_regs : (s.taken).regs = s.regs := rfl
@[simp] theorem State.taken_pos : (s.taken).pos = s.pos := rfl
@[simp] theorem State.taken_busy : (s.taken).busy = s.busy := rfl
@[simp] theorem State.taken_sckLevel : (s.taken).sckLevel = s.sckLevel := rfl
@[simp] theorem State.taken_pins : (s.taken).pins = s.pins := rfl
@[simp] theorem State.taken_cmds : (s.taken).cmds = s.cmds.tail := rfl
@[simp] theorem State.taken_responses : (s.taken).responses = s.responses := rfl
@[simp] theorem State.taken_trace : (s.taken).trace = s.trace := rfl
@[simp] theorem State.taken_env : (s.taken).env = s.env := rfl

end Sys2Proof.Machine
end

