-- ==== Sys2Proof/Laws/BigStep.lean ====
section
/-! SUPPORT. What the big-step rules do not look at: a change of state that no collaborator call sees goes through them unchanged. -/

namespace Sys2Proof.Machine

/-- A change of the state that the collaborator calls and the registers do not see. -/
structure Bystander (g : State → State) : Prop where
  pinWrite : ∀ b s, (g s).pinWrite b = g (s.pinWrite b)
  pinRead : ∀ s, (g s).pinRead = g s.pinRead
  delayUs : ∀ n s, (g s).delayUs n = g (s.delayUs n)
  pauseMs : ∀ n s, (g s).pauseMs n = g (s.pauseMs n)
  nowMs : ∀ s, (g s).nowMs = g s.nowMs
  openFrame : ∀ s, (g s).openFrame = g s.openFrame
  closeFrame : ∀ s, (g s).closeFrame = g s.closeFrame
  setRegs : ∀ f s, (g s).setRegs f = g (s.setRegs f)
  level : ∀ s, (g s).level = s.level
  clockMs : ∀ s, (g s).clockMs = s.clockMs
  regs : ∀ s, (g s).regs = s.regs

/-- An operation's position and BUSY, set to what they are inside it or outside. -/
def State.standing (p : Position) (busy : Bool) (s : State) : State := { s with pos := p, busy := busy }

theorem bystander_setPos (f : Position → Position) : Bystander (State.setPos f) := by
  constructor <;> intros <;> rfl

theorem bystander_standing (p : Position) (b : Bool) : Bystander (State.standing p b) := by
  constructor <;> intros <;> rfl

namespace Bystander
variable {g : State → State} (h : Bystander g)
include h

theorem bigDataPulse (o : BitOrder) (i : Fin 8) (s : State) : bigDataPulse o i (g s) = g (bigDataPulse o i s) := by
  simp only [Machine.bigDataPulse, h.pinWrite, h.delayUs, h.pinRead, h.level, h.setRegs]

theorem bigDataPulses (o : BitOrder) (n : Nat) (s : State) : bigDataPulses o n (g s) = g (bigDataPulses o n s) := by
  induction n generalizing s with
  | zero => rfl
  | succ n ih => rw [Machine.bigDataPulses, Machine.bigDataPulses, h.bigDataPulse, ih]

theorem bigShiftByte (o : BitOrder) (s : State) : bigShiftByte o (g s) = g (bigShiftByte o s) := by
  unfold Machine.bigShiftByte
  rw [h.setRegs, h.bigDataPulses]

theorem bigClockPulse (s : State) : bigClockPulse (g s) = g (bigClockPulse s) := by
  simp only [Machine.bigClockPulse, h.pinWrite, h.delayUs]

theorem bigClockPulses (n : Nat) (s : State) : bigClockPulses n (g s) = g (bigClockPulses n s) := by
  induction n generalizing s with
  | zero => rfl
  | succ n ih => rw [Machine.bigClockPulses, Machine.bigClockPulses, h.bigClockPulse, ih]

theorem bigWaitReady (p fuel : Nat) (s : State) : bigWaitReady p fuel (g s) = (bigWaitReady p fuel s).map g := by
  induction fuel generalizing s with
  | zero => rfl
  | succ fuel ih =>
    rw [Machine.bigWaitReady, Machine.bigWaitReady, h.level, h.pinRead, h.pauseMs, ih]
    split <;> rfl

theorem bigRetry (p n : Nat) (s : State) : bigRetry p n (g s) = ((bigRetry p n s).1, g (bigRetry p n s).2) := by
  induction n generalizing s with
  | zero => rfl
  | succ n ih =>
    rw [Machine.bigRetry, Machine.bigRetry, h.level, h.pinRead, h.pauseMs, h.setRegs, ih]
    split <;> rfl

theorem bigTimeout (m p fuel : Nat) (s : State) :
    bigTimeout m p fuel (g s) = (bigTimeout m p fuel s).map fun r => (r.1, g r.2) := by
  induction fuel generalizing s with
  | zero => rfl
  | succ fuel ih =>
    rw [Machine.bigTimeout, Machine.bigTimeout, h.clockMs, h.regs, h.nowMs, h.level, h.pinRead, h.pauseMs, ih]
    split
    · split <;> rfl
    · rfl

theorem bigFrame (s : State) : bigFrame (g s) = g (bigFrame s) := by
  simp only [Machine.bigFrame, h.openFrame, h.closeFrame, h.bigShiftByte, h.setRegs, h.regs, h.bigClockPulses]

theorem bigReadRaw (fuel : Nat) (s : State) : bigReadRaw fuel (g s) = (bigReadRaw fuel s).map g := by
  rw [Machine.bigReadRaw, Machine.bigReadRaw, h.bigWaitReady, Option.map_map, Option.map_map]
  congr 1
  funext v
  exact h.bigFrame v

theorem bigSetGain (w : Word) (fuel : Nat) (s : State) : bigSetGain w fuel (g s) = (bigSetGain w fuel s).map g := by
  rw [Machine.bigSetGain, Machine.bigSetGain, h.setRegs, h.pinWrite, h.bigReadRaw]

theorem bigSamples (fuel n : Nat) (s : State) : bigSamples fuel n (g s) = (bigSamples fuel n s).map g := by
  induction n generalizing s with
  | zero => rfl
  | succ n ih =>
    rw [Machine.bigSamples, Machine.bigSamples, h.bigReadRaw]
    cases Machine.bigReadRaw fuel s with
    | none => rfl
    | some v =>
      simp only [Option.map_some, h.setRegs, h.pauseMs]
      exact ih _

theorem bigMean (n : Int) (fuel : Nat) (s : State) : bigMean n fuel (g s) = (bigMean n fuel s).map g := by
  rw [Machine.bigMean, Machine.bigMean, h.setRegs, h.bigSamples]

end Bystander

end Sys2Proof.Machine
end

