-- ==== Sys2Proof/Laws/Memory.lean ====
section
/-! SUPPORT. The pin space: reading after writing, and the canonical form. -/

namespace Sys2Proof.Machine

/-- A pin reads the level last written to it. -/
@[simp] theorem Memory.read_write_self (m : Memory) (p : Nat) (b : Bool) : (Memory.write m p b).read p = some b := by
  induction m with
  | nil => simp [Memory.write, Memory.read]
  | cons c rest ih =>
    obtain ⟨q, l⟩ := c
    simp only [Memory.write]
    split_ifs with h1 h2
    · simp [Memory.read]
    · simp [Memory.read]
    · simp [Memory.read, Ne.symm h2, ih]

/-- A write leaves every other pin alone. -/
theorem Memory.read_write_of_ne (m : Memory) {p q : Nat} (b : Bool) (h : q ≠ p) :
    (Memory.write m p b).read q = m.read q := by
  induction m with
  | nil => simp [Memory.write, Memory.read, Ne.symm h]
  | cons c rest ih =>
    obtain ⟨r, l⟩ := c
    simp only [Memory.write]
    split_ifs with h1 h2
    · simp [Memory.read, Ne.symm h]
    · subst h2; simp [Memory.read, Ne.symm h]
    · simp [Memory.read, ih]

theorem Memory.above_write {m : Memory} {k p : Nat} (b : Bool) (hk : k < p) (h : Memory.above k m = true) :
    Memory.above k (m.write p b) = true := by
  induction m generalizing k with
  | nil => simpa [Memory.write, Memory.above] using hk
  | cons c rest ih =>
    obtain ⟨q, l⟩ := c
    simp only [Memory.above, Bool.and_eq_true, decide_eq_true_eq] at h
    simp only [Memory.write]
    split_ifs with h1 h2
    · simp [Memory.above, hk, h1, h.2]
    · subst h2; simp [Memory.above, hk, h.2]
    · simp [Memory.above, h.1, ih (show q < p by omega) h.2]

/-- A write keeps the canonical form. -/
theorem Memory.wf_write {m : Memory} (p : Nat) (b : Bool) (h : m.wf = true) : (m.write p b).wf = true := by
  cases m with
  | nil => simp [Memory.write, Memory.wf, Memory.above]
  | cons c rest =>
    obtain ⟨q, l⟩ := c
    simp only [Memory.wf] at h
    simp only [Memory.write]
    split_ifs with h1 h2
    · simp [Memory.wf, Memory.above, h1, h]
    · subst h2; simpa [Memory.wf] using h
    · simpa [Memory.wf] using Memory.above_write b (by omega) h

/-- Of two writes to one pin the second counts. -/
@[simp] theorem Memory.write_write (m : Memory) (p : Nat) (a b : Bool) : (m.write p a).write p b = m.write p b := by
  induction m with
  | nil => simp [Memory.write]
  | cons c rest ih =>
    obtain ⟨q, l⟩ := c
    simp only [Memory.write]
    split_ifs with h1 h2
    · simp [Memory.write]
    · simp [Memory.write]
    · simp [Memory.write, h1, h2, ih]

end Sys2Proof.Machine
end

