-- ==== Sys2Proof/Laws/Step.lean ====
section
/-! SUPPORT. What a step is in each phase, and how runs compose. -/

namespace Sys2Proof.Machine

@[simp] theorem run_zero (s : State) : run 0 s = .next s := rfl

theorem run_succ (k : Nat) (s : State) :
    run (k + 1) s = match step s with
      | .next t => run k t
      | .fault r => .fault r
      | .refused r => .refused r := by
  have h : core.step s = step s := rfl
  simp only [run, Host.Core.run, h]
  cases step s <;> rfl

/-- A run goes on from where its first step leads. -/
theorem run_succ_of_step {s t : State} (k : Nat) (h : step s = .next t) : run (k + 1) s = run k t := by
  rw [run_succ, h]

theorem run_one (s : State) : run 1 s = step s := by
  rw [run_succ]; cases step s <;> rfl

/-- A run goes on from where its first part leads. -/
theorem run_add {s t : State} {j : Nat} (k : Nat) (h : run j s = .next t) : run (j + k) s = run k t := by
  induction j generalizing s with
  | zero => cases h; simp
  | succ j ih =>
    rw [run_succ] at h
    rw [Nat.succ_add, run_succ]
    cases hs : step s with
    | next u => rw [hs] at h; exact ih h
    | fault r => rw [hs] at h; cases h
    | refused r => rw [hs] at h; cases h

theorem offeredWord_of_busy {s : State} (h : s.busy = true) : s.offeredWord = none := by
  unfold State.offeredWord; split <;> simp_all

theorem offeredWord_of_phase {s : State} (h : s.pos.phase ≠ .idle) : s.offeredWord = none := by
  unfold State.offeredWord; split <;> simp_all

theorem offeredWord_of_idle {s : State} (h : s.pos.phase = .idle) (hb : s.busy = false) :
    s.offeredWord = s.cmds.head? := by
  unfold State.offeredWord; simp [h, hb]

/-- Outside IDLE a step is the sequencer's (R215). -/
theorem step_of_phase {s : State} (h : s.pos.phase ≠ .idle) : step s = sequencer s := by
  simp [step, offeredWord_of_phase h]

/-- In IDLE a step performs the command whose word is at the port (R217). -/
theorem step_of_word {s : State} {w : CommandWord} {rest : List CommandWord} (h : s.pos.phase = .idle)
    (hb : s.busy = false) (hc : s.cmds = w :: rest) : step s = takingWord (exec (decode w) s) := by
  simp [step, offeredWord_of_idle h hb, hc]

/-- An idle block at whose port no word stands idles (R36). -/
theorem step_of_no_word {s : State} (h : s.pos.phase = .idle) (hc : s.cmds = []) : step s = .next s := by
  have : s.offeredWord = none := by unfold State.offeredWord; split <;> simp [hc]
  simp [step, this, sequencer, h]

section phases
variable {s : State}

theorem step_sgLow (h : s.pos.phase = .sgLow) : step s = seqSgLow s := by
  simp [step_of_phase, h, sequencer]
theorem step_chk (h : s.pos.phase = .chk) : step s = seqChk s := by simp [step_of_phase, h, sequencer]
theorem step_pau (h : s.pos.phase = .pau) : step s = seqPau s := by simp [step_of_phase, h, sequencer]
theorem step_tq0 (h : s.pos.phase = .tq0) : step s = seqTq0 s := by simp [step_of_phase, h, sequencer]
theorem step_tq (h : s.pos.phase = .tq) : step s = seqTq s := by simp [step_of_phase, h, sequencer]
theorem step_dHiW (h : s.pos.phase = .dHiW) : step s = seqDHiW s := by simp [step_of_phase, h, sequencer]
theorem step_dHiD (h : s.pos.phase = .dHiD) : step s = seqDHiD s := by simp [step_of_phase, h, sequencer]
theorem step_dSmp (h : s.pos.phase = .dSmp) : step s = seqDSmp s := by simp [step_of_phase, h, sequencer]
theorem step_dLoW (h : s.pos.phase = .dLoW) : step s = seqDLoW s := by simp [step_of_phase, h, sequencer]
theorem step_dLoD (h : s.pos.phase = .dLoD) : step s = seqDLoD s := by simp [step_of_phase, h, sequencer]
theorem step_gHiW (h : s.pos.phase = .gHiW) : step s = seqGHiW s := by simp [step_of_phase, h, sequencer]
theorem step_gHiD (h : s.pos.phase = .gHiD) : step s = seqGHiD s := by simp [step_of_phase, h, sequencer]
theorem step_gLoW (h : s.pos.phase = .gLoW) : step s = seqGLoW s := by simp [step_of_phase, h, sequencer]
theorem step_gLoD (h : s.pos.phase = .gLoD) : step s = seqGLoD s := by simp [step_of_phase, h, sequencer]
theorem step_avgY (h : s.pos.phase = .avgY) : step s = seqAvgY s := by simp [step_of_phase, h, sequencer]

end phases

end Sys2Proof.Machine
end

