-- ==== Sys2Proof/Laws/Pulses.lean ====
section
/-! SUPPORT. The pulse machine against the big-step rules: a data pulse is five steps, a gain pulse four, a frame `5*24 + 4*GAIN_CODE` (R223 to R228, R231, R232). -/

namespace Sys2Proof.Machine

/-! ## The big-step rules leave the sequencer position alone -/

theorem bigDataPulses_setPos (o : BitOrder) (n : Nat) (f : Position → Position) (s : State) :
    bigDataPulses o n (s.setPos f) = (bigDataPulses o n s).setPos f := (bystander_setPos f).bigDataPulses o n s

theorem bigClockPulses_setPos (n : Nat) (f : Position → Position) (s : State) :
    bigClockPulses n (s.setPos f) = (bigClockPulses n s).setPos f := (bystander_setPos f).bigClockPulses n s

@[simp] theorem bigDataPulses_pos (o : BitOrder) (n : Nat) (s : State) : (bigDataPulses o n s).pos = s.pos := by
  induction n generalizing s with
  | zero => rfl
  | succ n ih => exact ih _

@[simp] theorem bigClockPulses_pos (n : Nat) (s : State) : (bigClockPulses n s).pos = s.pos := by
  induction n generalizing s with
  | zero => rfl
  | succ n ih => exact ih _

@[simp] theorem bigClockPulses_regs (n : Nat) (s : State) : (bigClockPulses n s).regs = s.regs := by
  induction n generalizing s with
  | zero => rfl
  | succ n ih => exact ih _

/-- The data pulses of a group write SR alone among the registers. -/
theorem bigDataPulses_regs (o : BitOrder) (n : Nat) (s : State) :
    ∃ sr, (bigDataPulses o n s).regs = { s.regs with sr := sr } := by
  induction n generalizing s with
  | zero => exact ⟨s.regs.sr, rfl⟩
  | succ n ih =>
    obtain ⟨sr, h⟩ := ih (bigDataPulse o (Fin.ofNat 8 (7 - n)) s)
    exact ⟨sr, by rw [bigDataPulses, h]; rfl⟩

@[simp] theorem bigDataPulses_gainCode (o : BitOrder) (n : Nat) (s : State) :
    (bigDataPulses o n s).regs.gainCode = s.regs.gainCode := by
  obtain ⟨sr, h⟩ := bigDataPulses_regs o n s
  rw [h]

/-- Registers and position are changed in either order. -/
theorem State.setRegs_setPos (f : Regs → Regs) (g : Position → Position) (s : State) :
    (s.setPos g).setRegs f = (s.setRegs f).setPos g := rfl

/-- Two changes of the position make one. -/
theorem State.setPos_setPos (f g : Position → Position) (s : State) :
    (s.setPos f).setPos g = s.setPos fun p => g (f p) := rfl

/-! ## One data pulse, one group -/

/-- What follows the eighth bit of a group, its low hold done (R226 (b), (c)). -/
def groupDone (t : State) : Host.Outcome State Fault Refusal :=
  match t.pos.op with
  | none => .fault .noTransition
  | some op =>
    match op.kind with
    | .frame => .next t.endGroup
    | .probe => .fault .noTransition
    | .wait => .fault .noTransition
    | .other =>
      match op with
      | .shiftByte => .next (t.respond (srResponse t.regs))
      | _ => .fault .noTransition

theorem seqDLoD_of_lt {s : State} (h : s.pos.bitIx < 7) :
    seqDLoD s = .next ((s.delayUs Config.tLoMin).setPos ({ · with phase := .dHiW, bitIx := s.pos.bitIx + 1 })) := by
  simp [seqDLoD, h]

theorem seqDLoD_of_last {s : State} (h : ¬ s.pos.bitIx < 7) : seqDLoD s = groupDone (s.delayUs Config.tLoMin) := by
  unfold seqDLoD
  rw [if_neg h]
  rfl

/-- The first four steps of a data pulse: up to the low hold. -/
theorem run_dataPulse_edges {s : State} (h : s.pos.phase = .dHiW) :
    run 4 s = .next
      ((((((s.pinWrite true).delayUs Config.tHiMin).pinRead.pinWrite false).setRegs
        (Regs.storeBit s.pos.order s.pos.bitIx ((s.pinWrite true).delayUs Config.tHiMin).level))).goto .dLoD) := by
  rw [run_succ_of_step 3 (step_dHiW h), run_succ_of_step 2 (step_dHiD rfl), run_succ_of_step 1 (step_dSmp rfl),
    run_succ_of_step 0 (step_dLoW rfl)]
  rfl

/-- A data pulse before the last of its group (R226 (a)). -/
theorem run_dataPulse {s : State} (h : s.pos.phase = .dHiW) (hi : s.pos.bitIx < 7) :
    run 5 s = .next ((bigDataPulse s.pos.order s.pos.bitIx s).setPos
      ({ · with phase := .dHiW, bitIx := s.pos.bitIx + 1 })) := by
  rw [run_add 1 (run_dataPulse_edges h), run_one, step_dLoD rfl, seqDLoD_of_lt (by exact hi)]
  rfl

/-- The last data pulse of a group. -/
theorem run_dataPulse_last {s : State} (h : s.pos.phase = .dHiW) (hi : ¬ s.pos.bitIx < 7) :
    run 5 s = groupDone ((bigDataPulse s.pos.order s.pos.bitIx s).goto .dLoD) := by
  rw [run_add 1 (run_dataPulse_edges h), run_one, step_dLoD rfl, seqDLoD_of_last (by exact hi)]
  rfl

/-- The data pulses left of a group. -/
theorem run_dataPulses (left : Nat) {s : State} (h : s.pos.phase = .dHiW) (hl : left ≤ 7)
    (hi : s.pos.bitIx.val = 7 - left) :
    run (5 * (left + 1)) s = groupDone ((bigDataPulses s.pos.order (left + 1) s).setPos
      ({ · with phase := .dLoD, bitIx := 7 })) := by
  have hb : Fin.ofNat 8 (7 - left) = s.pos.bitIx := by
    apply Fin.ext; simp [hi]; omega
  induction left generalizing s with
  | zero =>
    have h7 : s.pos.bitIx = 7 := Fin.ext (by simpa using hi)
    rw [run_dataPulse_last h (by rw [h7]; decide)]
    simp only [bigDataPulses, hb]
    congr 1
    rw [State.goto]
    obtain ⟨_, ⟨_, _, _, bitIx, _, _⟩, _⟩ := s
    simp only at h7
    subst h7
    rfl
  | succ left ih =>
    have hlt : s.pos.bitIx < 7 := by rw [Fin.lt_def, hi]; simp; omega
    have hnext : (s.pos.bitIx + 1).val = 7 - left := by
      rw [Fin.val_add_one_of_lt (lt_of_lt_of_le hlt (by decide))]; omega
    rw [show 5 * (left + 1 + 1) = 5 + 5 * (left + 1) by ring, run_add _ (run_dataPulse h hlt),
      ih rfl (by omega) hnext (Fin.ext (by
        show (7 - left) % 8 = (s.pos.bitIx + 1).val
        rw [hnext]; omega)),
      bigDataPulses_setPos]
    simp only [bigDataPulses, hb]
    rfl

/-- A whole group: 40 steps. -/
theorem run_group {s : State} (h : s.pos.phase = .dHiW) (hi : s.pos.bitIx = 0) :
    run 40 s = groupDone ((bigDataPulses s.pos.order 8 s).setPos ({ · with phase := .dLoD, bitIx := 7 })) :=
  run_dataPulses 7 h le_rfl (by simp [hi])

/-! ## The gain pulses -/

/-- A gain pulse's four calls, before its end is decided (R227, R228). -/
theorem run_gainPulse_edges {s : State} (h : s.pos.phase = .gHiW) :
    run 3 s = .next ((((s.pinWrite true).delayUs Config.tHiMin).pinWrite false).goto .gLoD) := by
  rw [run_succ_of_step 2 (step_gHiW h), run_succ_of_step 1 (step_gHiD rfl), run_succ_of_step 0 (step_gLoW rfl)]
  rfl

/-- A frame's gain pulse (R228 (b), (c)). -/
theorem run_gainPulse {s : State} {op : Op} (h : s.pos.phase = .gHiW) (ho : s.pos.op = some op)
    (hk : op.kind = .frame) :
    run 4 s = .next
      (if s.pos.pulseIx + 1 < s.regs.gainCode.pulses then
        (bigClockPulse s).setPos ({ · with phase := .gHiW, pulseIx := s.pos.pulseIx + 1 })
      else (((bigClockPulse s).setPos ({ · with phase := .gLoD, pulseIx := s.pos.pulseIx + 1 })).setRegs
        Regs.assembleFrame).closeFrame.endFrame op) := by
  rw [run_add 1 (run_gainPulse_edges h), run_one, step_gLoD rfl]
  simp only [seqGLoD, State.goto_pos, State.pinWrite_pos, State.delayUs_pos, ho, hk]
  rfl

/-- The gain pulses left of a frame, and its end. -/
theorem run_gainPulses (left : Nat) {s : State} {op : Op} (h : s.pos.phase = .gHiW) (ho : s.pos.op = some op)
    (hk : op.kind = .frame) (hp : s.pos.pulseIx + (left + 1) = s.regs.gainCode.pulses) :
    run (4 * (left + 1)) s = .next ((((bigClockPulses (left + 1) s).setPos
      ({ · with phase := .gLoD, pulseIx := s.regs.gainCode.pulses })).setRegs Regs.assembleFrame).closeFrame.endFrame op) := by
  induction left generalizing s with
  | zero =>
    rw [run_gainPulse h ho hk, if_neg (by omega), ← hp]
    rfl
  | succ left ih =>
    rw [show 4 * (left + 1 + 1) = 4 + 4 * (left + 1) by ring, run_add _ (run_gainPulse h ho hk),
      if_pos (by omega)]
    have hn : ((bigClockPulse s).setPos ({ · with phase := .gHiW, pulseIx := s.pos.pulseIx + 1 })).pos.pulseIx =
        s.pos.pulseIx + 1 := rfl
    have hg : ((bigClockPulse s).setPos ({ · with phase := .gHiW, pulseIx := s.pos.pulseIx + 1 })).regs = s.regs := rfl
    rw [ih (s := (bigClockPulse s).setPos ({ · with phase := .gHiW, pulseIx := s.pos.pulseIx + 1 })) rfl ho
        (by rw [hn, hg]; omega), bigClockPulses_setPos]
    rfl

theorem GainCode.pulses_pos (g : GainCode) : 0 < g.pulses := by cases g <;> decide

theorem GainCode.code_toNat (g : GainCode) : g.code.toNat = g.pulses := by cases g <;> rfl

/-! ## A frame -/

/-- A group of a frame, and the byte stored; the next group is to begin, or the gain pulses. -/
def groupInto (ix : Fin 3) (o : BitOrder) (s : State) : State :=
  (bigDataPulses o 8 s).setRegs (Regs.storeByte ix)

/-- The three groups of a frame whose SR is cleared already. -/
def frameGroups (o : BitOrder) (s : State) : State :=
  groupInto 0 o ((groupInto 1 o ((groupInto 2 o s).setRegs Regs.clearSr)).setRegs Regs.clearSr)

/-- The three groups and the gain pulses of a frame whose SR is cleared already. -/
def framePulses (o : BitOrder) (s : State) : State := bigClockPulses s.regs.gainCode.pulses (frameGroups o s)

theorem groupInto_setPos (ix : Fin 3) (o : BitOrder) (f : Position → Position) (s : State) :
    groupInto ix o (s.setPos f) = (groupInto ix o s).setPos f := by
  unfold groupInto
  rw [bigDataPulses_setPos, State.setRegs_setPos]

@[simp] theorem groupInto_pos (ix : Fin 3) (o : BitOrder) (s : State) : (groupInto ix o s).pos = s.pos :=
  (State.setRegs_pos _ _).trans (bigDataPulses_pos o 8 s)

@[simp] theorem Regs.storeByte_gainCode (ix : Fin 3) (r : Regs) : (r.storeByte ix).gainCode = r.gainCode := by
  unfold Regs.storeByte; split <;> rfl

@[simp] theorem groupInto_gainCode (ix : Fin 3) (o : BitOrder) (s : State) :
    (groupInto ix o s).regs.gainCode = s.regs.gainCode := by
  unfold groupInto
  rw [State.setRegs_regs, Regs.storeByte_gainCode, bigDataPulses_gainCode]

theorem run_group_frame {s : State} {op : Op} (h : s.pos.phase = .dHiW) (hi : s.pos.bitIx = 0)
    (ho : s.pos.op = some op) (hk : op.kind = .frame) :
    run 40 s = .next ((bigDataPulses s.pos.order 8 s).setPos ({ · with phase := .dLoD, bitIx := 7 })).endGroup := by
  rw [run_group h hi]
  simp [groupDone, ho, hk]

@[simp] theorem frameGroups_pos (o : BitOrder) (s : State) : (frameGroups o s).pos = s.pos := by
  unfold frameGroups
  rw [groupInto_pos, State.setRegs_pos, groupInto_pos, State.setRegs_pos, groupInto_pos]

@[simp] theorem frameGroups_gainCode (o : BitOrder) (s : State) :
    (frameGroups o s).regs.gainCode = s.regs.gainCode := by
  unfold frameGroups
  rw [groupInto_gainCode, State.setRegs_regs, Regs.clearSr_gainCode, groupInto_gainCode, State.setRegs_regs,
    Regs.clearSr_gainCode, groupInto_gainCode]

@[simp] theorem framePulses_pos (o : BitOrder) (s : State) : (framePulses o s).pos = s.pos := by
  simp [framePulses]

/-- The big-step frame is these pulses and the assembly. -/
theorem bigFrame_eq (s : State) :
    bigFrame s = ((framePulses .msb (s.openFrame.setRegs Regs.clearSr)).setRegs Regs.assembleFrame).closeFrame := by
  have h := frameGroups_gainCode .msb (s.openFrame.setRegs Regs.clearSr)
  rw [framePulses, ← h]
  rfl

section frame
variable {s : State} {op : Op} (h : s.pos.phase = .dHiW) (hi : s.pos.bitIx = 0) (ho : s.pos.op = some op)
  (hk : op.kind = .frame)
include h hi ho hk

theorem run_group_two (hb : s.pos.byteIx = 2) :
    run 40 s = .next (((groupInto 2 s.pos.order s).setRegs Regs.clearSr).setPos
      ({ · with phase := .dHiW, byteIx := 1, bitIx := 0 })) := by
  rw [run_group_frame h hi ho hk]
  have hp := bigDataPulses_pos s.pos.order 8 s
  unfold groupInto
  generalize bigDataPulses s.pos.order 8 s = g at hp ⊢
  simp only [State.endGroup, State.setPos_pos, hp, hb]
  rfl

theorem run_group_one (hb : s.pos.byteIx = 1) :
    run 40 s = .next (((groupInto 1 s.pos.order s).setRegs Regs.clearSr).setPos
      ({ · with phase := .dHiW, byteIx := 0, bitIx := 0 })) := by
  rw [run_group_frame h hi ho hk]
  have hp := bigDataPulses_pos s.pos.order 8 s
  unfold groupInto
  generalize bigDataPulses s.pos.order 8 s = g at hp ⊢
  simp only [State.endGroup, State.setPos_pos, hp, hb]
  rfl

theorem run_group_zero (hb : s.pos.byteIx = 0) :
    run 40 s = .next ((groupInto 0 s.pos.order s).setPos
      ({ · with phase := .gHiW, bitIx := 7, pulseIx := 0 })) := by
  rw [run_group_frame h hi ho hk]
  have hp := bigDataPulses_pos s.pos.order 8 s
  unfold groupInto
  generalize bigDataPulses s.pos.order 8 s = g at hp ⊢
  simp only [State.endGroup, State.setPos_pos, hp, hb]
  rfl

/-- The data pulses of a frame take 120 steps. -/
theorem run_groups (hb : s.pos.byteIx = 2) :
    run 120 s = .next ((frameGroups s.pos.order s).setPos
      ({ · with phase := .gHiW, byteIx := 0, bitIx := 7, pulseIx := 0 })) := by
  rw [show 120 = 40 + (40 + 40) by rfl, run_add _ (run_group_two h hi ho hk hb)]
  unfold frameGroups
  generalize hs2 : (groupInto 2 s.pos.order s).setRegs Regs.clearSr = s2
  have p2 : s2.pos = s.pos := by rw [← hs2]; simp
  rw [run_add _ (run_group_one rfl rfl (by simp [p2, ho]) hk rfl), groupInto_setPos]
  simp only [State.setPos_pos, p2]
  generalize hs1 : groupInto 1 s.pos.order s2 = s1
  have p1 : s1.pos = s.pos := by rw [← hs1]; simp [p2]
  have hz := run_group_zero (s := ((s1.setPos ({ · with phase := .dHiW, byteIx := 1, bitIx := 0 })).setRegs
    Regs.clearSr).setPos ({ · with phase := .dHiW, byteIx := 0, bitIx := 0 })) rfl rfl (by simp [p1, ho]) hk rfl
  rw [hz, groupInto_setPos]
  simp only [State.setPos_pos, State.setRegs_pos, p1]
  rw [State.setRegs_setPos, groupInto_setPos, State.setPos_setPos, State.setPos_setPos]

end frame

/-- A frame takes `5*24 + 4*GAIN_CODE` steps, whatever is answered (R232). -/
theorem run_frame {s : State} {op : Op} (h : s.pos.phase = .dHiW) (hb : s.pos.byteIx = 2) (hi : s.pos.bitIx = 0)
    (ho : s.pos.op = some op) (hk : op.kind = .frame) :
    run (5 * 24 + 4 * s.regs.gainCode.pulses) s = .next ((((framePulses s.pos.order s).setRegs
      Regs.assembleFrame).closeFrame.setPos
        ({ · with phase := .gLoD, byteIx := 0, bitIx := 7, pulseIx := s.regs.gainCode.pulses })).endFrame op) := by
  rw [run_add _ (run_groups h hi ho hk hb)]
  unfold framePulses
  generalize hs0 : frameGroups s.pos.order s = s0
  have p0 : s0.pos = s.pos := by rw [← hs0]; simp
  have g0 : s0.regs.gainCode = s.regs.gainCode := by rw [← hs0]; simp
  rw [← g0]
  obtain ⟨left, hl⟩ : ∃ left, s0.regs.gainCode.pulses = left + 1 :=
    ⟨s0.regs.gainCode.pulses - 1, by have := s0.regs.gainCode.pulses_pos; omega⟩
  rw [hl, run_gainPulses left (s := s0.setPos ({ · with phase := .gHiW, byteIx := 0, bitIx := 7, pulseIx := 0 }))
    rfl (by simp [p0, ho]) hk (by simp [hl]), bigClockPulses_setPos]
  simp only [State.setPos_regs, hl]
  rfl

end Sys2Proof.Machine
end

