-- ==== Sys2Proof/Laws/Agreement.lean ====
section
/-! SUPPORT. The sequencer against the big-step rules, wait by wait and frame by frame: each run is as long as the events it makes (R18, R231). -/

namespace Sys2Proof.Machine

/-! ## Runs as long as their events -/

/-- The machine comes from `s` to `t` in as many steps as events were made. -/
structure Reaches (s t : State) : Prop where
  le : s.trace.length ≤ t.trace.length
  run : run (t.trace.length - s.trace.length) s = .next t

theorem Reaches.refl (s : State) : Reaches s s := ⟨le_rfl, by simp⟩

theorem Reaches.trans {s t u : State} (h : Reaches s t) (h' : Reaches t u) : Reaches s u := by
  refine ⟨h.le.trans h'.le, ?_⟩
  have := h.le; have := h'.le
  rw [show u.trace.length - s.trace.length =
    (t.trace.length - s.trace.length) + (u.trace.length - t.trace.length) by omega, run_add _ h.run, h'.run]

theorem Reaches.of_run {s t : State} (k : Nat) (h : Machine.run k s = .next t)
    (hk : t.trace.length = s.trace.length + k) : Reaches s t :=
  ⟨by omega, by rw [hk, Nat.add_sub_cancel_left]; exact h⟩

theorem Reaches.of_step {s t : State} (h : step s = .next t) (hk : t.trace.length = s.trace.length + 1) :
    Reaches s t :=
  .of_run 1 ((run_one s).trans h) hk

/-! ## How many events the big-step rules make -/

@[simp] theorem bigDataPulse_trace_length (o : BitOrder) (i : Fin 8) (s : State) :
    (bigDataPulse o i s).trace.length = s.trace.length + 5 := by simp [bigDataPulse]

@[simp] theorem bigDataPulses_trace_length (o : BitOrder) (n : Nat) (s : State) :
    (bigDataPulses o n s).trace.length = s.trace.length + 5 * n := by
  induction n generalizing s with
  | zero => rfl
  | succ n ih => rw [bigDataPulses, ih, bigDataPulse_trace_length]; ring

@[simp] theorem bigClockPulse_trace_length (s : State) : (bigClockPulse s).trace.length = s.trace.length + 4 := by
  simp [bigClockPulse]

@[simp] theorem bigClockPulses_trace_length (n : Nat) (s : State) :
    (bigClockPulses n s).trace.length = s.trace.length + 4 * n := by
  induction n generalizing s with
  | zero => rfl
  | succ n ih => rw [bigClockPulses, ih, bigClockPulse_trace_length]; ring

@[simp] theorem groupInto_trace_length (ix : Fin 3) (o : BitOrder) (s : State) :
    (groupInto ix o s).trace.length = s.trace.length + 40 := by
  unfold groupInto
  rw [State.setRegs_trace, bigDataPulses_trace_length]

@[simp] theorem framePulses_trace_length (o : BitOrder) (s : State) :
    (framePulses o s).trace.length = s.trace.length + (5 * 24 + 4 * s.regs.gainCode.pulses) := by
  unfold framePulses frameGroups
  rw [bigClockPulses_trace_length, groupInto_trace_length, State.setRegs_trace, groupInto_trace_length,
    State.setRegs_trace, groupInto_trace_length]
  ring

theorem framePulses_setPos (o : BitOrder) (f : Position → Position) (s : State) :
    framePulses o (s.setPos f) = (framePulses o s).setPos f := by
  unfold framePulses frameGroups
  rw [groupInto_setPos, State.setRegs_setPos, groupInto_setPos, State.setRegs_setPos, groupInto_setPos,
    bigClockPulses_setPos]
  rfl

/-! ## The readiness loop -/

@[simp] theorem State.setPos_self {f : Position → Position} {s : State} (h : f s.pos = s.pos) : s.setPos f = s := by
  simp [State.setPos, h]

/-- A failed check and its pause bring WAIT_READY and a frame back to CHK. -/
theorem run_failedCheck {s : State} {op : Op} (h : s.pos.phase = .chk) (ho : s.pos.op = some op)
    (hk : op.kind = .frame ∨ op = .waitReady) (hb : ready s.level = false) :
    run 2 s = .next (s.pinRead.pauseMs s.pollMs) := by
  have hc : step s = .next (s.pinRead.goto .pau) := by
    rw [step_chk h]
    rcases hk with hk | rfl
    · simp [seqChk, ho, hk, hb]
    · simp [seqChk, ho, Op.kind, hb]
  have hp : step (s.pinRead.goto .pau) = .next (((s.pinRead.goto .pau).pauseMs s.pollMs).goto .chk) := by
    rw [step_pau rfl]
    rcases hk with hk | rfl
    · have : s.pollMs = Config.readRawPollMs := by
        unfold State.pollMs; rw [ho]; cases op <;> simp_all [Op.kind]
      simp [seqPau, ho, hk, this]
    · have : s.pollMs = zext s.regs.argA := by unfold State.pollMs; rw [ho]
      simp [seqPau, ho, Op.kind, this]
  rw [run_succ_of_step 1 hc, run_succ_of_step 0 hp, run_zero]
  congr 1
  show (s.pinRead.pauseMs s.pollMs).setPos (fun p => { p with phase := .chk }) = _
  exact State.setPos_self (by show { s.pos with phase := .chk } = s.pos; rw [← h])

theorem bigWaitReady_pos {p fuel : Nat} {s t : State} (h : bigWaitReady p fuel s = some t) : t.pos = s.pos := by
  induction fuel generalizing s with
  | zero => simp [bigWaitReady] at h
  | succ fuel ih =>
    unfold bigWaitReady at h
    split at h
    · cases h; rfl
    · exact (ih h).trans rfl

theorem bigWaitReady_regs {p fuel : Nat} {s t : State} (h : bigWaitReady p fuel s = some t) : t.regs = s.regs := by
  induction fuel generalizing s with
  | zero => simp [bigWaitReady] at h
  | succ fuel ih =>
    unfold bigWaitReady at h
    split at h
    · cases h; rfl
    · exact (ih h).trans rfl

/-- The readiness loop of WAIT_READY and of a frame: the state in which the successful check is made. -/
theorem bigWaitReady_reaches {fuel : Nat} {s t : State} {op : Op} (h : s.pos.phase = .chk) (ho : s.pos.op = some op)
    (hk : op.kind = .frame ∨ op = .waitReady) (hw : bigWaitReady s.pollMs fuel s = some t) :
    ∃ u, Reaches s u ∧ u.pos = s.pos ∧ u.regs = s.regs ∧ ready u.level = true ∧ t = u.pinRead := by
  induction fuel generalizing s with
  | zero => simp [bigWaitReady] at hw
  | succ fuel ih =>
    unfold bigWaitReady at hw
    split at hw
    case isTrue hr => exact ⟨s, .refl s, rfl, rfl, hr, (Option.some.inj hw).symm⟩
    case isFalse hr =>
      obtain ⟨u, hu, hp, hg, hl, e⟩ := ih (s := s.pinRead.pauseMs s.pollMs) h ho hw
      refine ⟨u, Reaches.trans (.of_run 2 (run_failedCheck h ho hk (by simpa using hr)) (by simp)) hu, hp, hg, hl, e⟩

/-- WAIT_READY from its first check. -/
theorem waitReady_reaches {fuel : Nat} {s t : State} (h : s.pos.phase = .chk) (ho : s.pos.op = some .waitReady)
    (hw : bigWaitReady s.pollMs fuel s = some t) : Reaches s (t.respond .none) := by
  obtain ⟨u, hu, hp, -, hl, rfl⟩ := bigWaitReady_reaches h ho (.inr rfl) hw
  refine hu.trans (.of_step ?_ (by simp))
  rw [step_chk (by rw [hp, h])]
  simp [seqChk, hp, ho, Op.kind, hl, waitResponse]

/-! ## A frame -/

/-- A frame operation from its first check to the end of its frame: READ_RAW's big-step rule, then R229. -/
theorem frame_reaches {fuel : Nat} {s t : State} {op : Op} (h : s.pos.phase = .chk) (ho : s.pos.op = some op)
    (hk : op.kind = .frame) (hw : bigReadRaw fuel s = some t) :
    Reaches s ((t.setPos ({ · with
      phase := .gLoD, byteIx := 0, bitIx := 7, pulseIx := s.regs.gainCode.pulses, order := .msb })).endFrame op) := by
  obtain ⟨v, hv, rfl⟩ := Option.map_eq_some_iff.mp hw
  have hpoll : Config.readRawPollMs = s.pollMs := by
    unfold State.pollMs; rw [ho]; cases op <;> simp_all [Op.kind]
  rw [hpoll] at hv
  obtain ⟨u, hu, hp, hg, hl, rfl⟩ := bigWaitReady_reaches h ho (.inl hk) hv
  refine hu.trans (Reaches.trans (t := u.pinRead.startFrame) (.of_step ?_ (by simp [State.startFrame])) ?_)
  · rw [step_chk (by rw [hp, h])]
    simp [seqChk, hp, ho, hk, hl]
  · have hs : u.pinRead.startFrame.regs.gainCode = s.regs.gainCode := by
      rw [← hg]; rfl
    have hrun := run_frame (s := u.pinRead.startFrame) rfl rfl rfl (by rw [← ho, ← hp]; rfl) hk
    rw [hs] at hrun
    have hb : ((framePulses u.pinRead.startFrame.pos.order u.pinRead.startFrame).setRegs
        Regs.assembleFrame).closeFrame =
        (bigFrame u.pinRead).setPos ({ · with phase := .dHiW, byteIx := 2, bitIx := 0, order := .msb }) := by
      rw [bigFrame_eq, show u.pinRead.startFrame.pos.order = .msb from rfl, State.startFrame, framePulses_setPos]
      rfl
    rw [hb, State.setPos_setPos] at hrun
    refine .of_run _ hrun ?_
    have hlen : (bigFrame u.pinRead).trace.length = u.pinRead.trace.length + (5 * 24 + 4 * s.regs.gainCode.pulses) := by
      rw [bigFrame_eq, State.closeFrame_trace, State.setRegs_trace, framePulses_trace_length, ← hs]
      rfl
    have hend : ∀ x : State, (x.endFrame op).trace = x.trace := by
      intro x; cases op <;> rfl
    rw [hend, State.setPos_trace, hlen]
    rfl

/-! ## The bounded waits -/

/-- WAIT_READY_RETRY from its first check, so many attempts left. -/
theorem retry_reaches (left : Nat) {s : State} (h : s.pos.phase = .chk) (ho : s.pos.op = some .waitReadyRetry)
    (hl : (s.regs.attempt : Int) + (left + 1 : Nat) = sext s.regs.argA) :
    Reaches s ((bigRetry (zext s.regs.argB) (left + 1) s).2.respond
      (boolResponse (bigRetry (zext s.regs.argB) (left + 1) s).1)) := by
  induction left generalizing s with
  | zero =>
    unfold bigRetry
    split
    case isTrue hr =>
      refine .of_step ?_ (by simp)
      rw [step_chk h]
      simp [seqChk, ho, Op.kind, hr, waitResponse]
    case isFalse hr =>
      refine .trans (t := s.pinRead.goto .pau) (.of_step ?_ (by simp)) (.of_step ?_ (by simp [bigRetry]))
      · rw [step_chk h]
        simp [seqChk, ho, Op.kind, hr]
      · rw [step_pau rfl]
        have : ¬ ((s.regs.attempt : Int) + 1 < sext s.regs.argA) := by omega
        simp [seqPau, ho, Op.kind, this, bigRetry]
        rfl
  | succ left ih =>
    unfold bigRetry
    split
    case isTrue hr =>
      refine .of_step ?_ (by simp)
      rw [step_chk h]
      simp [seqChk, ho, Op.kind, hr, waitResponse]
    case isFalse hr =>
      have hn : step (s.pinRead.goto .pau) =
          .next ((s.pinRead.pauseMs (zext s.regs.argB)).setRegs Regs.countAttempt) := by
        rw [step_pau rfl]
        have : (s.regs.attempt : Int) + 1 < sext s.regs.argA := by omega
        simp only [seqPau, State.goto_pos, State.pinRead_pos, ho, Op.kind]
        rw [if_pos (by simpa using this)]
        congr 1
        show ((s.pinRead.pauseMs (zext s.regs.argB)).setRegs Regs.countAttempt).setPos
          (fun p => { p with phase := .chk }) = _
        exact State.setPos_self (by show { s.pos with phase := .chk } = s.pos; rw [← h])
      refine .trans (t := s.pinRead.goto .pau) (.of_step ?_ (by simp)) (.trans (.of_step hn (by simp)) ?_)
      · rw [step_chk h]
        simp [seqChk, ho, Op.kind, hr]
      · exact ih (s := (s.pinRead.pauseMs (zext s.regs.argB)).setRegs Regs.countAttempt) h ho
          (by simp only [State.setRegs_regs, State.pauseMs_regs, State.pinRead_regs, Regs.countAttempt_attempt,
                Regs.countAttempt_argA]; push_cast at hl ⊢; omega)

/-- WAIT_READY_TIMEOUT from the head of a round. -/
theorem timeout_reaches {fuel : Nat} {s t : State} {b : Bool} (h : s.pos.phase = .tq)
    (ho : s.pos.op = some .waitReadyTimeout)
    (hw : bigTimeout (zext s.regs.argA) (zext s.regs.argB) fuel s = some (b, t)) :
    Reaches s (t.respond (boolResponse b)) := by
  induction fuel generalizing s with
  | zero => simp [bigTimeout] at hw
  | succ fuel ih =>
    unfold bigTimeout at hw
    split at hw
    case isFalse he =>
      cases hw
      refine .of_step ?_ (by simp)
      rw [step_tq h, seqTq, if_neg he]
    case isTrue he =>
      have hq : step s = .next (s.nowMs.goto .chk) := by rw [step_tq h, seqTq, if_pos he]
      have hlv : (s.nowMs.goto .chk).level = s.nowMs.level := rfl
      split at hw
      case isTrue hr =>
        cases hw
        refine .trans (.of_step hq (by simp)) (.of_step ?_ (by simp))
        rw [step_chk rfl]
        simp only [seqChk, State.goto_pos, State.nowMs_pos, ho, Op.kind, hlv, hr, if_pos]
        rfl
      case isFalse hr =>
        refine .trans (.of_step hq (by simp)) (.trans (t := (s.nowMs.goto .chk).pinRead.goto .pau)
          (.of_step ?_ (by simp)) (.trans (t := s.nowMs.pinRead.pauseMs (zext s.regs.argB))
            (.of_step ?_ (by simp)) (ih h ho hw)))
        · rw [step_chk rfl]
          simp [seqChk, ho, Op.kind, hlv, hr]
        · rw [step_pau rfl]
          simp only [seqPau, State.goto_pos, State.pinRead_pos, State.nowMs_pos, ho, Op.kind]
          congr 1
          show (s.nowMs.pinRead.pauseMs (zext s.regs.argB)).setPos (fun p => { p with phase := .tq }) = _
          exact State.setPos_self (by show { s.pos with phase := .tq } = s.pos; rw [← h])

/-! ## The means -/

theorem bigDataPulses_regs_frame (o : BitOrder) (n : Nat) (s : State) :
    (bigDataPulses o n s).regs.argA = s.regs.argA ∧ (bigDataPulses o n s).regs.count = s.regs.count := by
  obtain ⟨sr, h⟩ := bigDataPulses_regs o n s
  simp [h]

theorem groupInto_regs_frame (ix : Fin 3) (o : BitOrder) (s : State) :
    (groupInto ix o s).regs.argA = s.regs.argA ∧ (groupInto ix o s).regs.count = s.regs.count := by
  have h := bigDataPulses_regs_frame o 8 s
  unfold groupInto
  rw [State.setRegs_regs]
  unfold Regs.storeByte
  split <;> exact h

/-- READ_RAW leaves the operand latch, the count of frames and the gain alone. -/
theorem bigReadRaw_frame {fuel : Nat} {s t : State} (h : bigReadRaw fuel s = some t) :
    t.pos = s.pos ∧ t.regs.argA = s.regs.argA ∧ t.regs.count = s.regs.count := by
  obtain ⟨v, hv, rfl⟩ := Option.map_eq_some_iff.mp h
  have hp := bigWaitReady_pos hv
  have hg := bigWaitReady_regs hv
  rw [bigFrame_eq]
  refine ⟨by rw [State.closeFrame_pos, State.setRegs_pos, framePulses_pos, State.setRegs_pos, State.openFrame_pos, hp], ?_⟩
  rw [State.closeFrame_regs, State.setRegs_regs, Regs.assembleFrame_argA, Regs.assembleFrame_count]
  unfold framePulses frameGroups
  rw [bigClockPulses_regs]
  simp only [groupInto_regs_frame, State.setRegs_regs, State.openFrame_regs, Regs.clearSr_argA, Regs.clearSr_count, hg, and_self]

theorem bigSamples_frame {fuel : Nat} (left : Nat) {s t : State} (h : bigSamples fuel left s = some t) :
    t.pos = s.pos ∧ t.regs.argA = s.regs.argA := by
  induction left generalizing s with
  | zero => cases h; exact ⟨rfl, rfl⟩
  | succ left ih =>
    rw [bigSamples] at h
    split at h
    · simp at h
    case h_2 v hv =>
      obtain ⟨hp, ha, -⟩ := bigReadRaw_frame hv
      obtain ⟨hp', ha'⟩ := ih h
      exact ⟨hp'.trans hp, ha'.trans ha⟩

/-- A frame of a mean, its yield made and counted, and what is decided then (R230). -/
theorem sample_reaches {fuel : Nat} {s v : State} {op : Op} (h : s.pos.phase = .chk) (ho : s.pos.op = some op)
    (hm : op.takesMean = true) (hw : bigReadRaw fuel s = some v) :
    ∃ (p : Position) (u : State), p.op = some op ∧ Reaches s u ∧ v.trace.length = u.trace.length ∧
      step u =
        (let w := (((v.setRegs Regs.addSample).pauseMs Config.yieldMs).setRegs Regs.countSample).setPos fun _ => p
         if (s.regs.count : Int) + 1 < meanCount (some op) s.regs.argA then .next (w.goto .chk)
         else w.endMean op (meanCount (some op) s.regs.argA)) := by
  have hk : op.kind = .frame := by cases op <;> simp_all [Op.takesMean, Op.kind]
  have hend : ∀ x : State, x.endFrame op = (x.setRegs Regs.addSample).goto .avgY := by
    intro x; cases op <;> simp_all [Op.takesMean, State.endFrame]
  obtain ⟨hp, ha, hc⟩ := bigReadRaw_frame hw
  have hr := frame_reaches h ho hk hw
  rw [hend] at hr
  refine ⟨{ v.pos with
    phase := .avgY, byteIx := 0, bitIx := 7, pulseIx := s.regs.gainCode.pulses, order := .msb }, _,
    (by rw [← ho, ← hp]), hr, by simp, ?_⟩
  rw [step_avgY rfl]
  simp only [seqAvgY, State.goto_pos, State.goto_regs, State.setRegs_pos, State.setPos_pos, State.setRegs_regs,
    State.setPos_regs, State.pauseMs_regs, hp, ho, Regs.addSample_argA, ha, Regs.countSample_count,
    Regs.addSample_count, hc]
  push_cast
  have hvo : v.pos.op = some op := by rw [hp, ho]
  simp only [State.goto, State.setPos, State.setRegs, State.pauseMs, hvo]
  rfl

/-- The frames left of a mean, from the check of the next one to the decision after the last (R196, R230). -/
theorem samples_reaches (left : Nat) {fuel : Nat} {s t : State} {op : Op} (h : s.pos.phase = .chk)
    (ho : s.pos.op = some op) (hm : op.takesMean = true)
    (hl : (s.regs.count : Int) + (left + 1 : Nat) = meanCount (some op) s.regs.argA)
    (hw : bigSamples fuel (left + 1) s = some t) :
    ∃ (p : Position) (u : State), Reaches s u ∧ t.trace.length = u.trace.length + 1 ∧
      step u = (t.setPos fun _ => p).endMean op (meanCount (some op) s.regs.argA) := by
  induction left generalizing s t with
  | zero =>
    rw [bigSamples] at hw
    split at hw
    case h_1 => simp at hw
    case h_2 v hv =>
      simp only [bigSamples, Option.some.injEq] at hw
      obtain ⟨p, u, -, hu, hlen, hstep⟩ := sample_reaches h ho hm hv
      rw [if_neg (by push_cast at hl; omega)] at hstep
      refine ⟨p, u, hu, by rw [← hw]; simp [hlen], ?_⟩
      rw [hstep, ← hw]
  | succ left ih =>
    rw [bigSamples] at hw
    split at hw
    case h_1 => simp at hw
    case h_2 v hv =>
      obtain ⟨hp, ha, hc⟩ := bigReadRaw_frame hv
      obtain ⟨p, u, hpo, hu, hlen, hstep⟩ := sample_reaches h ho hm hv
      rw [if_pos (by push_cast at hl; omega)] at hstep
      generalize hw' : ((v.setRegs Regs.addSample).pauseMs Config.yieldMs).setRegs Regs.countSample = w at hw hstep
      have hwl : w.trace.length = u.trace.length + 1 := by rw [← hw']; simp [hlen]
      have hwa : w.regs.argA = s.regs.argA := by rw [← hw']; exact ha
      have hwc : w.regs.count = s.regs.count + 1 := by rw [← hw']; show v.regs.count + 1 = _; rw [hc]
      have hsp := (bystander_setPos fun _ => { p with phase := .chk }).bigSamples fuel (left + 1) w
      rw [hw] at hsp
      obtain ⟨q, x, hx, hxl, hxs⟩ := ih (s := w.setPos fun _ => { p with phase := .chk }) rfl hpo
        (by rw [State.setPos_regs, hwa, hwc]; push_cast at hl ⊢; omega) hsp
      refine ⟨q, x, hu.trans (.trans (.of_step hstep (by simp [hwl])) hx), hxl, ?_⟩
      rw [hxs, State.setPos_regs, hwa]
      rfl

/-! ## Both semantics from acceptance to response -/

/-- An accepted command is its latched state with another position (R217). -/
theorem accept_standing (op : Op) (a b : Word) (ph : Phase) (s : State) :
    s.accept op a b ph = (s.latched a b).standing { s.pos with op := some op, phase := ph } true := rfl

/-- A response given by the sequencer is the big-step answer, the position aside. -/
theorem respond_same (p : Position) (r : Response) (f : Position → Position) (t : State) (hb : t.busy = false) :
    (t.answer r).sameButPosition (((t.standing p true).setPos f).respond r) := by
  unfold State.sameButPosition State.answer State.standing State.respond State.setPos
  simp [hb]

/-- What looks at neither BUSY nor the position leaves both alone. -/
theorem keeps_busy {F : State → Option State} (hF : ∀ g, Bystander g → ∀ s, F (g s) = (F s).map g) {s t : State}
    (h : F s = some t) : t.busy = s.busy ∧ t.pos = s.pos := by
  have := hF _ (bystander_standing s.pos s.busy) s
  rw [show s.standing s.pos s.busy = s from rfl, h] at this
  simp only [Option.map_some, Option.some.injEq] at this
  constructor <;> rw [this] <;> rfl

/-- The frame of an accepted operation, from its first check to its end, both ways (R140, R219 to R229). -/
theorem frame_agrees {fuel : Nat} {l v : State} {op : Op} (hk : op.kind = .frame) (hb : l.busy = false)
    (hv : bigReadRaw fuel l = some v) (p : Position) (hp : p.phase = .chk) (ho : p.op = some op) :
    Reaches (l.standing p true) (((v.standing p true).setPos ({ · with
      phase := .gLoD, byteIx := 0, bitIx := 7, pulseIx := l.regs.gainCode.pulses, order := .msb })).endFrame op) ∧
    v.busy = false := by
  refine ⟨frame_reaches (fuel := fuel) (s := l.standing p true) hp ho hk ?_, ?_⟩
  · rw [(bystander_standing p true).bigReadRaw, hv]; rfl
  · rw [(keeps_busy (fun g hg s => hg.bigReadRaw fuel s) hv).1, hb]

/-- SET_GAIN after its acceptance, and BEGIN through it, both ways (R183, R218). -/
theorem setGain_agrees {fuel : Nat} {l v : State} {op : Op} (hk : op = .begin ∨ op = .setGain) (w : Word)
    (hb : l.busy = false) (hv : bigSetGain w fuel l = some v) (p : Position) (hp : p.phase = .sgLow)
    (ho : p.op = some op) :
    ∃ q : Position, Reaches ((l.setRegs (Regs.selectGain w)).standing p true) ((v.standing q true).respond .none) ∧
      v.busy = false := by
  have hkf : op.kind = .frame := by rcases hk with rfl | rfl <;> rfl
  obtain ⟨h, h'⟩ := frame_agrees (p := { p with phase := .chk }) hkf (by exact hb) hv rfl ho
  have he : ∀ x : State, x.endFrame op = x.respond .none := by rcases hk with rfl | rfl <;> intro x <;> rfl
  rw [he] at h
  refine ⟨_, .trans (.of_step
    (t := ((l.setRegs (Regs.selectGain w)).pinWrite false).standing { p with phase := .chk } true) ?_
    (by simp [State.standing])) h, h'⟩
  rw [step_sgLow hp]
  rfl

end Sys2Proof.Machine
end

