-- ==== Sys2Proof/Laws/Converter.lean ====
section
/-! SUPPORT. The attached converter, phase by phase: what time, the clock line and the bounds of a frame make of it, and what a read of the data line finds (R50, R57, R263 to R267). -/

namespace Sys2Proof.Machine

variable {c : Converter}

/-- A read leaves the converter as it is, so that the next one finds it in the same state (R50). -/
@[simp] theorem Env.afterRead_conv (e : Env) : e.afterRead.conv = e.conv := rfl

/-- Two reads with no time between them that an attached converter answers are answered alike (R50). -/
theorem Env.level_afterRead (e : Env) (high : Bool)
    (h : e.conv.any fun c => c.level high e.highUs e.tooLong true == c.level high e.highUs e.tooLong false) :
    e.afterRead.level high = e.level high := by
  unfold Env.level
  rw [Env.afterRead_conv]
  cases hc : e.conv with
  | none => simp [hc] at h
  | some c =>
    have hb : ∀ b, c.level high e.highUs e.tooLong b = c.level high e.highUs e.tooLong true := by
      intro b; cases b <;> simp_all
    show c.level high e.highUs e.tooLong _ = c.level high e.highUs e.tooLong _
    rw [hb, hb (e.levels.next Config.freeLevel)]

/-- Time bears on a conversion in progress only. -/
theorem Converter.wait_of_ne (us : Nat) (h : c.phase ≠ .converting) : c.wait us = c := by
  unfold Converter.wait
  split <;> simp_all

/-- A conversion that has had its time is latched, converted under the selection committed last (R64, R266). -/
theorem Converter.wait_converting {us left : Nat} {v : BitVec 24} {more : List Conversion}
    (h : c.phase = .converting) (hu : c.upcoming = ⟨left, v⟩ :: more) (hl : left ≤ us) :
    c.wait us = { c with phase := .latched v, convertedUnder := c.selection, upcoming := more } := by
  unfold Converter.wait
  simp [h, hu, hl]

/-- A frame that starts from a latched result counts its pulses from 0 (R57). -/
theorem Converter.openFrame_latched {v : BitVec 24} (h : c.phase = .latched v) :
    c.openFrame = { c with phase := .shifting v 0 } := by
  unfold Converter.openFrame; simp [h]

/-- A pulse of a frame (R264). -/
theorem Converter.rise_shifting {v : BitVec 24} {k : Nat} (h : c.phase = .shifting v k) :
    c.rise = { c with phase := .shifting v (k + 1) } := by
  unfold Converter.rise; simp [h]

/-- A frame that finds no result latched, whatever the converter was doing (U12). -/
theorem Converter.openFrame_unready (h : ∀ v, c.phase ≠ .latched v) : c.openFrame.phase = .unready 0 := by
  unfold Converter.openFrame
  split <;> simp_all [Converter.openUnready]

/-- A pulse of a frame that started from no latched result. -/
theorem Converter.rise_unready {k : Nat} (h : c.phase = .unready k) :
    c.rise = { c with phase := .unready (k + 1) } := by
  unfold Converter.rise; simp [h]

/-- A pulse of a frame after a power-down (R267). -/
theorem Converter.rise_poweredDown {k : Nat} (h : c.phase = .poweredDown k) :
    c.rise = { c with phase := .poweredDown (k + 1) } := by
  unfold Converter.rise; simp [h]

/-- A pulse outside a whole frame: from here on the converter is where the oracle has it (R57, D24, U12). -/
theorem Converter.rise_outside_frame (h : ∀ v k, c.phase ≠ .shifting v k) (hu : ∀ k, c.phase ≠ .unready k)
    (hp : ∀ k, c.phase ≠ .poweredDown k) : c.rise.phase = .unknown := by
  unfold Converter.rise
  split <;> simp_all [Converter.lost]

/-- A high interval taken as power-down, inside a frame (R267). -/
theorem Converter.powerDown_shifting {v : BitVec 24} {k : Nat} (h : c.phase = .shifting v k) :
    c.powerDown = { c with phase := .poweredDown k, selection := none } := by
  unfold Converter.powerDown; simp [h]

/-- A high interval taken as power-down, inside a frame that started from no latched result (R267, U5). -/
theorem Converter.powerDown_unready {k : Nat} (h : c.phase = .unready k) :
    c.powerDown = { c with phase := .poweredDown k } := by
  unfold Converter.powerDown; simp [h]

/-- A whole frame commits the selection that its pulses after the 24th stand for (R265, R266). -/
theorem Converter.closeFrame_shifting {v : BitVec 24} (g : GainCode) (h : c.phase = .shifting v (24 + g.pulses)) :
    c.closeFrame = { c with phase := .converting, selection := some g } := by
  unfold Converter.closeFrame
  cases g <;> simp [h, GainCode.pulses, GainCode.ofPulses]

/-- A latched result holds the data line low (R263). -/
theorem Converter.level_latched (us : Nat) (tooLong free : Bool) {v : BitVec 24} (h : c.phase = .latched v) :
    c.level false us tooLong free = false := by
  unfold Converter.level; simp [h]

/-- In pulse `k` of the 24 the data line has bit `24 - k` of the result, short of a power-down (R264, R292). -/
theorem Converter.level_shifting {us k : Nat} (free : Bool) {v : BitVec 24} (h : c.phase = .shifting v k)
    (hk : k ≤ 24) (hm : Config.tHiMin ≤ us) : c.level true us false free = v.getLsbD (24 - k) := by
  unfold Converter.level; simp [h, hk, hm]

/-- After a power-down the data line is 1 in the pulses left of the 24 (R267). -/
theorem Converter.level_poweredDown {k : Nat} (us : Nat) (tooLong free : Bool) (h : c.phase = .poweredDown k) (hk : k ≤ 24) :
    c.level true us tooLong free = true := by
  unfold Converter.level; simp [h, hk]

/-- An interval up to T_PD_SAFE is never taken as power-down (R292). -/
theorem Env.not_tooLong {e : Env} (h : e.highUs ≤ Config.tPdSafe) : e.tooLong = false := by
  unfold Env.tooLong
  rw [decide_eq_false (by simp only [Config.tPd, Config.tPdSafe] at *; omega), decide_eq_false (by omega)]; rfl

/-- An interval above T_PD always is (R267, R292). -/
theorem Env.tooLong_of_lt {e : Env} (h : Config.tPd < e.highUs) : e.tooLong = true := by
  unfold Env.tooLong; simp [h]

/-- Where nothing is known of the converter, every answer is the oracle's (R262). -/
theorem Converter.level_unknown (high : Bool) (us : Nat) (tooLong free : Bool) (h : c.phase = .unknown) :
    c.level high us tooLong free = free := by
  unfold Converter.level; simp [h]

end Sys2Proof.Machine
end

