-- ==== Sys2Proof/Laws/Operands.lean ====
section
/-! SUPPORT. Bits of a written bit, and the assembly of a frame as sign extension (R10, R54, R144 to R147). -/

namespace Sys2Proof.Machine

/-- The bits of a byte with one bit written (R54). -/
theorem getLsbD_setBit (v : Byte) (i : Fin 8) (b : Bool) (j : Nat) (hj : j < 8) :
   (setBit v i b).getLsbD j = if j = i.val then b else v.getLsbD j := by
  have := i.isLt
  by_cases h : j = i.val
  · cases b <;> simp [setBit, h, i.isLt]
  · have h2 : j < i.val ∨ ¬ j - i.val = 0 := by omega
    have h3 : ¬ (¬ j < i.val ∧ j - i.val = 0) := by omega
    cases b <;> rcases h2 with h2 | h2 <;> simp [setBit, hj, h, h2]

theorem fillOf_cases (b : Byte) : fillOf b = 0x00 ∨ fillOf b = 0xFF := by unfold fillOf; split <;> simp

/-- The assembly is the four bytes side by side (R145). -/
theorem assemble_append (f a b c : Byte) : assemble f a b c = (f ++ a ++ b ++ c : BitVec 32) := by
  unfold assemble
  apply BitVec.eq_of_getLsbD_eq; intro i hi
  have : ∀ x : BitVec 32, x = (f ++ a ++ b ++ c : BitVec (8+8+8+8)) → x.getLsbD i = (f ++ a ++ b ++ c : BitVec (8+8+8+8)).getLsbD i := by rintro x rfl; rfl
  rw [this (f ++ a ++ b ++ c) rfl]
  simp only [BitVec.getLsbD_or, BitVec.getLsbD_shiftLeft, BitVec.getLsbD_setWidth, BitVec.getLsbD_append, hi, decide_true, Bool.true_and]
  have hz : ∀ (x : Byte) j, 8 ≤ j → x.getLsbD j = false := fun x j hj => BitVec.getLsbD_of_ge x j hj
  split_ifs with h1 h2 h3
  · simp [h1, show i < 24 by omega, show i < 16 by omega]
  · simp [h1, show i < 24 by omega, show i < 16 by omega, hz c i (by omega), show i - 8 < 32 by omega]
  · simp [h1, show i < 24 by omega, show ¬ i < 16 by omega, hz c i (by omega), hz b (i-8) (by omega), show i - 8 - 8 = i - 16 by omega, show i - 16 < 32 by omega]
  · simp [show ¬ i < 24 by omega, show ¬ i < 16 by omega, hz c i (by omega), hz b (i-8) (by omega),hz a (i-16) (by omega), show ¬ i < 8 by omega, show i - 8 - 8 - 8 = i - 24 by omega, show i - 24 < 32 by omega]


/-- The fill byte before the three bytes is their sign extension (R144, R147). -/
theorem fillOf_append (b2 b1 b0 : Byte) : (fillOf b2 ++ b2 ++ b1 ++ b0 : BitVec 32) =
    (b2 ++ b1 ++ b0 : BitVec 24).signExtend 32 := by
  have hm : (b2 ++ b1 ++ b0 : BitVec 24).msb = b2.getLsbD 7 := by
    rw [BitVec.msb_eq_getLsbD_last]
    show (b2 ++ b1 ++ b0 : BitVec (8+8+8)).getLsbD 23 = _
    rw [BitVec.getLsbD_append, BitVec.getLsbD_append]; rfl
  apply BitVec.eq_of_getLsbD_eq; intro i hi
  rw [BitVec.getLsbD_signExtend, hm]
  have e1 : (fillOf b2 ++ b2 ++ b1 ++ b0 : BitVec 32).getLsbD i = (fillOf b2 ++ b2 ++ b1 ++ b0 : BitVec (8+8+8+8)).getLsbD i := rfl
  have e2 : (b2 ++ b1 ++ b0 : BitVec 24).getLsbD i = (b2 ++ b1 ++ b0 : BitVec (8+8+8)).getLsbD i := rfl
  rw [e1, e2, BitVec.getLsbD_append, BitVec.getLsbD_append, BitVec.getLsbD_append, BitVec.getLsbD_append, BitVec.getLsbD_append]
  simp only [hi, decide_true, Bool.true_and]
  split_ifs <;> first | rfl | omega | skip
  unfold fillOf
  have h8 : i - 8 - 8 - 8 < 8 := by omega
  split
  · rename_i hb
    have : ∀ j < 8, (0xFF : Byte).getLsbD j = true := by decide
    rw [this _ h8, hb]
  · rename_i hb
    simp only [Bool.not_eq_true] at hb
    rw [hb]; simp

end Sys2Proof.Machine
end

