-- ==== Sys2Proof/Laws/Effects.lean ====
section
/-! SUPPORT. What each big-step rule does, said once: its events, the answers it draws, the registers and the lines it leaves. No converter is attached: every answer is the script's (R262). -/

namespace Sys2Proof.Machine

/-! ## What a stretch of collaborator calls does, with no converter on the lines -/

/-- From `s` to `t` the data line answered `ls`, these events were made, and nothing else but registers and lines changed. -/
structure State.Did (s t : State) (ls : List Bool) (events : List Event) : Prop where
  trace : t.trace = s.trace ++ events
  levels : s.env.levels.script = ls ++ t.env.levels.script
  conv : t.env.conv = none
  clock : t.env.clock = s.env.clock
  lastMs : t.env.lastMs = s.env.lastMs
  exactNum : t.env.exactNum = s.env.exactNum
  responses : t.responses = s.responses
  cmds : t.cmds = s.cmds
  busy : t.busy = s.busy
  pos : t.pos = s.pos

theorem State.Did.refl {s : State} (h : s.env.conv = none) : s.Did s [] [] := by
  constructor <;> simp [h]

theorem State.Did.trans {s t u : State} {ls ls' : List Bool} {es es' : List Event} (h : s.Did t ls es)
    (h' : t.Did u ls' es') : s.Did u (ls ++ ls') (es ++ es') where
  trace := by rw [h'.trace, h.trace, List.append_assoc]
  levels := by rw [h.levels, h'.levels, List.append_assoc]
  conv := h'.conv
  clock := h'.clock.trans h.clock
  lastMs := h'.lastMs.trans h.lastMs
  exactNum := h'.exactNum.trans h.exactNum
  responses := h'.responses.trans h.responses
  cmds := h'.cmds.trans h.cmds
  busy := h'.busy.trans h.busy
  pos := h'.pos.trans h.pos

theorem State.Did.setRegs {s t : State} {ls : List Bool} {es : List Event} (h : s.Did t ls es) (f : Regs → Regs) :
    s.Did (t.setRegs f) ls es := by
  obtain ⟨h1, h2, h3, h4, h5, h6, h7, h8, h9, h10⟩ := h
  exact ⟨h1, h2, h3, h4, h5, h6, h7, h8, h9, h10⟩

/-- The answers left, once those that were given are known. -/
theorem State.Did.left {s t : State} {ls rest : List Bool} {es : List Event} (h : s.Did t ls es)
    (hs : s.env.levels.script = ls ++ rest) : t.env.levels.script = rest :=
  List.append_cancel_left (h.levels.symm.trans hs)

section calls
variable {s : State} (h : s.env.conv = none)
include h

theorem pinWrite_did (b : Bool) : s.Did (s.pinWrite b) [] [.write s.regs.clockPin b] := by
  constructor <;> try rfl
  all_goals
    show _ = _
    simp only [State.pinWrite_env, Env.clockLine]
    cases s.sckLevel <;> cases b <;> simp [Env.pass, Env.fall, Env.rise, h]

theorem delayUs_did (n : Nat) : s.Did (s.delayUs n) [] [.delay n] := by
  constructor <;> first | rfl | (show Option.map _ s.env.conv = none; rw [h]; rfl)

theorem pauseMs_did (n : Nat) : s.Did (s.pauseMs n) [] [.pause n] := by
  constructor <;> first | rfl | (show Option.map _ s.env.conv = none; rw [h]; rfl)

/-- With no converter on the lines a frame's start changes nothing. -/
theorem openFrame_eq : s.openFrame = s := by
  show ({ s with env := { s.env with conv := Option.map _ s.env.conv } } : State) = s
  rw [h, Option.map_none, ← h]

/-- With no converter on the lines a frame's end changes nothing. -/
theorem closeFrame_eq : s.closeFrame = s := by
  show ({ s with env := { s.env with conv := Option.map _ s.env.conv } } : State) = s
  rw [h, Option.map_none, ← h]

theorem level_eq {b : Bool} {more : List Bool} (hl : s.env.levels.script = b :: more) : s.level = b := by
  simp [State.level, Env.level, Env.pass, h, Answers.next, hl]

theorem pinRead_did {b : Bool} {more : List Bool} (hl : s.env.levels.script = b :: more) :
    s.Did s.pinRead [b] [.read s.regs.dataPin b] := by
  constructor <;> try rfl
  · rw [State.pinRead_trace, level_eq h hl]
  · show _ = [b] ++ s.env.levels.script.tail; rw [hl]; rfl
  · show Option.map _ s.env.conv = none; rw [h]; rfl

end calls

/-- A reading of the millisecond clock puts no converter on the lines. -/
theorem nowMs_conv {s : State} (h : s.env.conv = none) : s.nowMs.env.conv = none := by
  show Option.map _ s.env.conv = none
  rw [h]; rfl

theorem State.Did.of_setRegs {s t : State} {f : Regs → Regs} {ls : List Bool} {es : List Event}
    (h : (s.setRegs f).Did t ls es) : s.Did t ls es := by
  obtain ⟨h1, h2, h3, h4, h5, h6, h7, h8, h9, h10⟩ := h
  exact ⟨h1, h2, h3, h4, h5, h6, h7, h8, h9, h10⟩

/-! ## Pulses -/

/-- The lines after pulses: the clock pin low. -/
def State.ClockLow (s t : State) : Prop :=
  t.sckLevel = .low ∧ t.pins = s.pins.write s.regs.clockPin.toNat false

theorem State.ClockLow.setRegs {s t : State} (h : s.ClockLow t) (f : Regs → Regs) : s.ClockLow (t.setRegs f) := h

theorem State.ClockLow.trans {s t u : State} (h : s.ClockLow t) (h' : t.ClockLow u)
    (hp : t.regs.clockPin = s.regs.clockPin) : s.ClockLow u :=
  ⟨h'.1, by rw [h'.2, h.2, hp, Memory.write_write]⟩

/-- SR after the samples of the last rounds of SHIFT_BYTE's loop, as many as `samples` has (R120). -/
def storeSamples (o : BitOrder) : List Bool → Byte → Byte
  | [], sr => sr
  | b :: more, sr => storeSamples o more (setBit sr (bitPosition o (Fin.ofNat 8 (7 - more.length))) b)

/-- A whole group packs to its value (R121). -/
theorem storeSamples_group (o : BitOrder) {samples : List Bool} (h : samples.length = 8) :
    storeSamples o samples 0 = BitVec.ofNat 8 (groupValue o samples) := by
  match samples, h with
  | [b7, b6, b5, b4, b3, b2, b1, b0], _ =>
    revert b7 b6 b5 b4 b3 b2 b1 b0
    cases o <;> decide

/-- One data pulse (R122). -/
theorem bigDataPulse_did {s : State} (h : s.env.conv = none) (o : BitOrder) (i : Fin 8) {b : Bool}
    {more : List Bool}
    (hl : s.env.levels.script = b :: more) :
    s.Did (bigDataPulse o i s) [b] (pulseEvents s.regs.clockPin s.regs.dataPin b) ∧
      (bigDataPulse o i s).regs = s.regs.storeBit o i b ∧ s.ClockLow (bigDataPulse o i s) := by
  have d1 := (pinWrite_did h true).trans (delayUs_did (pinWrite_did h true).conv Config.tHiMin)
  have hl1 := d1.left (ls := []) hl
  have d2 := d1.trans (pinRead_did d1.conv hl1)
  have d3 := d2.trans (pinWrite_did d2.conv false)
  have d4 := d3.trans (delayUs_did d3.conv Config.tLoMin)
  refine ⟨d4.setRegs _, ?_, rfl, ?_⟩
  · unfold bigDataPulse
    simp only [State.setRegs_regs, level_eq d1.conv hl1]
    rfl
  · show (s.pins.write s.regs.clockPin.toNat true).write s.regs.clockPin.toNat false = _
    rw [Memory.write_write]

/-- The data pulses left of a group (R120). -/
theorem bigDataPulses_did (o : BitOrder) (samples : List Bool) (hs : samples.length ≤ 8) {s : State}
    (h : s.env.conv = none) {more : List Bool}
    (hl : s.env.levels.script = samples ++ more) (hne : samples ≠ []) :
    s.Did (bigDataPulses o samples.length s) samples (samples.flatMap (pulseEvents s.regs.clockPin s.regs.dataPin)) ∧
      (bigDataPulses o samples.length s).regs = { s.regs with sr := storeSamples o samples s.regs.sr } ∧
      s.ClockLow (bigDataPulses o samples.length s) := by
  induction samples generalizing s with
  | nil => exact absurd rfl hne
  | cons b rest ih =>
    obtain ⟨d, hr, hc⟩ := bigDataPulse_did h o (Fin.ofNat 8 (7 - rest.length)) hl
    rw [List.length_cons, bigDataPulses]
    cases rest with
    | nil => exact ⟨by simpa [bigDataPulses] using d, hr, hc⟩
    | cons b' rest' =>
    obtain ⟨d', hr', hc'⟩ := ih (by simp at hs ⊢; omega) d.conv (d.left hl) (by simp)
    rw [hr] at d' hr'
    refine ⟨d.trans d', ?_, hc.trans hc' (by rw [hr]; rfl)⟩
    rw [hr']; rfl

/-- SHIFT_BYTE (R120 to R122). -/
theorem bigShiftByte_did (o : BitOrder) {samples : List Bool} (hs : samples.length = 8) {s : State}
    (h : s.env.conv = none) {more : List Bool}
    (hl : s.env.levels.script = samples ++ more) :
    s.Did (bigShiftByte o s) samples (samples.flatMap (pulseEvents s.regs.clockPin s.regs.dataPin)) ∧
      (bigShiftByte o s).regs = { s.regs with sr := BitVec.ofNat 8 (groupValue o samples) } ∧
      s.ClockLow (bigShiftByte o s) := by
  obtain ⟨d, hr, hc⟩ := bigDataPulses_did o samples (by omega) (s := s.setRegs Regs.clearSr) h hl (by rintro rfl; simp at hs)
  rw [hs, show (s.setRegs Regs.clearSr).regs.sr = 0 from rfl, storeSamples_group o hs] at hr
  rw [hs] at d hc
  exact ⟨d.of_setRegs, hr, hc⟩

/-- CLOCK_PULSE (R125, R126). -/
theorem bigClockPulse_did {s : State} (h : s.env.conv = none) :
    s.Did (bigClockPulse s) [] (gainEvents s.regs.clockPin) ∧ (bigClockPulse s).regs = s.regs ∧ s.ClockLow (bigClockPulse s) := by
  have d1 := (pinWrite_did h true).trans (delayUs_did (pinWrite_did h true).conv Config.tHiMin)
  have d2 := d1.trans (pinWrite_did d1.conv false)
  refine ⟨d2.trans (delayUs_did d2.conv Config.tLoMin), rfl, rfl, ?_⟩
  exact Memory.write_write _ _ _ _

/-- So many CLOCK_PULSEs (R143). -/
theorem bigClockPulses_did (n : Nat) {s : State} (h : s.env.conv = none) (hn : 0 < n) :
    s.Did (bigClockPulses n s) [] (List.replicate n (gainEvents s.regs.clockPin)).flatten ∧
      s.ClockLow (bigClockPulses n s) := by
  induction n generalizing s with
  | zero => cases hn
  | succ n ih =>
    obtain ⟨d, hr, hc⟩ := bigClockPulse_did h
    rw [bigClockPulses]
    rcases Nat.eq_zero_or_pos n with rfl | hn
    · exact ⟨by simpa [bigClockPulses] using d, hc⟩
    · obtain ⟨d', hc'⟩ := ih d.conv hn
      exact ⟨d.trans d', hc.trans hc' rfl⟩

/-! ## A frame -/

/-- Eight samples, most significant first, as bits of a byte. -/
def byteBits (b : Byte) : List Bool := (List.range 8).map fun k => b.getLsbD (7 - k)

theorem msbValue_byteBits (b : Byte) : BitVec.ofNat 8 (msbValue (byteBits b)) = b := by
  have key : ∀ b7 b6 b5 b4 b3 b2 b1 b0 : Bool, ∀ j : Fin 8, (BitVec.ofNat 8 (msbValue [b7, b6, b5, b4, b3, b2, b1, b0])).getLsbD j =
      [b0, b1, b2, b3, b4, b5, b6, b7][j] := by decide
  apply BitVec.eq_of_getLsbD_eq
  intro i hi
  have h := key (b.getLsbD 7) (b.getLsbD 6) (b.getLsbD 5) (b.getLsbD 4) (b.getLsbD 3) (b.getLsbD 2) (b.getLsbD 1) (b.getLsbD 0) ⟨i, hi⟩
  refine Eq.trans h ?_
  interval_cases i <;> rfl

theorem bits_eq (v : BitVec 24) : bits v = byteBits (v.extractLsb' 16 8) ++
    (byteBits (v.extractLsb' 8 8) ++ byteBits (v.extractLsb' 0 8)) := by
  simp [bits, byteBits, List.range, List.range.loop]

theorem bits_length (v : BitVec 24) : (bits v).length = 24 := by simp [bits]

/-- The registers after the frame's bytes and their assembly. -/
theorem assembleFrame_afterFrame (v : BitVec 24) (r : Regs) (h2 : r.byte2 = v.extractLsb' 16 8)
    (h1 : r.byte1 = v.extractLsb' 8 8) (h0 : r.byte0 = v.extractLsb' 0 8) :
    fillOf r.byte2 = (if v.msb then 0xFF else 0x00) ∧
      assemble (fillOf r.byte2) r.byte2 r.byte1 r.byte0 = v.signExtend 32 := by
  have hv : (r.byte2 ++ r.byte1 ++ r.byte0 : BitVec 24) = v := by
    rw [h2, h1, h0]
    apply BitVec.eq_of_getLsbD_eq
    intro i hi
    have e : (v.extractLsb' 16 8 ++ v.extractLsb' 8 8 ++ v.extractLsb' 0 8 : BitVec 24).getLsbD i =
        (v.extractLsb' 16 8 ++ v.extractLsb' 8 8 ++ v.extractLsb' 0 8 : BitVec (8 + 8 + 8)).getLsbD i := rfl
    rw [e, BitVec.getLsbD_append, BitVec.getLsbD_append]
    simp only [BitVec.getLsbD_extractLsb']
    split_ifs
    · simp [*]
    · rw [show 8 + (i - 8) = i by omega]; simp; omega
    · rw [show 16 + (i - 8 - 8) = i by omega]; simp; omega
  refine ⟨?_, by rw [assemble_append, fillOf_append, hv]⟩
  have hm : v.msb = r.byte2.getLsbD 7 := by rw [h2, BitVec.msb_eq_getLsbD_last]; simp
  rw [hm]; rfl

/-- One byte of a frame: shifted in and stored (R142). -/
theorem bigByte_did (ix : Fin 3) (x : Byte) {s : State} (h : s.env.conv = none) {more : List Bool}
    (hl : s.env.levels.script = byteBits x ++ more) : ∃ t, (bigShiftByte .msb s).setRegs (Regs.storeByte ix) = t ∧
    s.Did t (byteBits x) ((byteBits x).flatMap (pulseEvents s.regs.clockPin s.regs.dataPin)) ∧
      t.regs = Regs.storeByte ix { s.regs with sr := x } ∧ s.ClockLow t := by
  obtain ⟨d, r, c⟩ := bigShiftByte_did .msb (samples := byteBits x) rfl h hl
  rw [groupValue, msbValue_byteBits] at r
  exact ⟨_, rfl, d.setRegs _, by rw [State.setRegs_regs, r], c.setRegs _⟩

/-- Steps 2 to 5 of READ_RAW (R142 to R149). -/
theorem bigFrame_did {s : State} (h : s.env.conv = none) (v : BitVec 24) {more : List Bool}
    (hl : s.env.levels.script = bits v ++ more) :
    s.Did (bigFrame s) (bits v) (frameEvents s.regs.clockPin s.regs.dataPin (bits v) s.regs.gainCode) ∧
      (bigFrame s).regs = s.regs.afterFrame v ∧ s.ClockLow (bigFrame s) := by
  rw [bits_eq, List.append_assoc, List.append_assoc] at hl
  obtain ⟨s2, e2, d2, r2, c2⟩ := bigByte_did 2 (v.extractLsb' 16 8) h hl
  obtain ⟨s1, e1, d1, r1, c1⟩ := bigByte_did 1 (v.extractLsb' 8 8) d2.conv (d2.left hl)
  have d1 := d2.trans d1
  obtain ⟨s0, e0, d0, r0, c0⟩ := bigByte_did 0 (v.extractLsb' 0 8) d1.conv (d1.left (by rw [List.append_assoc]; exact hl))
  have d0 := d1.trans d0
  obtain ⟨dg, cg⟩ := bigClockPulses_did s0.regs.gainCode.pulses d0.conv s0.regs.gainCode.pulses_pos
  have hb : bigFrame s = (bigClockPulses s0.regs.gainCode.pulses s0).setRegs Regs.assembleFrame := by
    unfold bigFrame
    rw [openFrame_eq h]
    simp only [e2, e1, e0]
    exact closeFrame_eq dg.conv
  have k0 : s0.regs = { s.regs with
      sr := v.extractLsb' 0 8, byte2 := v.extractLsb' 16 8, byte1 := v.extractLsb' 8 8, byte0 := v.extractLsb' 0 8 } := by
    rw [r0, r1, r2]; rfl
  have p2 : s2.regs.clockPin = s.regs.clockPin := by rw [r2]; rfl
  have p1 : s1.regs.clockPin = s.regs.clockPin := by rw [r1, r2]; rfl
  have p0 : s0.regs.clockPin = s.regs.clockPin := by rw [k0]
  have q2 : s2.regs.dataPin = s.regs.dataPin := by rw [r2]; rfl
  have q1 : s1.regs.dataPin = s.regs.dataPin := by rw [r1, r2]; rfl
  have g0 : s0.regs.gainCode = s.regs.gainCode := by rw [k0]
  rw [p2, p1, q2, q1] at d0
  rw [hb]
  refine ⟨?_, ?_, ((c2.trans c1 p2).trans c0 p1 |>.trans cg p0).setRegs _⟩
  · have := (d0.trans dg).setRegs Regs.assembleFrame
    rw [p0, g0] at this
    rw [bits_eq, frameEvents, g0]
    simpa [List.flatMap_append] using this
  · rw [State.setRegs_regs, bigClockPulses_regs, k0]
    obtain ⟨hf, ha⟩ := assembleFrame_afterFrame v { s.regs with
      sr := v.extractLsb' 0 8, byte2 := v.extractLsb' 16 8, byte1 := v.extractLsb' 8 8, byte0 := v.extractLsb' 0 8 } rfl rfl rfl
    unfold Regs.assembleFrame Regs.afterFrame
    rw [ha, hf]

/-! ## Waits -/

theorem failedChecks_succ (d : PinId) (p k : Nat) : failedChecks d p (k + 1) =
    [.read d true, .pause p] ++ failedChecks d p k := by
  simp [failedChecks, List.replicate_succ]

/-- WAIT_READY, `k` checks failing first (R160, R161). -/
theorem bigWaitReady_did (p k : Nat) {s : State} (h : s.env.conv = none) {more : List Bool}
    (hl : s.env.levels.script = List.replicate k true ++ [false] ++ more) : ∃ t,
    bigWaitReady p (k + 1) s = some t ∧ s.Did t (List.replicate k true ++ [false]) (waitEvents s.regs.dataPin p k) ∧
    t.regs = s.regs ∧ t.sckLevel = s.sckLevel ∧ t.pins = s.pins := by
  induction k generalizing s with
  | zero =>
    rw [bigWaitReady, level_eq h hl]
    exact ⟨_, rfl, pinRead_did h hl, rfl, rfl, rfl⟩
  | succ k ih =>
    have d := pinRead_did h hl
    have d := d.trans (pauseMs_did d.conv p)
    obtain ⟨t, ht, d', hr, hk, hp⟩ := ih (s := s.pinRead.pauseMs p) d.conv (d.left (by simpa [List.replicate_succ] using hl))
    rw [bigWaitReady, level_eq h hl]
    refine ⟨t, ht, ?_, hr, hk, hp⟩
    have := d.trans d'
    rw [waitEvents, failedChecks_succ]
    simpa [List.replicate_succ, waitEvents] using this

/-- READ_RAW (R140 to R149). -/
theorem bigReadRaw_did (f : FrameToCome) {s : State} (h : s.env.conv = none) {more : List Bool}
    (hl : s.env.levels.script = f.levels ++ more) : ∃ t, bigReadRaw (f.failed + 1) s = some t ∧
    s.Did t f.levels (readRawEvents s.regs.clockPin s.regs.dataPin f.failed (bits f.value) s.regs.gainCode) ∧
    t.regs = s.regs.afterFrame f.value ∧ s.ClockLow t := by
  have hlev : f.levels = List.replicate f.failed true ++ [false] ++ bits f.value := by simp [FrameToCome.levels]
  rw [hlev] at hl ⊢
  obtain ⟨u, hu, d, hr, hk, hp⟩ := bigWaitReady_did Config.readRawPollMs f.failed h (more := bits f.value ++ more) (by rw [hl]; simp)
  obtain ⟨d', hr', hc⟩ := bigFrame_did d.conv f.value (more := more) (d.left (by rw [hl]; simp))
  refine ⟨bigFrame u, by rw [bigReadRaw, hu]; rfl, ?_, by rw [hr', hr], hc.1, by rw [hc.2, hr, hp]⟩
  have := d.trans d'
  rw [hr] at this
  exact this

/-- More fuel changes nothing. -/
theorem bigWaitReady_mono {p fuel fuel' : Nat} {s t : State} (hf : fuel ≤ fuel')
    (h : bigWaitReady p fuel s = some t) :
    bigWaitReady p fuel' s = some t := by
  induction fuel generalizing fuel' s with
  | zero => simp [bigWaitReady] at h
  | succ fuel ih =>
    obtain ⟨f, rfl⟩ : ∃ f, fuel' = f + 1 := ⟨fuel' - 1, by omega⟩
    rw [bigWaitReady] at h ⊢
    split at h
    · rw [if_pos (by assumption)]; exact h
    · rw [if_neg (by assumption)]; exact ih (by omega) h

theorem bigReadRaw_mono {fuel fuel' : Nat} {s t : State} (hf : fuel ≤ fuel') (h : bigReadRaw fuel s = some t) :
    bigReadRaw fuel' s = some t := by
  obtain ⟨v, hv, rfl⟩ := Option.map_eq_some_iff.mp h
  rw [bigReadRaw, bigWaitReady_mono hf hv]; rfl


/-! ## Means -/

theorem afterFrame_result (v : BitVec 24) (r : Regs) : (r.afterFrame v).result.toInt = v.toInt :=
  BitVec.toInt_signExtend_of_le (by decide)

/-- A frame of a mean, its yield and its bookkeeping (R196, R198). -/
theorem bigSample_did (f : FrameToCome) {s : State} (h : s.env.conv = none) {more : List Bool}
    (hl : s.env.levels.script = f.levels ++ more) {fuel : Nat}
    (hf : f.failed < fuel) : ∃ v t, bigReadRaw fuel s = some v ∧
    ((v.setRegs Regs.addSample).pauseMs Config.yieldMs).setRegs Regs.countSample = t ∧
    s.Did t f.levels (readRawEvents s.regs.clockPin s.regs.dataPin f.failed (bits f.value) s.regs.gainCode ++ [.pause Config.yieldMs]) ∧
    t.regs = ({ s.regs with sum := s.regs.sum + f.value.toInt, count := s.regs.count + 1 } : Regs).afterFrame f.value ∧ s.ClockLow t := by
  obtain ⟨v, hv, d, r, c⟩ := bigReadRaw_did f h hl
  refine ⟨v, _, bigReadRaw_mono (by omega) hv, rfl, ?_, ?_, c⟩
  · have := ((d.setRegs Regs.addSample).trans (pauseMs_did (s := v.setRegs Regs.addSample) d.conv Config.yieldMs)).setRegs Regs.countSample
    simpa using this
  · rw [State.setRegs_regs, State.pauseMs_regs, State.setRegs_regs, r]
    unfold Regs.addSample Regs.countSample
    rw [afterFrame_result]
    rfl

/-- The frames of a mean (R196). -/
theorem bigSamples_did (before : List FrameToCome) (f : FrameToCome) {s : State} (h : s.env.conv = none)
    {more : List Bool}
    (hl : s.env.levels.script = (before ++ [f]).flatMap FrameToCome.levels ++ more) {fuel : Nat}
    (hf : ∀ g ∈ before ++ [f], g.failed < fuel) : ∃ t, bigSamples fuel (before.length + 1) s = some t ∧
    s.Did t ((before ++ [f]).flatMap FrameToCome.levels) (meanEvents s.regs.clockPin s.regs.dataPin s.regs.gainCode (before ++ [f])) ∧
    t.regs = ({ s.regs with sum := s.regs.sum + frameSum (before ++ [f]), count := s.regs.count + (before.length + 1) } : Regs).afterFrame f.value ∧
    s.ClockLow t := by
  induction before generalizing s with
  | nil =>
    obtain ⟨v, t, hv, ht, d, r, c⟩ := bigSample_did f h (more := more) (by simpa using hl) (hf f (by simp))
    refine ⟨t, ?_, by simpa [meanEvents] using d, ?_, c⟩
    · simp only [List.length_nil, bigSamples, hv, ht]
    · rw [r]; simp [frameSum]
  | cons g rest ih =>
    obtain ⟨v, u, hv, hu, d, r, c⟩ := bigSample_did g h (more := (rest ++ [f]).flatMap FrameToCome.levels ++ more) (by simpa using hl) (hf g (by simp))
    obtain ⟨t, ht, d', r', c'⟩ := ih d.conv (d.left (by simpa using hl)) (fun x hx => hf x (by simp at hx ⊢; tauto))
    refine ⟨t, ?_, ?_, ?_, c.trans c' (by rw [r]; rfl)⟩
    · simp only [List.length_cons, bigSamples, hv, hu]; exact ht
    · have := d.trans d'
      rw [r] at this
      simpa [meanEvents, Regs.afterFrame] using this
    · rw [r', r]
      simp only [Regs.afterFrame, frameSum, List.cons_append, List.map_cons, List.sum_cons, List.length_cons]
      congr 1 <;> omega

/-! ## Bounded waits -/

/-- WAIT_READY_RETRY that succeeds after `k` failed checks (R163). -/
theorem bigRetry_did (p : Nat) (k left : Nat) (hk : k < left) {s : State} (h : s.env.conv = none) {more : List Bool}
    (hl : s.env.levels.script = List.replicate k true ++ [false] ++ more) : ∃ t,
    bigRetry p left s = (true, t) ∧ s.Did t (List.replicate k true ++ [false]) (waitEvents s.regs.dataPin p k) ∧
    t.regs = { s.regs with attempt := s.regs.attempt + k } ∧ t.sckLevel = s.sckLevel ∧ t.pins = s.pins := by
  induction k generalizing s left with
  | zero =>
    obtain ⟨l, rfl⟩ : ∃ l, left = l + 1 := ⟨left - 1, by omega⟩
    rw [bigRetry, level_eq h hl]
    exact ⟨_, rfl, pinRead_did h hl, rfl, rfl, rfl⟩
  | succ k ih =>
    obtain ⟨l, rfl⟩ : ∃ l, left = l + 1 := ⟨left - 1, by omega⟩
    have d := pinRead_did h hl
    have d := (d.trans (pauseMs_did d.conv p)).setRegs Regs.countAttempt
    obtain ⟨t, ht, d', hr, hk, hp⟩ := ih l (by omega) d.conv (d.left (by simpa [List.replicate_succ] using hl))
    rw [bigRetry, level_eq h hl]
    refine ⟨t, ht, ?_, ?_, hk, hp⟩
    · have := d.trans d'
      rw [waitEvents, failedChecks_succ]
      simpa [List.replicate_succ, waitEvents] using this
    · rw [hr]; simp only [State.setRegs_regs, State.pauseMs_regs, State.pinRead_regs, Regs.countAttempt]
      congr 1; omega

/-- WAIT_READY_RETRY that runs out of attempts (R163 to R165). -/
theorem bigRetry_fails_did (p : Nat) (k : Nat) {s : State} (h : s.env.conv = none) {more : List Bool}
    (hl : s.env.levels.script = List.replicate k true ++ more) : ∃ t,
    bigRetry p k s = (false, t) ∧ s.Did t (List.replicate k true) (failedChecks s.regs.dataPin p k) ∧
    t.regs = { s.regs with attempt := s.regs.attempt + k } ∧ t.sckLevel = s.sckLevel ∧ t.pins = s.pins := by
  induction k generalizing s with
  | zero => exact ⟨s, rfl, .refl h, rfl, rfl, rfl⟩
  | succ k ih =>
    have d := pinRead_did h hl
    have d := (d.trans (pauseMs_did d.conv p)).setRegs Regs.countAttempt
    obtain ⟨t, ht, d', hr, hk, hp⟩ := ih d.conv (d.left (by simpa [List.replicate_succ] using hl))
    rw [bigRetry, level_eq h hl]
    refine ⟨t, ht, ?_, ?_, hk, hp⟩
    · have := d.trans d'
      rw [failedChecks_succ]
      simpa [List.replicate_succ] using this
    · rw [hr]; simp only [State.setRegs_regs, State.pauseMs_regs, State.pinRead_regs, Regs.countAttempt]
      congr 1; omega

/-! ## WAIT_READY_TIMEOUT -/

/-- The rounds of WAIT_READY_TIMEOUT: failed checks, each begun before the deadline, then the clock's last reading and, while that is
before the deadline, a check that reads low (R167, R168). -/
structure Rounds (s t : State) (left : List Bool) (more : List Nat) (events : List Event) : Prop where
  trace : t.trace = s.trace ++ events
  levels : t.env.levels.script = left
  clock : t.env.clock.script = more
  responses : t.responses = s.responses
  cmds : t.cmds = s.cmds
  busy : t.busy = s.busy
  regs : t.regs = s.regs
  sckLevel : t.sckLevel = s.sckLevel
  pins : t.pins = s.pins

/-- WAIT_READY_TIMEOUT's loop (R167, R168). -/
theorem bigTimeout_rounds (m p : Nat) (advances : List Nat) (last : Nat) (more : List Nat) (ok : Bool)
    (rest : List Bool) {s : State}
    (h : s.env.conv = none) (hc : s.env.clock.script = advances ++ last :: more)
    (hl : s.env.levels.script = List.replicate advances.length true ++ (if ok then [false] else []) ++ rest)
    (h0 : s.regs.t0 ≤ s.env.lastMs)
    (hm : ∀ j, 0 < j → j ≤ advances.length → s.env.lastMs + (advances.take j).sum < s.regs.t0 + m)
    (hk : ok = true ↔ s.env.lastMs + advances.sum + last < s.regs.t0 + m) :
    ∃ t, bigTimeout m p (advances.length + 1) s = some (ok, t) ∧
      Rounds s t rest more (timeoutRounds s.regs.dataPin p s.env.lastMs advances ++
        .now (s.env.lastMs + advances.sum + last) :: (if ok then [.read s.regs.dataPin false] else [])) := by
  induction advances generalizing s with
  | nil =>
    simp only [List.length_nil, List.nil_append, List.sum_nil, Nat.add_zero, List.replicate_zero] at *
    have hcm : s.clockMs = s.env.lastMs + last := by simp [State.clockMs, Env.nowMs, Answers.next, hc]
    rw [bigTimeout, hcm]
    cases ok with
    | true =>
      rw [if_pos (by have := hk.mp rfl; omega), level_eq (s := s.nowMs) (more := rest) (nowMs_conv h) hl]
      refine ⟨_, rfl, ?_⟩
      constructor <;> try rfl
      · show s.trace ++ [.now s.clockMs] ++ [.read s.regs.dataPin s.nowMs.level] = _
        rw [level_eq (s := s.nowMs) (more := rest) (nowMs_conv h) hl, hcm]; simp [timeoutRounds]
      · show s.env.levels.script.tail = rest; rw [hl]; rfl
      · show s.env.clock.script.tail = more; rw [hc]; rfl
    | false =>
      rw [if_neg (by intro hx; have := hk.mpr (by omega); cases this)]
      refine ⟨_, rfl, ?_⟩
      constructor <;> try rfl
      · show s.trace ++ [.now s.clockMs] = _; rw [hcm]; simp [timeoutRounds]
      · show s.env.levels.script = rest; rw [hl]; rfl
      · show s.env.clock.script.tail = more; rw [hc]; rfl
  | cons a advances ih =>
    have hcm : s.clockMs = s.env.lastMs + a := by simp [State.clockMs, Env.nowMs, Answers.next, hc]
    have hlm : (s.nowMs.pinRead.pauseMs p).env.lastMs = s.env.lastMs + a := hcm
    have h1 := hm 1 (by omega) (by simp)
    simp at h1
    have hlv : s.nowMs.level = true := level_eq (s := s.nowMs) (more := List.replicate advances.length true ++ (if ok then [false] else []) ++ rest) (nowMs_conv h) (by rw [State.nowMs_env]; show s.env.levels.script = _; rw [hl]; simp [List.replicate_succ])
    obtain ⟨t, ht, r⟩ := ih (s := s.nowMs.pinRead.pauseMs p) (by show Option.map _ (Option.map _ s.nowMs.env.conv) = none; rw [nowMs_conv h]; rfl)
      (by show s.env.clock.script.tail = _; rw [hc]; rfl)
      (by show s.env.levels.script.tail = _; rw [hl]; simp [List.replicate_succ])
      (by rw [hlm]; show s.regs.t0 ≤ _; omega)
      (by intro j hj hj'; rw [hlm]; have := hm (j + 1) (by omega) (by simp; omega); simp at this; show _ < s.regs.t0 + m; omega)
      (by rw [hlm, hk]; simp only [List.sum_cons]; show _ ↔ _ < s.regs.t0 + m; omega)
    refine ⟨t, ?_, ?_⟩
    · rw [List.length_cons, bigTimeout, hcm, if_pos (by omega), hlv]; exact ht
    · obtain ⟨r1, r2, r3, r4, r5, r6, r7, r8, r9⟩ := r
      refine ⟨?_, r2, r3, r4, r5, r6, r7, r8, r9⟩
      rw [r1, hlm]
      simp only [State.pauseMs_trace, State.pinRead_trace, State.nowMs_trace, hcm, hlv, timeoutRounds, List.sum_cons, Nat.add_assoc]
      simp
end Sys2Proof.Machine
end

