-- ==== Sys2Proof/Laws/Encoding.lean ====
section
/-! SUPPORT. The fields of a packed command word, and the opcode of a decoded one (R96, R97). -/

namespace Sys2Proof

/-- A packed word bit by bit (R96). -/
theorem pack_getLsbD (op : BitVec 4) (a b : Word) (i : Nat) :
    (pack op a b).getLsbD i = if i < 32 then b.getLsbD i else if i < 64 then a.getLsbD (i - 32) else op.getLsbD
    (i - 64) := by
  have : (pack op a b).getLsbD i = (op ++ a ++ b : BitVec (4+32+32)).getLsbD i := rfl
  rw [this, BitVec.getLsbD_append, BitVec.getLsbD_append]
  split_ifs <;> first | rfl | omega

theorem operandA_pack (op : BitVec 4) (a b : Word) : operandA (pack op a b) = a := by
  apply BitVec.eq_of_getLsbD_eq; intro i hi
  simp only [operandA, BitVec.getLsbD_extractLsb', pack_getLsbD, hi]
  simp [show ¬ 32 + i < 32 by omega, show 32 + i < 64 by omega]

theorem operandB_pack (op : BitVec 4) (a b : Word) : operandB (pack op a b) = b := by
  apply BitVec.eq_of_getLsbD_eq; intro i hi
  simp only [operandB, BitVec.getLsbD_extractLsb', pack_getLsbD, hi]
  simp only [Nat.zero_add, hi, decide_true, if_pos, Bool.true_and]

/-- The operation is told from `cmd[67:64]` (R96, R97). -/
theorem opcode_decode (w : CommandWord) : (decode w).opcode = w.extractLsb' 64 4 := by
  apply BitVec.eq_of_getLsbD_eq; intro i hi
  unfold decode
  have : (w.extractLsb' 64 4).getLsbD i = w.getLsbD (64+i) := by simp [hi]
  rw [this]
  cases h3 : w.getLsbD 67 <;> cases h2 : w.getLsbD 66 <;> cases h1 : w.getLsbD 65 <;> cases h0 : w.getLsbD 64 <;>
    simp only [Instr.opcode] <;> interval_cases i <;> simp_all

/-- A packed mask selects field by field. -/
theorem and_pack (w : CommandWord) (m : BitVec 4) (ma mb : Word) :
   w &&& pack m ma mb = pack (w.extractLsb' 64 4 &&& m) (operandA w &&& ma) (operandB w &&& mb) := by
  apply BitVec.eq_of_getLsbD_eq; intro i hi
  simp only [BitVec.getLsbD_and, pack_getLsbD, operandA, operandB, BitVec.getLsbD_extractLsb']
  split_ifs
  · simp [*]
  · rw [show 32 + (i - 32) = i by omega]; simp [show i - 32 < 32 by omega]
  · rw [show 64 + (i - 64) = i by omega]; simp [show i - 64 < 4 by omega]

/-- The format follows from the opcode (R97). -/
theorem usedBits_opcode : ∀ i j : Instr, i.opcode = j.opcode → i.usedBits = j.usedBits := by
  intro i j; cases i <;> cases j <;> simp [Instr.opcode, Instr.usedBits]

end Sys2Proof
end

