-- ==== Sys2Proof/Laws/Frame.lean ====
section
/-! SUPPORT. Acceptance and the sequencer's steps, each said once: what they leave alone, the call they make, and the registers that only some of them write. -/

namespace Sys2Proof.Machine

/-! ## Acceptance (R217) -/

/-- A command offered to a busy block changes nothing (R30; log entry 14). -/
theorem exec_busy (i : Instr) (s : State) (h : s.busy = true) : exec i s = .next s := by
  cases i <;> simp [exec, execBegin, execIsReady, execSetGain, execReadRaw, execWaitReady, execWaitReadyRetry,
    execWaitReadyTimeout, execReadAverage, execGetUnits, execTare, execSetScale, execSetOffset, execShiftByte,
    execClockPulse, execReserved0, execReservedF, State.offered, h]

/-- A configured, idle block takes the command. -/
theorem offered_configured {s : State} (hb : s.busy = false) (hl : s.regs.lifecycle = .configured)
    (take : State → State) : s.offered (State.whenConfigured take) = .next (take s) := by
  simp [State.offered, State.whenConfigured, hb, hl]

/-- An Uninitialized block refuses it (R254). -/
theorem offered_uninitialized {s : State} (hb : s.busy = false) (hl : s.regs.lifecycle = .uninitialized)
    (take : State → State) : s.offered (State.whenConfigured take) = .next (s.refuse .notConfigured) := by
  simp [State.offered, State.whenConfigured, hb, hl]

/-- What acceptance leaves alone, and which registers only some commands write. -/
structure ExecFrame (i : Instr) (s t : State) : Prop where
  cmds : t.cmds = s.cmds
  trace : t.trace = s.trace
  pins : t.pins = s.pins
  sckLevel : t.sckLevel = s.sckLevel
  env : t.env = s.env
  scale : t.regs.scale = s.regs.scale
  offset : t.regs.offset ≠ s.regs.offset → ∃ v, i = .setOffset v
  gainCode : t.regs.gainCode ≠ s.regs.gainCode → (∃ c d, i = .begin c d) ∨ ∃ g, i = .setGain g
  bound : (t.regs.lifecycle = s.regs.lifecycle ∧ t.regs.clockPin = s.regs.clockPin ∧ t.regs.dataPin = s.regs.dataPin) ∨
    ∃ c d, i = .begin c d ∧ t.regs.lifecycle = .configured ∧ t.regs.clockPin = c ∧ t.regs.dataPin = d

/-- Every command is answered with a next state. -/
theorem exec_frame (i : Instr) (s : State) : ∃ t, exec i s = .next t ∧ ExecFrame i s t := by
  by_cases hb : s.busy = true
  · exact ⟨s, exec_busy i s hb, by constructor <;> simp⟩
  · cases i <;> simp only [exec, execBegin, execIsReady, execSetGain, execReadRaw, execWaitReady, execWaitReadyRetry,
    execWaitReadyTimeout, execReadAverage, execGetUnits, execTare, execSetScale, execSetOffset, execShiftByte,
    execClockPulse, execReserved0, execReservedF, State.offered, hb, State.whenConfigured, State.whenCounted] <;>
    refine ⟨_, rfl, ?_⟩ <;> cases hl : s.regs.lifecycle <;> (try simp only [State.acceptMean]) <;> (try split) <;>
    constructor <;> simp [hl]

/-! ## The sequencer (R215 to R230) -/

/-- What a sequencer step leaves alone, the call it makes, and which registers only some steps write. -/
structure SequencerFrame (s t : State) : Prop where
  cmds : t.cmds = s.cmds
  trace : t.trace = s.trace ++ s.phaseCall
  lifecycle : t.regs.lifecycle = s.regs.lifecycle
  clockPin : t.regs.clockPin = s.regs.clockPin
  dataPin : t.regs.dataPin = s.regs.dataPin
  gainCode : t.regs.gainCode = s.regs.gainCode
  offset : t.regs.offset ≠ s.regs.offset → s.pos.phase = .avgY ∧ s.pos.op = some .tare
  scale : t.regs.scale ≠ s.regs.scale → s.pos.phase = .avgY ∧ s.pos.op = some .setScale
  pins : t.pins = s.pins ∨ s.pos.phase ∈ [.sgLow, .dHiW, .dLoW, .gHiW, .gLoW] ∧
    ∃ b, t.pins = s.pins.write s.regs.clockPin.toNat b

theorem sequencer_frame {s t : State} (h : sequencer s = .next t) : SequencerFrame s t := by
  cases hph : s.pos.phase <;> simp only [sequencer, hph] at h
  case idle => cases h; constructor <;> simp [State.phaseCall, hph]
  case sgLow | dHiW | dLoW | gHiW | gLoW => cases h; constructor <;> simp [State.phaseCall, hph]
  case dHiD | gHiD | tq0 => cases h; constructor <;> simp [State.phaseCall, hph]
  case dSmp => cases h; constructor <;> simp [State.phaseCall, hph]
  case tq =>
    unfold seqTq at h
    cases h; split <;> constructor <;> simp [State.phaseCall, hph]
  case chk =>
    unfold seqChk at h
    split at h
    · cases h
    · split at h
      · cases h; constructor <;> simp [State.phaseCall, hph]
      · cases h; split <;> constructor <;> simp [State.phaseCall, hph]
      · cases h; split <;> constructor <;> simp [State.phaseCall, hph, State.startFrame]
      · cases h
  case pau =>
    unfold seqPau at h
    split at h
    · cases h
    case h_2 op ho =>
      cases op <;> simp only [Op.kind] at h <;> cases h
      case waitReadyRetry => split <;> constructor <;> simp [State.phaseCall, hph, State.pollMs, ho]
      all_goals constructor <;> simp [State.phaseCall, hph, State.pollMs, ho]
  case dLoD =>
    unfold seqDLoD at h
    simp only at h
    split at h
    · cases h; constructor <;> simp [State.phaseCall, hph]
    · split at h
      · cases h
      case h_2 op ho =>
        cases op <;> simp only [Op.kind] at h <;> cases h
        case shiftByte => constructor <;> simp [State.phaseCall, hph]
        all_goals
          unfold State.endGroup
          simp only
          split <;> constructor <;> simp_all [State.phaseCall, Regs.storeByte]
  case gLoD =>
    unfold seqGLoD at h
    simp only at h
    split at h
    · cases h
    case h_2 op ho =>
      cases op <;> simp only [Op.kind] at h <;> cases h
      case clockPulse => constructor <;> simp [State.phaseCall, hph]
      all_goals split <;> constructor <;> simp [State.phaseCall, hph, State.endFrame]
  case avgY =>
    unfold seqAvgY at h
    simp only at h
    split at h
    · cases h
    case h_2 op ho =>
      split at h
      · cases h; constructor <;> simp [State.phaseCall, hph]
      · cases op <;> simp only [State.endMean] at h <;> cases h <;> constructor <;> simp [State.phaseCall, hph, ho]

/-- A step is a sequencer step, or the acceptance of the word at the port. -/
theorem step_cases {s t : State} (h : step s = .next t) :
    (SequencerFrame s t ∧ (s.pos.phase = .idle → t = s)) ∨
      ∃ w, s.pos.phase = .idle ∧ s.busy = false ∧ s.cmds.head? = some w ∧ ∃ u, exec (decode w) s = .next u ∧ t = u.taken := by
  unfold step at h
  split at h
  case h_1 w hw =>
    right
    refine ⟨w, ?_⟩
    unfold State.offeredWord at hw
    split at hw
    · obtain ⟨u, hu, -⟩ := exec_frame (decode w) s
      rw [hu] at h
      cases h
      simp [*]
    · cases hw
  case h_2 => exact .inl ⟨sequencer_frame h, fun hp => by simpa [sequencer, hp, eq_comm] using h⟩

end Sys2Proof.Machine
end

