-- ==== Sys2Proof/Laws/Invariant.lean ====
section
/-! SUPPORT. The machine's invariant: what it says inside an operation, and how it is kept by the three kinds of step: an operation starts, goes on, or ends. -/

namespace Sys2Proof.Machine

theorem State.Inv.configured {s : State} (hi : s.Inv)
    (hp : s.pos.phase ≠ .idle) : s.regs.lifecycle = .configured := by
    cases h : s.regs.lifecycle with
    | configured => rfl
    | uninitialized => exact absurd (hi.lifecycle h) hp

theorem State.Inv.isBusy {s : State} (hi : s.Inv) (hp : s.pos.phase ≠ .idle) : s.busy = true := by
    rw [hi.busy]; simp [hp]

/-- Inside an operation, past the first write, the line is high exactly in the phases that R216 says. -/
theorem State.Inv.level {s : State} (hi : s.Inv) (hp : s.pos.phase ≠ .idle) (hg : s.pos.phase ≠ .sgLow) :
    s.sckLevel = Line.ofBool s.pos.phase.clockHigh := by
  have h := hi.line
  unfold State.lineFits at h
  cases hs : s.sckLevel <;> simp [hs] at h
  · simp_all
  · simp [h, Line.ofBool]
  · simp [h, Line.ofBool]

theorem State.Inv.pin {s : State} (hi : s.Inv) (hp : s.pos.phase ≠ .idle) (hg : s.pos.phase ≠ .sgLow) :
    s.pins.read s.regs.clockPin.toNat = some s.pos.phase.clockHigh := by
  rw [hi.clockPin (hi.configured hp) hg, hi.level hp hg]
  cases s.pos.phase.clockHigh <;> rfl

theorem State.Inv.op {s : State} (hi : s.Inv)
    (hp : s.pos.phase ≠ .idle) : ∃ op, s.pos.op = some op ∧ op.visits s.pos.phase = true := by
  have h := hi.position
  unfold Position.coherent at h
  cases ho : s.pos.op with
  | none => simp [ho] at h; exact absurd h hp
  | some op => exact ⟨op, rfl, by simpa [ho] using h⟩

theorem State.lineFits_of {t : State} (hc : t.regs.lifecycle = .configured)
    (hl : t.sckLevel = Line.ofBool t.pos.phase.clockHigh) : t.lineFits = true := by
  unfold State.lineFits
  rw [hl]
  cases h : t.pos.phase.clockHigh <;> simp [Line.ofBool, hc]

/-- Inside an operation that goes on. -/
theorem State.Inv.go {s t : State} (hi : s.Inv) (hp : s.pos.phase ≠ .idle) (hq : t.pos.phase ≠ .idle)
   (sr b2 b1 b0 : Byte) (hregs : t.regs = { s.regs with sr := sr, byte2 := b2, byte1 := b1, byte0 := b0 })
    (hop : t.pos.op = s.pos.op)
    (hpulse : t.pos.phase.isGain = true → t.pos.pulseIx < if s.pos.op = some .clockPulse then 1 else s.regs.gainCode.pulses)
    (horder : t.pos.phase.isData = true → s.pos.phase.isData = true ∧ t.pos.order = s.pos.order ∨ t.pos.order = .msb)
    (hbusy : t.busy = s.busy) (hclock : s.pos.op = some .waitReadyTimeout → s.pos.phase ≠ .tq0)
    (hlast : s.env.lastMs ≤ t.env.lastMs)
    (hvis : ∀ op, s.pos.op = some op → op.visits s.pos.phase = true → op.visits t.pos.phase = true)
    (hline : t.sckLevel = Line.ofBool t.pos.phase.clockHigh) (hwf : t.pins.wf = true)
    (hread : t.pins.read s.regs.clockPin.toNat = some t.pos.phase.clockHigh) (ha : t.pos.phase ≠ .avgY)
    (ha' : s.pos.phase ≠ .avgY) : t.Inv := by
  have hc := hi.configured hp
  obtain ⟨op, ho, hv⟩ := hi.op hp
  have hto := hop.trans ho
  constructor
  · rw [hbusy, hi.isBusy hp]; simp [hq]
  · unfold Position.coherent; rw [hto]; exact hvis op ho hv
  · exact State.lineFits_of (by rw [hregs]; exact hc) hline
  · intro h; rw [hregs] at h; rw [show s.regs.lifecycle = .uninitialized from h] at hc; cases hc
  · rw [hop, hregs]; exact hpulse
  · rw [hop, hregs]; exact hi.attempts
  · rw [hop, hregs]; intro h _; exact le_trans (hi.clock h (hclock h)) hlast
  · rw [hop, hregs]; exact hi.frames
  · rw [hop, hregs]; intro o h hm; have := hi.sum o h hm; rw [if_neg ha'] at this; rw [if_neg ha]; exact this
  · rw [hop]; intro o h hk hd; rcases horder hd with ⟨h1, h2⟩ | h2; rw [h2]; exact hi.order o h hk h1; exact h2
  · rw [hregs]; exact hi.fill
  · rw [hregs]; exact hi.result
  · exact hwf
  · rw [hregs]; intro _ _; rw [hread, hline]; cases t.pos.phase.clockHigh <;> rfl

/-- An operation that ends. -/
theorem State.inv_idle {t : State} (hb : t.busy = false) (ho : t.pos.op = none) (hp : t.pos.phase = .idle)
    (hl : t.lineFits = true) (hf : t.regs.fill = 0x00 ∨ t.regs.fill = 0xFF)
    (hr : -(2 ^ 23) ≤ t.regs.result.toInt ∧ t.regs.result.toInt < 2 ^ 23) (hw : t.pins.wf = true)
    (hcp : t.regs.lifecycle = .configured → t.pins.read t.regs.clockPin.toNat = some (decide (t.sckLevel = .high))) : t.Inv := by
  constructor
  · simp [hb, hp]
  · simp [Position.coherent, ho, hp]
  · exact hl
  · exact fun _ => hp
  · simp [hp, Phase.isGain]
  · simp [ho]
  · simp [ho]
  · simp [ho]
  · simp [ho]
  · simp [ho]
  · exact hf
  · exact hr
  · exact hw
  · exact fun h _ => hcp h

/-- An operation that ends, from a state inside it -/
theorem State.Inv.done {s t : State} (hi : s.Inv) (hp : s.pos.phase ≠ .idle) (hp' : s.pos.phase ≠ .sgLow)
    (hh : s.pos.phase.clockHigh = false)
    (hb : t.busy = false) (ho : t.pos.op = none) (hq : t.pos.phase = .idle)
    (hlc : t.regs.lifecycle = s.regs.lifecycle) (hcp : t.regs.clockPin = s.regs.clockPin)
    (hf : t.regs.fill = 0x00 ∨ t.regs.fill = 0xFF)
    (hr : -(2 ^ 23) ≤ t.regs.result.toInt ∧ t.regs.result.toInt < 2 ^ 23) (hpins : t.pins = s.pins)
    (hl : t.sckLevel = s.sckLevel) : t.Inv := by
  have hlow : t.sckLevel = .low := by rw [hl, hi.level hp hp', hh]; rfl
  refine State.inv_idle hb ho hq ?_ hf hr (by rw [hpins]; exact hi.pins) ?_
  · refine State.lineFits_of (by rw [hlc, hi.configured hp]) (by rw [hlow, hq]; rfl)
  · intro _; rw [hpins, hcp, hi.pin hp hp', hh, hlow]; rfl

/-- The ports do not bear on it. -/
theorem State.Inv.ports {s : State} (hi : s.Inv) (r : List Response) (c : List CommandWord):
    ({ s with responses := r, cmds := c } : State).Inv := by
  obtain ⟨h1, h2, h3, h4, h5, h6, h7, h8, h9, h10, h11, h12, h13, h14⟩ := hi
  exact ⟨h1, h2, h3, h4, h5, h6, h7, h8, h9, h10, h11, h12, h13, h14⟩

theorem State.Inv.start {s t : State} (hi : s.Inv) (hp : s.pos.phase = .idle) (op : Op)
    (hop : t.pos.op = some op) (hb : t.busy = true)
    (hv : op.visits t.pos.phase = true) (hq : t.pos.phase ≠ .idle) (hh : t.pos.phase.clockHigh = false)
    (hc : t.regs.lifecycle = .configured)
    (hl : s.regs.lifecycle = .configured ∧ t.regs.clockPin = s.regs.clockPin ∨ op = .begin ∧ t.pos.phase = .sgLow) (hsck : t.sckLevel = s.sckLevel) (hpins : t.pins = s.pins)
    (hf : t.regs.fill = s.regs.fill) (hr : t.regs.result = s.regs.result)
    (hpu : t.pos.phase.isGain = true → op = .clockPulse ∧ t.pos.pulseIx = 0)
    (hat : op = .waitReadyRetry → (t.regs.attempt : Int) < sext t.regs.argA)
    (htq : op = .waitReadyTimeout → t.pos.phase = .tq0)
    (hm : op.takesMean = true → (t.regs.count : Int) < meanCount (some op) t.regs.argA ∧ t.regs.sum = 0)
    (hor : op.kind = .frame → t.pos.phase.isData = false) : t.Inv := by
  constructor
  · simp [hb, hq]
  · simp [Position.coherent, hop, hv]
  · have h := hi.line
    unfold State.lineFits at h ⊢
    rw [hsck, hh]
    rw [hp] at h
    cases hs : s.sckLevel <;> simp only [hs] at h ⊢
    · rcases hl with ⟨hl, -⟩ | ⟨rfl, hx⟩
      · rw [hl] at h; simp at h
      · rw [hop, hx]; rfl
    · simp [hc]
    · exact absurd h (by decide)
  · rw [hc]; rintro ⟨⟩
  · intro h; obtain ⟨rfl, h0⟩ := hpu h; rw [h0, hop]; simp
  · rw [hop]; intro h; cases h; exact hat rfl
  · rw [hop]; intro h h'; cases h; exact absurd (htq rfl) h'
  · rw [hop]; intro o h; cases h; exact fun h => (hm h).1
  · rw [hop]; intro o h h'; cases h; rw [(hm h').2]; simp
  · rw [hop]; intro o h hk hd; cases h; rw [hor hk] at hd; cases hd
  · rw [hf]; exact hi.fill
  · rw [hr]; exact hi.result
  · rw [hpins]; exact hi.pins
  · intro _ h
    rcases hl with ⟨hl, hcp⟩ | ⟨-, hx⟩
    · rw [hpins, hcp, hsck]; exact hi.clockPin hl (by simp [hp])
    · exact absurd hx h

end Sys2Proof.Machine
end

