-- ==== Sys2Proof/Laws/PerInstr.lean ====
section
/-! SUPPORT. A statement about every command, constructor by constructor: its word carries its opcode in `cmd[67:64]` (R96, R97). -/

namespace Sys2Proof.Laws.OpcodeField

/-- The opcode field of the command's word is its opcode. -/
def Statement (i : Instr) : Prop := (encode i).extractLsb' 64 4 = i.opcode

/-- The opcode field of a packed word. -/
theorem of_pack (op : BitVec 4) (a b : Word) : (pack op a b).extractLsb' 64 4 = op := by
  apply BitVec.eq_of_getLsbD_eq
  intro i hi
  rw [BitVec.getLsbD_extractLsb', pack_getLsbD, if_neg (by omega), if_neg (by omega)]
  simp [hi]

theorem begin (clockPin dataPin : PinId) : Statement (.begin clockPin dataPin) := of_pack _ _ _
theorem isReady : Statement (.isReady) := of_pack _ _ _
theorem setGain (gain : Word) : Statement (.setGain gain) := of_pack _ _ _
theorem readRaw : Statement (.readRaw) := of_pack _ _ _
theorem waitReady (pollMs : Word) : Statement (.waitReady pollMs) := of_pack _ _ _
theorem waitReadyRetry (attempts pollMs : Word) : Statement (.waitReadyRetry attempts pollMs) := of_pack _ _ _
theorem waitReadyTimeout (timeoutMs pollMs : Word) : Statement (.waitReadyTimeout timeoutMs pollMs) := of_pack _ _ _
theorem readAverage (n : Word) : Statement (.readAverage n) := of_pack _ _ _
theorem getUnits (n : Word) : Statement (.getUnits n) := of_pack _ _ _
theorem tare : Statement (.tare) := of_pack _ _ _
theorem setScale (referenceWeight : Word) : Statement (.setScale referenceWeight) := of_pack _ _ _
theorem setOffset (offset : Word) : Statement (.setOffset offset) := of_pack _ _ _
theorem shiftByte (order : BitOrder) : Statement (.shiftByte order) := of_pack _ _ _
theorem clockPulse : Statement (.clockPulse) := of_pack _ _ _
theorem reserved0 : Statement (.reserved0) := of_pack _ _ _
theorem reservedF : Statement (.reservedF) := of_pack _ _ _

end Sys2Proof.Laws.OpcodeField
end

