-- ==== Sys2Proof/Tests/Slice0.lean ====
section
/-! SUPPORT. The model's own tests: the well-formedness check, words written out from the spec, one step at a time on small states, and for every statement with hypotheses a state and operands that meet them. -/

namespace Sys2Proof.Tests

open Sys2Proof Sys2Proof.Machine

/-! ## Small states -/

/-- A configured block, idle, its clock pin 1 low, its data pin 2. -/
def idle : State :=
  { State.reset with
    regs := { Regs.reset with lifecycle := .configured, clockPin := 1, dataPin := 2 }
    sckLevel := .low
    pins := [(1, false)] }

/-- The block inside an operation, at a phase. -/
def inside (op : Op) (ph : Phase) : State :=
  { idle with
    busy := true
    pos := { Position.reset with op := some op, phase := ph }
    sckLevel := Line.ofBool ph.clockHigh
    pins := [(1, ph.clockHigh)] }

/-- The data line's next answers. -/
def State.answering (ls : List Bool) (s : State) : State := { s with env := { s.env with levels := ⟨ls, 0⟩ } }

/-- The clock's next advances. -/
def State.advancing (ms : List Nat) (s : State) : State := { s with env := { s.env with clock := ⟨ms, 0⟩ } }

/-- A converter that has latched a result. -/
def latched (v : BitVec 24) : Converter :=
  { phase := .latched v, selection := some .a128, convertedUnder := some .a128, upcoming := [⟨0, 5⟩] }

/-- A block with that converter on its lines. -/
def State.attached (v : BitVec 24) (s : State) : State := { s with env := { s.env with conv := some (latched v) } }

/-- What a next state shows. -/
def shows {α : Type} (f : State → α) : Host.Outcome State Fault Refusal → Option α
  | .next s => some (f s)
  | .fault _ => none
  | .refused _ => none

/-! ## WellFormed: only the reserved codes are ill-formed (R100, R101) -/

theorem test_wellFormed_refuses_reserved0 : Instr.wellFormed .reserved0 = false := by decide
theorem test_wellFormed_refuses_reservedF : Instr.wellFormed .reservedF = false := by decide
theorem test_wellFormed_takes_unknown_gain : Instr.wellFormed (.setGain 7) = true := by decide
theorem test_wellFormed_takes_negative_count : Instr.wellFormed (.readAverage 0xFFFFFFFF) = true := by decide

/-! ## Decoding: words written out from R96 to R100, `op` then operand A then operand B -/

theorem test_decode_begin : decode
    0b0001_00000000000000000000000000000001_00000000000000000000000000000010 = .begin 1 2 := by decide
theorem test_decode_isReady : decode
    0b0010_00000000000000000000000000000000_00000000000000000000000000000000 = .isReady := by decide
theorem test_decode_setGain : decode
    0b0011_00000000000000000000000001000000_00000000000000000000000000000000 = .setGain 64 := by decide
theorem test_decode_readRaw : decode
    0b0100_00000000000000000000000000000000_00000000000000000000000000000000 = .readRaw := by decide
theorem test_decode_waitReady : decode
    0b0101_00000000000000000000000000000101_00000000000000000000000000000000 = .waitReady 5 := by decide
theorem test_decode_waitReadyRetry : decode
    0b0110_00000000000000000000000000000011_00000000000000000000000000001010 = .waitReadyRetry 3 10 := by decide
theorem test_decode_waitReadyTimeout : decode
    0b0111_00000000000000000000000000011001_00000000000000000000000000001010 = .waitReadyTimeout 25 10 := by decide
theorem test_decode_readAverage : decode
    0b1000_00000000000000000000000000001010_00000000000000000000000000000000 = .readAverage 10 := by decide
theorem test_decode_getUnits : decode
    0b1001_00000000000000000000000000000001_00000000000000000000000000000000 = .getUnits 1 := by decide
theorem test_decode_tare : decode
    0b1010_00000000000000000000000000000000_00000000000000000000000000000000 = .tare := by decide
theorem test_decode_setScale : decode
    0b1011_00000000000000000000000001100100_00000000000000000000000000000000 = .setScale 100 := by decide
theorem test_decode_setOffset : decode
    0b1100_11111111111111111111111100000110_00000000000000000000000000000000 =
      .setOffset (BitVec.ofInt 32 (-250)) := by decide
theorem test_decode_shiftByte_lsb : decode
    0b1101_00000000000000000000000000000001_00000000000000000000000000000000 = .shiftByte .lsb := by decide
theorem test_decode_shiftByte_msb_ignores_bit1 : decode
    0b1101_00000000000000000000000000000010_00000000000000000000000000000000 = .shiftByte .msb := by decide
theorem test_decode_clockPulse : decode
    0b1110_00000000000000000000000000000000_00000000000000000000000000000000 = .clockPulse := by decide
theorem test_decode_reserved0 : decode
    0b0000_11111111111111111111111111111111_11111111111111111111111111111111 = .reserved0 := by decide
theorem test_decode_reservedF : decode
    0b1111_00000000000000000000000000000000_00000000000000000000000000000001 = .reservedF := by decide
theorem test_decode_isReady_ignores_operands : decode 0x2DEADBEEF12345678 = .isReady := by decide

theorem test_decodeTableWord_reads_a_row : decodeTableWord 72 0xE0000000000000000 = some .clockPulse := by decide
theorem test_decodeTableWord_refuses_bit68 : decodeTableWord 72 0x1E0000000000000000 = none := by decide
theorem test_decodeNumber_names_the_error :
    (match decodeNumber (2 ^ 68) with | .ok _ => none | .error e => some e) =
      some DecodeError.longerThanCommandWord := by decide

/-! ## The first step after reset runs the word offered -/

theorem test_withFetchWord_begin : shows (fun s => (s.pos.op, s.regs.clockPin, s.regs.dataPin, s.cmds))
    (step (State.reset.withFetchWord 72 0x10000000100000002)) = some (some .begin, 1, 2, []) := by decide
theorem test_withFetchWord_refused_before_begin : shows (·.responses)
    (step (State.reset.withFetchWord 72 0x40000000000000000)) = some [.refused .notConfigured] := by decide

/-! ## Acceptance, a command at a time (R217) -/

theorem test_begin_from_reset : shows (fun s => (s.regs.lifecycle, s.regs.gainCode, s.pos.phase))
    (exec (.begin 4 5) State.reset) = some (.configured, .a128, .sgLow) := by decide
theorem test_begin_rebinds_and_resets_gain : shows (fun s => (s.regs.clockPin, s.regs.gainCode))
    (exec (.begin 4 5) { idle with regs := { idle.regs with gainCode := .a64 } }) = some (4, .a128) := by decide
theorem test_isReady_goes_to_check : shows (·.pos.phase) (exec .isReady idle) = some .chk := by decide
theorem test_setGain_32 : shows (·.regs.gainCode) (exec (.setGain 32) idle) = some .b32 := by decide
theorem test_setGain_unknown_still_runs_a_frame : shows (fun s => (s.regs.gainCode, s.pos.phase))
    (exec (.setGain 63) { idle with regs := { idle.regs with gainCode := .a64 } }) = some
    (.a64, .sgLow) := by decide
theorem test_readRaw_waits_first : shows (·.pos.phase) (exec .readRaw idle) = some .chk := by decide
theorem test_waitReady_latches_poll : shows (·.regs.argA) (exec (.waitReady 5) idle) = some 5 := by decide
theorem test_waitReadyRetry_zero_attempts : shows (fun s => (s.responses, s.busy, s.trace))
    (exec (.waitReadyRetry 0 10) idle) = some ([.bool false], false, []) := by decide
theorem test_waitReadyRetry_negative_attempts : shows (·.responses)
    (exec (.waitReadyRetry 0x80000000 10) idle) = some [.bool false] := by decide
theorem test_waitReadyTimeout_reads_the_clock_first : shows (·.pos.phase)
    (exec (.waitReadyTimeout 0 0) idle) = some .tq0 := by decide
theorem test_readAverage_zero_refused : shows (fun s => (s.responses, s.regs.argA))
    (exec (.readAverage 0) idle) = some ([.refused .invalidCount], 0) := by decide
theorem test_readAverage_clears_the_sum : shows (fun s => (s.regs.sum, s.regs.count))
    (exec (.readAverage 1) { idle with regs := { idle.regs with sum := 9, count := 9 } }) = some (0, 0) := by decide
theorem test_getUnits_negative_refused : shows (·.responses)
    (exec (.getUnits 0xFFFFFFFF) idle) = some [.refused .invalidCount] := by decide
theorem test_tare_before_begin_refused : shows (·.responses)
    (exec .tare State.reset) = some [.refused .notConfigured] := by decide
theorem test_setScale_zero_weight_accepted : shows (·.pos.op) (exec (.setScale 0) idle) = some
    (some .setScale) := by decide
theorem test_setOffset_negative : shows (fun s => (s.regs.offset, s.responses, s.trace))
    (exec (.setOffset (BitVec.ofInt 32 (-250))) idle) = some (.rat (-250), [.none], []) := by decide
theorem test_setOffset_before_begin_refused : shows (fun s => (s.regs.offset, s.responses))
    (exec (.setOffset 3) State.reset) = some (.rat 0, [.refused .notConfigured]) := by decide
theorem test_shiftByte_clears_sr : shows (fun s => (s.regs.sr, s.pos.order))
    (exec (.shiftByte .lsb) { idle with regs := { idle.regs with sr := 0xFF } }) = some (0, .lsb) := by decide
theorem test_clockPulse_starts_high : shows (·.pos.phase) (exec .clockPulse idle) = some .gHiW := by decide
theorem test_reserved0_refused_before_configuration_is_asked : shows (·.responses)
    (exec .reserved0 State.reset) = some [.refused .reservedOpcode] := by decide

/-! ## The sequencer, a step at a time (R218 to R230) -/

theorem test_isReady_low_is_ready : shows (fun s => (s.responses, s.trace, s.busy))
    (step (State.answering [false] (inside .isReady .chk))) = some
    ([.bool true], [.read 2 false], false) := by decide
theorem test_waitReady_high_pauses : shows (fun s => (s.pos.phase, s.responses))
    (step (State.answering [true] (inside .waitReady .chk))) = some (.pau, []) := by decide
theorem test_waitReadyTimeout_deadline_is_not_before : shows (·.responses)
    (step (State.advancing [25] { inside .waitReadyTimeout .tq with regs := { idle.regs with argA := 25 } })) =
      some [.bool false] := by decide
theorem test_readRaw_first_sample_is_bit_7 : shows (·.regs.sr)
    (step (State.answering [true] (inside .readRaw .dSmp))) = some 0x80 := by decide
theorem test_shiftByte_lsb_first_sample_is_bit_0 : shows (·.regs.sr)
    (step (State.answering [true] (let s := inside .shiftByte .dSmp
      { s with pos := { s.pos with order := .lsb } }))) = some 0x01 := by decide
theorem test_clock_rises_on_its_pin : shows (fun s => (s.sckLevel, s.pins, s.trace))
    (step (inside .readRaw .dHiW)) = some (.high, [(1, true)], [.write 1 true]) := by decide
theorem test_setGain_writes_low_on_a_low_line : shows (fun s => (s.trace, s.pins))
    (step (inside .setGain .sgLow)) = some ([.write 1 false], [(1, false)]) := by decide

/-- A frame at its last gain pulse: the bytes ED, CB, AA of the spec's program 1 (95_test_vectors.md, part 3). -/
def lastPulse (op : Op) : State :=
  { inside op .gLoD with regs := { idle.regs with byte2 := 0xED, byte1 := 0xCB, byte0 := 0xAA, argA := 1 } }

theorem test_readRaw_assembles_a_negative_value : shows (fun s => (s.regs.fill, s.responses))
    (step (lastPulse .readRaw)) = some (0xFF, [.int (-1193046)]) := by decide
theorem test_begin_drops_the_value : shows (·.responses) (step (lastPulse .begin)) = some [.none] := by decide
theorem test_readAverage_adds_the_value : shows (fun s => (s.regs.sum, s.pos.phase))
    (step (lastPulse .readAverage)) = some (-1193046, .avgY) := by decide
theorem test_clockPulse_responds_none : shows (fun s => (s.responses, s.busy))
    (step (inside .clockPulse .gLoD)) = some ([.none], false) := by decide

/-- The last yield of a mean, the sum and OFFSET those of the spec's calibration program (95_test_vectors.md, part 3). -/
def lastYield (op : Op) (sum : Int) (count : Nat) (a : Word) : State :=
  { inside op .avgY with
    regs := { idle.regs with sum := sum, count := count, argA := a, offset := .rat 8000, scale := .rat 20 } }

theorem test_tare_offset_is_the_mean : shows (fun s => (s.regs.offset, s.responses))
    (step (lastYield .tare 80000 9 0)) = some (.rat 8000, [.none]) := by decide +kernel
theorem test_setScale_scale : shows (·.regs.scale) (step (lastYield .setScale 100000 9 100)) = some
    (.rat 20) := by decide +kernel
theorem test_getUnits_weight : shows (·.responses) (step (lastYield .getUnits 9000 0 1)) = some
    [.num (.rat 50)] := by decide +kernel
/-- OFFSET and SCALE at their reset values: a mean that is no integer comes back as it is (R203). -/
theorem test_getUnits_reset_values (exact : Bool) (m : Num) :
    numDiv exact (numSub exact m (.rat 0)) (.rat 1) = m := rfl

/-! ## The operand latch and the attached converter -/

theorem test_accepted_word_is_latched_whole : shows (fun s => (s.regs.argA, s.regs.argB))
    (step (idle.offerWord 0x2DEADBEEF12345678)) = some (0xDEADBEEF, 0x12345678) := by decide
theorem test_shiftByte_operand_is_latched_whole : shows (fun s => (s.regs.argA, s.pos.order))
    (step (idle.offerWord 0xD0000000200000000)) = some (2, .msb) := by decide
/-- R57, U12: a stand-alone pulse leaves the converter where the oracle has it. -/
theorem test_clockPulse_alone_loses_the_converter : shows (fun s => s.env.conv.map (·.phase))
    (step (State.attached 1000 (inside .clockPulse .gHiW))) = some (some .unknown) := by decide
/-- R50: a check that reads low changes nothing of the converter. -/
theorem test_isReady_leaves_the_converter : shows (fun s => (s.env.conv, s.responses))
    (step (State.attached 1000 (inside .isReady .chk))) = some (some (latched 1000), [.bool true]) := by decide

/-! ## Witnesses: for every statement with hypotheses, a state and operands that meet them, clause by clause -/

/-- The block inside an operation, at a phase, the other fields of its position and its registers given. -/
def insideAt (op : Op) (ph : Phase) (f : Position → Position) (g : Regs → Regs) : State :=
  (inside op ph |>.setPos f).setRegs g

/-- An idle block with a word at its port. -/
def offering (w : CommandWord) : State := idle.offerWord w

theorem witness_StepKeepsInvariantAndNeverStops : (inside .readRaw .dSmp).Inv where
  busy := by decide
  position := by decide
  line := by decide
  lifecycle := by decide
  pulses := by decide
  attempts := by decide
  clock := by decide
  frames := by rintro op h; cases h; decide
  sum := by rintro op h; cases h; decide
  order := by rintro op h; cases h; decide
  fill := by decide
  result := by decide
  pins := by decide
  clockPin := by decide

theorem witness_UnusedBitsAreIgnored :
    (0x2DEADBEEF12345678 : CommandWord) &&& (decode 0x2DEADBEEF12345678).usedBits =
      0x20000000000000000 &&& (decode 0x2DEADBEEF12345678).usedBits := by decide

theorem witness_ShiftByteOrderFromLowestOperandBit :
    (0xD0000000100000000 : CommandWord).extractLsb' 64 4 = 0xD ∧
      (0xD0000000200000000 : CommandWord).extractLsb' 64 4 = 0xD := by decide

theorem witness_ReservedOpcodesRefused_0 : (offering 0x0).busy = false ∧ (offering 0x0).pos.phase = .idle ∧
    (offering 0x0).cmds = [0x0] ∧ (0x0 : CommandWord).extractLsb' 64 4 = 0x0 := by decide
theorem witness_ReservedOpcodesRefused_F : (offering 0xF0000000000000000).busy = false ∧
    (offering 0xF0000000000000000).pos.phase = .idle ∧ (offering 0xF0000000000000000).cmds = [0xF0000000000000000] ∧
    (0xF0000000000000000 : CommandWord).extractLsb' 64 4 = 0xF := by decide

theorem witness_StepPerformsOfferedCommand_word : (offering 0x40000000000000000).pos.phase = .idle ∧
    (offering 0x40000000000000000).busy = false ∧ (offering 0x40000000000000000).cmds =
    [0x40000000000000000] ∧
    shows (·.busy) (exec (decode 0x40000000000000000) (offering 0x40000000000000000)) = some true := by decide
theorem witness_StepPerformsOfferedCommand_none : idle.pos.phase = .idle ∧ idle.cmds = [] := by decide

theorem witness_BusyTakesNoCommand : (inside .readRaw .dHiW).busy = true ∧
    shows (·.cmds) (step (inside .readRaw .dHiW)) = some [] := by decide

theorem witness_UnconfiguredRefusesAllButBegin : State.reset.busy = false ∧
    State.reset.regs.lifecycle = .uninitialized ∧ Instr.wellFormed (.setOffset 1) = true ∧
    Instr.opcode (.setOffset 1) ≠ 0x1 := by decide

theorem witness_CountBelowOneRefused_zero : idle.standsReady ∧ (0 : Word).toInt < 1 := ⟨⟨rfl, rfl⟩, by decide⟩
theorem witness_CountBelowOneRefused_least : idle.standsReady ∧ (0x80000000 : Word).toInt < 1 :=
  ⟨⟨rfl, rfl⟩, by decide⟩

theorem witness_RefusalChangesNothingElse : ∃ t, exec .isReady State.reset = .next t ∧
    t.responses = State.reset.responses ++ [.refused .notConfigured] := ⟨_, rfl, rfl⟩

theorem witness_StepMakesTheCallOfItsPhase : ∃ t, step (inside .readRaw .dHiW) = .next t := ⟨_, rfl⟩

theorem witness_AcceptanceOfProbeWaitsAndTransport :
    idle.standsReady ∧ 0 < (1 : Word).toInt ∧ (0 : Word).toInt ≤ 0 := ⟨⟨rfl, rfl⟩, by decide, by decide⟩
theorem witness_AcceptanceOfConfigurationAndMeans :
    idle.busy = false ∧ idle.regs.lifecycle = .configured ∧ 1 ≤ (1 : Word).toInt := by decide
theorem witness_SetOffsetCompletes : idle.standsReady := ⟨rfl, rfl⟩

theorem witness_SequencerClockLowWrite : (inside .begin .sgLow).pos.phase = .sgLow := by decide

theorem witness_SequencerReadinessCheck_isReady : (inside .isReady .chk).pos.phase = .chk ∧
    (inside .isReady .chk).pos.op = some .isReady ∧ Op.visits .isReady .chk = true := by decide
theorem witness_SequencerReadinessCheck_waits : (inside .waitReady .chk).pos.phase = .chk ∧
    (inside .waitReady .chk).pos.op = some .waitReady ∧ Op.visits .waitReady .chk = true ∧
    Op.visits .waitReadyRetry .chk = true ∧ Op.visits .waitReadyTimeout .chk = true ∧
    (State.answering [false] (inside .waitReady .chk)).level = false := by decide
theorem witness_SequencerReadinessCheck_frame : (inside .tare .chk).pos.phase = .chk ∧
    (inside .tare .chk).pos.op = some .tare ∧ Op.visits .tare .chk = true ∧ Op.kind .tare = .frame ∧
    (State.answering [true] (inside .tare .chk)).level = true := by decide

theorem witness_SequencerPause_waits : (inside .waitReady .pau).pos.phase = .pau ∧
    (inside .waitReady .pau).pos.op = some .waitReady ∧ (inside .waitReadyTimeout .pau).pos.phase = .pau ∧
    (inside .waitReadyTimeout .pau).pos.op = some .waitReadyTimeout := by decide
theorem witness_SequencerPause_frame : (inside .readRaw .pau).pos.phase = .pau ∧
    (inside .readRaw .pau).pos.op = some .readRaw ∧ Op.kind .readRaw = .frame := by decide
theorem witness_SequencerPause_retry_more :
    (insideAt .waitReadyRetry .pau id ({ · with argA := 2 })).pos.op = some .waitReadyRetry ∧
    ((insideAt .waitReadyRetry .pau id ({ · with argA := 2 })).regs.attempt : Int) + 1 <
    (2 : Word).toInt := by decide
theorem witness_SequencerPause_retry_last :
    (insideAt .waitReadyRetry .pau id ({ · with argA := 1 })).pos.op = some .waitReadyRetry ∧
    (1 : Word).toInt ≤ ((insideAt .waitReadyRetry .pau id ({ · with argA := 1 })).regs.attempt : Int) + 1 := by decide

theorem witness_SequencerTimeoutEntry : (inside .waitReadyTimeout .tq0).pos.phase = .tq0 := by decide
theorem witness_SequencerTimeoutRound : (inside .waitReadyTimeout .tq).pos.phase = .tq ∧
    (inside .waitReadyTimeout .tq).regs.t0 ≤ (inside .waitReadyTimeout .tq).env.lastMs ∧
    (State.advancing [24] (inside .waitReadyTimeout .tq)).clockMs < 0 + (25 : Word).toNat ∧
    0 + (25 : Word).toNat ≤ (State.advancing [25] (inside .waitReadyTimeout .tq)).clockMs := by decide

theorem witness_SequencerDataPulseHigh : (inside .shiftByte .dHiW).pos.phase = .dHiW ∧
    (inside .shiftByte .dHiD).pos.phase = .dHiD := by decide
theorem witness_SequencerDataSample : (inside .shiftByte .dSmp).pos.phase = .dSmp := by decide
theorem witness_SequencerDataPulseLow : (inside .shiftByte .dLoW).pos.phase = .dLoW := by decide
theorem witness_SequencerDataLowHold_bit : (insideAt .readRaw .dLoD ({ · with bitIx := 6 }) id).pos.phase = .dLoD ∧
    (insideAt .readRaw .dLoD ({ · with bitIx := 6 }) id).pos.bitIx.val < 7 := by decide
theorem witness_SequencerDataLowHold_shiftByte :
    (insideAt .shiftByte .dLoD ({ · with bitIx := 7 }) id).pos.phase = .dLoD ∧
    (insideAt .shiftByte .dLoD ({ · with bitIx := 7 }) id).pos.bitIx.val = 7 ∧
    (insideAt .shiftByte .dLoD ({ · with bitIx := 7 }) id).pos.op = some .shiftByte := by decide
theorem witness_SequencerDataLowHold_byte2 :
    (insideAt .readRaw .dLoD ({ · with bitIx := 7, byteIx := 2 }) id).pos.bitIx.val = 7 ∧
    (insideAt .readRaw .dLoD ({ · with bitIx := 7, byteIx := 2 }) id).pos.byteIx = 2 ∧
    Op.kind .readRaw = .frame := by decide
theorem witness_SequencerDataLowHold_byte1 :
    (insideAt .readRaw .dLoD ({ · with bitIx := 7, byteIx := 1 }) id).pos.bitIx.val = 7 ∧
    (insideAt .readRaw .dLoD ({ · with bitIx := 7, byteIx := 1 }) id).pos.byteIx = 1 := by decide
theorem witness_SequencerDataLowHold_byte0 :
    (insideAt .readRaw .dLoD ({ · with bitIx := 7, byteIx := 0 }) id).pos.bitIx.val = 7 ∧
    (insideAt .readRaw .dLoD ({ · with bitIx := 7, byteIx := 0 }) id).pos.byteIx = 0 := by decide

theorem witness_SequencerGainPulse : (inside .clockPulse .gHiW).pos.phase = .gHiW ∧
    (inside .clockPulse .gHiD).pos.phase = .gHiD ∧ (inside .clockPulse .gLoW).pos.phase = .gLoW := by decide
theorem witness_SequencerGainLowHold_clockPulse : (inside .clockPulse .gLoD).pos.phase = .gLoD ∧
    (inside .clockPulse .gLoD).pos.op = some .clockPulse := by decide
theorem witness_SequencerGainLowHold_more :
    (insideAt .readRaw .gLoD ({ · with pulseIx := 1 }) ({ · with gainCode := .a64 })).pos.op = some .readRaw ∧
    (insideAt .readRaw .gLoD ({ · with pulseIx := 1 }) ({ · with gainCode := .a64 })).pos.pulseIx + 1 <
      GainCode.a64.code.toNat := by decide
theorem witness_SequencerGainLowHold_last :
    (inside .readRaw .gLoD).pos.pulseIx + 1 = (inside .readRaw .gLoD).regs.gainCode.code.toNat ∧
    (inside .readRaw .gLoD).pos.op = some .readRaw ∧ (inside .setGain .gLoD).pos.op = some .setGain ∧
    (inside .begin .gLoD).pos.op = some .begin ∧ Op.takesMean .getUnits = true := by decide

theorem witness_SequencerYield_more : (insideAt .readAverage .avgY id ({ · with argA := 2 })).pos.phase = .avgY ∧
    (insideAt .readAverage .avgY id ({ · with argA := 2 })).pos.op = some .readAverage ∧
    Op.takesMean .readAverage = true ∧
    ((insideAt .readAverage .avgY id ({ · with argA := 2 })).regs.count : Int) + 1 < (2 : Word).toInt := by decide
theorem witness_SequencerYield_last : (lastYield .getUnits 9000 0 1).pos.phase = .avgY ∧
    (lastYield .getUnits 9000 0 1).pos.op = some .getUnits ∧ Op.takesMean .getUnits = true ∧
    (1 : Word).toInt ≤ ((lastYield .getUnits 9000 0 1).regs.count : Int) + 1 := by decide
theorem witness_SequencerYield_ten : (lastYield .tare 80000 9 0).pos.op = some .tare ∧
    Op.takesMean .tare = true ∧ Op.takesMean .setScale = true ∧
    (10 : Int) ≤ ((lastYield .tare 80000 9 0).regs.count : Int) + 1 := by decide

theorem witness_OnlyBeginBindsAndConfigures : ∃ t, step (offering 0x10000000300000004) = .next t ∧
    t.regs.clockPin = 3 := ⟨_, rfl, rfl⟩
theorem witness_OnlyGainOperationsWriteGainCode : ∃ t, step (offering 0x30000004000000000) = .next t ∧
    t.regs.gainCode ≠ (offering 0x30000004000000000).regs.gainCode := ⟨_, rfl, by decide⟩
theorem witness_CalibrationWriters_offset : ∃ t, step (offering 0xC0000000500000000) = .next t ∧
    t.regs.offset ≠ (offering 0xC0000000500000000).regs.offset := ⟨_, rfl, by decide⟩
theorem witness_CalibrationWriters_scale : shows (fun s => decide (s.regs.scale ≠ .rat 20))
    (step (lastYield .setScale 108000 9 100)) = some true := by decide +kernel
theorem witness_StepWritesNoPinButTheClockPin : ∃ t, step (inside .readRaw .dHiW) = .next t ∧
    (2 : Nat) ≠ (inside .readRaw .dHiW).regs.clockPin.toNat := ⟨_, rfl, by decide⟩
theorem witness_StepWritesNoPinButTheClockPin_phase : ∃ t, step (inside .readRaw .dHiD) = .next t ∧
    (inside .readRaw .dHiD).pos.phase ∉ [.sgLow, .dHiW, .dLoW, .gHiW, .gLoW] := ⟨_, rfl, by decide⟩

theorem witness_SequencerAgreesWithBigStep : idle.busy = false ∧ idle.pos.op = none ∧ idle.pos.phase = .idle ∧
    ∃ t, bigStep (.waitReady 5) 2 (State.answering [true, false] idle) = some t := ⟨rfl, rfl, rfl, _, rfl⟩
theorem witness_BigStepAgreesWithSequencer : ∃ a u, exec .isReady idle = .next a ∧ run 1 a = .next u ∧
    u.pos.phase = .idle ∧ ∀ j < 1, ∀ v, run j a = .next v → v.pos.phase ≠ .idle := by
  refine ⟨_, _, rfl, rfl, rfl, ?_⟩
  intro j hj v h
  obtain rfl : j = 0 := by omega
  cases h
  decide

theorem witness_NeverReadyHangs_configured : (State.answering [true, true] idle).busy = false ∧
    (State.answering [true, true] idle).regs.lifecycle = .configured ∧
    (State.answering [true, true] idle).answers (neverReady 2) [] ∧ 1 ≤ (1 : Word).toInt :=
  ⟨rfl, rfl, ⟨rfl, rfl⟩, by decide⟩
theorem witness_NeverReadyHangs_firstBegin : (State.answering [true, true] State.reset).busy = false ∧
    (State.answering [true, true] State.reset).regs.lifecycle = .uninitialized ∧
    (State.answering [true, true] State.reset).answers (neverReady 2) [] := ⟨rfl, rfl, ⟨rfl, rfl⟩⟩
theorem witness_FrameLengthIsFixed : (insideAt .readRaw .dHiW ({ · with byteIx := 2 }) id).pos.phase = .dHiW ∧
    (insideAt .readRaw .dHiW ({ · with byteIx := 2 }) id).pos.byteIx = 2 ∧
    (insideAt .readRaw .dHiW ({ · with byteIx := 2 }) id).pos.bitIx = 0 ∧
    (insideAt .readRaw .dHiW ({ · with byteIx := 2 }) id).pos.op = some .readRaw ∧ Op.kind .readRaw = .frame := by decide
theorem witness_DurationsChangeNoValue : idle.env.conv = none ∧
    idle.sameButTime { idle with env := { idle.env with slack := ⟨[7], 3⟩, highUs := 9 } } ∧
    ∃ t, run 1 idle = .next t := ⟨rfl, ⟨rfl, rfl⟩, _, rfl⟩

theorem witness_IsReadyCompletes : (State.answering [false] idle).standsReady ∧
    (State.answering [false] idle).answers [false] [] := ⟨⟨rfl, rfl⟩, rfl, rfl⟩
theorem witness_WaitReadyCompletes : (State.answering [true, false] idle).standsReady ∧
    (State.answering [true, false] idle).answers (List.replicate 1 true ++ [false]) [] := ⟨⟨rfl, rfl⟩, rfl, rfl⟩
theorem witness_WaitReadyRetryCompletes_true : (State.answering [true, false] idle).standsReady ∧
    ((1 : Nat) : Int) < (2 : Word).toInt ∧
    (State.answering [true, false] idle).answers (List.replicate 1 true ++ [false]) [] :=
  ⟨⟨rfl, rfl⟩, by decide, rfl, rfl⟩
theorem witness_WaitReadyRetryCompletes_false : (State.answering [true, true] idle).standsReady ∧
    ((2 : Nat) : Int) = max (2 : Word).toInt 0 ∧
    (State.answering [true, true] idle).answers (List.replicate 2 true) [] := ⟨⟨rfl, rfl⟩, by decide, rfl, rfl⟩
theorem witness_WaitReadyRetryCompletes_none : idle.standsReady ∧
    ((0 : Nat) : Int) = max (0x80000000 : Word).toInt 0 ∧ idle.answers (List.replicate 0 true) [] :=
  ⟨⟨rfl, rfl⟩, by decide, rfl, rfl⟩
theorem witness_WaitReadyTimeoutCompletes_false :
    (State.advancing [3, 24, 1] (State.answering [true] idle)).standsReady ∧
    (State.advancing [3, 24, 1] (State.answering [true] idle)).env.clock.script = 3 :: [24] ++ 1 :: [] ∧
    (∀ j, 0 < j → j ≤ [24].length → ([24].take j).sum < (25 : Word).toNat) ∧ (25 : Word).toNat ≤ [24].sum + 1 ∧
    (State.advancing [3, 24, 1] (State.answering [true] idle)).answers (List.replicate [24].length true) [] := by
  refine ⟨⟨rfl, rfl⟩, rfl, ?_, by decide, rfl, rfl⟩
  intro j h0 h1
  obtain rfl : j = 1 := by simp at h1; omega
  decide
theorem witness_WaitReadyTimeoutCompletes_true :
    (State.advancing [3, 24] (State.answering [false] idle)).standsReady ∧
    (State.advancing [3, 24] (State.answering [false] idle)).env.clock.script = 3 :: [] ++ 24 :: [] ∧
    ([] : List Nat).sum + 24 < (25 : Word).toNat ∧
    (State.advancing [3, 24] (State.answering [false] idle)).answers (List.replicate 0 true ++ [false]) [] :=
  ⟨⟨rfl, rfl⟩, rfl, by decide, rfl, rfl⟩

/-- The spec's first frame's value, program 2 of its test vectors (95_test_vectors.md, part 3), its wait one check long. -/
def frame : FrameToCome := ⟨1, 1000⟩

theorem witness_ShiftByteCompletes : (State.answering (List.replicate 8 true) idle).standsReady ∧
    (List.replicate 8 true).length = 8 ∧
    (State.answering (List.replicate 8 true) idle).answers (List.replicate 8 true) [] :=
  ⟨⟨rfl, rfl⟩, rfl, rfl, by simp [State.answering]⟩
theorem witness_ClockPulseCompletes : idle.standsReady := ⟨rfl, rfl⟩
theorem witness_ReadRawReturnsTheValueShifted : (State.answering frame.levels idle).standsReady ∧
    (State.answering frame.levels idle).answers frame.levels [] := ⟨⟨rfl, rfl⟩, rfl, by simp [State.answering]⟩
theorem witness_SetGainCompletes : (State.answering frame.levels idle).standsReady ∧
    (State.answering frame.levels idle).answers frame.levels [] ∧
    GainCode.a64 = (if (64 : Word) = 128 then .a128 else if (64 : Word) = 64 then .a64
      else if (64 : Word) = 32 then .b32 else (State.answering frame.levels idle).regs.gainCode) :=
  ⟨⟨rfl, rfl⟩, ⟨rfl, by simp [State.answering]⟩, by decide⟩
theorem witness_BeginCompletes : (State.answering frame.levels State.reset).busy = false ∧
    (State.answering frame.levels State.reset).answers frame.levels [] := ⟨rfl, rfl, by simp [State.answering]⟩

/-- A block whose next answers give one frame. -/
def oneFrame : State := State.answering (([] ++ [frame]).flatMap FrameToCome.levels) idle

/-- A block whose next answers give ten frames. -/
def tenFrames : State := State.answering ((List.replicate 9 frame ++ [frame]).flatMap FrameToCome.levels) idle

/-- A block whose next answers give eleven ready frames of one value, OFFSET 0 and SCALE 1. -/
def elevenFrames (exact : Bool) : State :=
  { idle with
    env := { idle.env with
      levels := ⟨constantReading 9000 11, 0⟩
      exactNum := exact } }

theorem witness_ReadAverageCompletes : oneFrame.standsReady ∧
    (1 : Word).toInt = (([] : List FrameToCome).length : Int) + 1 ∧
    oneFrame.answers (([] ++ [frame]).flatMap FrameToCome.levels) [] :=
  ⟨⟨rfl, rfl⟩, by decide, rfl, by simp [oneFrame, State.answering]⟩
theorem witness_GetUnitsCompletes : tenFrames.standsReady ∧
    (10 : Word).toInt = ((List.replicate 9 frame).length : Int) + 1 ∧
    tenFrames.answers ((List.replicate 9 frame ++ [frame]).flatMap FrameToCome.levels) [] ∧
    tenFrames.regs.offset = .rat 0 ∧ tenFrames.regs.scale = .rat 1 :=
  ⟨⟨rfl, rfl⟩, by decide, ⟨rfl, (List.append_nil _).symm⟩, rfl, rfl⟩
theorem witness_TareCompletes : tenFrames.standsReady ∧ (List.replicate 9 frame).length = 9 ∧
    tenFrames.answers ((List.replicate 9 frame ++ [frame]).flatMap FrameToCome.levels) [] :=
  ⟨⟨rfl, rfl⟩, by decide, rfl, (List.append_nil _).symm⟩
theorem witness_SetScaleCompletes : tenFrames.standsReady ∧ (List.replicate 9 frame).length = 9 ∧
    tenFrames.answers ((List.replicate 9 frame ++ [frame]).flatMap FrameToCome.levels) [] :=
  ⟨⟨rfl, rfl⟩, by decide, rfl, (List.append_nil _).symm⟩

theorem witness_MeanOfConstantReadings_value : 1 ≤ (1 : Nat) := by decide
theorem witness_MeanOfConstantReadings_run : (elevenFrames false).standsReady ∧ 1 ≤ (11 : Word).toInt ∧
    (elevenFrames false).answers (constantReading 9000 (11 : Word).toNat) [] :=
  ⟨⟨rfl, rfl⟩, by decide, rfl, (List.append_nil _).symm⟩
theorem witness_TareThenUnitsGivesZero : (elevenFrames false).standsReady ∧
    (elevenFrames false).regs.scale = .rat 1 ∧ (1 : Rat) ≠ 0 ∧
    (elevenFrames false).answers (constantReading 9000 11) [] :=
  ⟨⟨rfl, rfl⟩, rfl, by decide, rfl, (List.append_nil _).symm⟩
theorem witness_SetScaleThenUnitsGivesTheWeight : (elevenFrames true).standsReady ∧
    (elevenFrames true).env.exactNum = true ∧ (elevenFrames true).regs.offset = .rat 0 ∧
    (0 : Rat) ≠ ((9000 : BitVec 24).toInt : Rat) ∧ (100 : Word) ≠ 0 ∧
    (elevenFrames true).answers (constantReading 9000 11) [] :=
  ⟨⟨rfl, rfl⟩, rfl, rfl, by decide, by decide, rfl, (List.append_nil _).symm⟩

theorem witness_AttachedConverterFrame : (State.attached 1000 idle).standsReady ∧
    (State.attached 1000 idle).sckLevel = .low ∧ (State.attached 1000 idle).env.conv = some (latched 1000) ∧
    (latched 1000).phase = .latched 1000 ∧ (State.attached 1000 idle).level = false :=
  ⟨⟨rfl, rfl⟩, rfl, rfl, rfl, rfl⟩
theorem witness_UninterruptedFrameReturnsTheConversion : (State.attached 0x800000 idle).standsReady ∧
    (State.attached 0x800000 idle).sckLevel = .low ∧
    (State.attached 0x800000 idle).env.conv = some (latched 0x800000) ∧
    (latched 0x800000).phase = .latched 0x800000 := ⟨⟨rfl, rfl⟩, rfl, rfl, rfl⟩
theorem witness_BeginCommitsTheDefaultSelection : (State.attached 1000 State.reset).busy = false ∧
    (State.attached 1000 State.reset).sckLevel ≠ .high ∧
    (State.attached 1000 State.reset).env.conv = some (latched 1000) ∧
    (latched 1000).phase = .latched 1000 := ⟨rfl, by decide, rfl, rfl⟩
theorem witness_SetGainCommitsTheNewSelection : (State.attached 1000 idle).standsReady ∧
    (State.attached 1000 idle).sckLevel = .low ∧ (State.attached 1000 idle).env.conv = some (latched 1000) ∧
    (latched 1000).phase = .latched 1000 ∧ (latched 1000).convertedUnder = (latched 1000).selection ∧
    GainCode.b32 = (if (32 : Word) = 128 then .a128 else if (32 : Word) = 64 then .a64
      else if (32 : Word) = 32 then .b32 else (State.attached 1000 idle).regs.gainCode) :=
  ⟨⟨rfl, rfl⟩, rfl, rfl, rfl, rfl, by decide⟩
theorem witness_SetGainCommitsTheNewSelection_next : (latched 1000).upcoming = ⟨0, 5⟩ :: [] := rfl

/-- A block on a prompt host: no call takes longer than asked for. -/
def prompt (s : State) : State :=
  { s with env := { s.env with conv := some (latched 1000), slack := ⟨List.replicate 200 0, 0⟩ } }

/-- `FrameUninterrupted` (R293) holds of the frame a command performs, from its acceptance to its response. -/
def uninterruptedFrame (s : State) (o : Host.Outcome State Fault Refusal) (steps : Nat) : Bool :=
  match o with
  | .next a =>
    match run steps a with
    | .next t => t.pos.phase == .idle && (s.env.newHighs t.env).all (fun us => decide (us ≤ Config.tPdSafe))
    | .fault _ => false
    | .refused _ => false
  | .fault _ => false
  | .refused _ => false

theorem witness_UninterruptedFrameReturnsTheConversion_premise :
    uninterruptedFrame (prompt idle) (exec .readRaw (prompt idle)) (1 + 5 * 24 + 4) = true := by decide +kernel
/-- A host that stretches the high hold of the first pulse by 100 microseconds. -/
def stretching : State :=
  { prompt idle with env := { (prompt idle).env with slack := ⟨[0, 0, 100] ++ List.replicate 200 0, 0⟩ } }
theorem witness_AttachedConverterFrame_stretched :
    shows (fun t => t.env.highs.head?.any (fun us => decide (Config.tPd < us))) (run 6 (stretching.accept .readRaw 0 0 .chk)) =
      some true := by decide +kernel
/-- The same host, a converter that stands where nothing is known of it, and a line whose answers all are 0. -/
def stretchingUnready : State :=
  { stretching with env := { stretching.env with
      conv := some { latched 1000 with phase := .unknown }
      levels := ⟨List.replicate 30 false, 0⟩ } }
theorem witness_AttachedConverterFrame_unready : stretchingUnready.standsReady ∧ stretchingUnready.sckLevel = .low ∧
    stretchingUnready.env.conv = some { latched 1000 with phase := .unknown } ∧ stretchingUnready.level = false :=
  ⟨⟨rfl, rfl⟩, rfl, rfl, rfl⟩
/-- R267, U5: after a stretch in its first pulse a frame reads 1 in the 23 samples left, whatever it started from. -/
theorem test_power_down_shows_in_an_unready_frame : shows (fun t => t.responses)
    (run 125 (stretchingUnready.accept .readRaw 0 0 .chk)) = some [.int 0x7FFFFF] := by decide +kernel
/-- R292: a stretch into the band that the oracle takes as harmless leaves the bit that the pulse presents. -/
theorem test_harmless_band_keeps_the_bit : shows (fun t => t.responses)
    (run 125 ({ prompt idle with env := { (prompt idle).env with
      slack := ⟨[0, 0, 53] ++ List.replicate 200 0, 0⟩
      levels := ⟨List.replicate 30 true, 0⟩
      band := ⟨[false], 0⟩ } }.accept .readRaw 0 0 .chk)) = some [.int 1000] := by decide +kernel
theorem witness_BeginCommitsTheDefaultSelection_premise :
    uninterruptedFrame (prompt State.reset) (exec (.begin 1 2) (prompt State.reset)) (1 + (1 + 5 * 24 + 4)) = true := by
  decide +kernel
theorem witness_SetGainCommitsTheNewSelection_premise :
    uninterruptedFrame (prompt idle) (exec (.setGain 32) (prompt idle)) (1 + (1 + 5 * 24 + 4 * 2)) = true := by
  decide +kernel

end Sys2Proof.Tests
end

section
/-! The statements about the encoding: the order bit of SHIFT_BYTE (R99) and the two reserved opcodes (R100). -/

namespace Sys2Proof

/-! ## The word of a given opcode decodes to that opcode's row (R96, R97) -/

/-- The four bits that `decode` tests are those of the opcode field `cmd[67:64]` (R96). -/
theorem opcodeBits_of_opcodeField {w : CommandWord} {op : BitVec 4} (h : w.extractLsb' 64 4 = op) :
    w.getLsbD 67 = op.getLsbD 3 ∧ w.getLsbD 66 = op.getLsbD 2 ∧
      w.getLsbD 65 = op.getLsbD 1 ∧ w.getLsbD 64 = op.getLsbD 0 := by
  subst h
  simp

theorem decode_of_opcodeField_shiftByte {w : CommandWord} (h : w.extractLsb' 64 4 = 0xD) :
    decode w = .shiftByte (BitOrder.ofBit ((operandA w).getLsbD 0)) := by
  obtain ⟨h67, h66, h65, h64⟩ := opcodeBits_of_opcodeField h
  rw [decode, h67, h66, h65, h64]
  rfl

theorem decode_of_opcodeField_reserved0 {w : CommandWord} (h : w.extractLsb' 64 4 = 0x0) :
    decode w = .reserved0 := by
  obtain ⟨h67, h66, h65, h64⟩ := opcodeBits_of_opcodeField h
  rw [decode, h67, h66, h65, h64]
  rfl

theorem decode_of_opcodeField_reservedF {w : CommandWord} (h : w.extractLsb' 64 4 = 0xF) :
    decode w = .reservedF := by
  obtain ⟨h67, h66, h65, h64⟩ := opcodeBits_of_opcodeField h
  rw [decode, h67, h66, h65, h64]
  rfl

/-- Bit 0 of operand A is bit 32 of the word (R96). -/
theorem operandA_getLsbD_zero (w : CommandWord) : (operandA w).getLsbD 0 = w.getLsbD 32 := by
  simp [operandA]

/-- Settles O7: the opcode selects the SHIFT_BYTE row, whose only operand bit is `a[0]`, bit 32 of the word. -/
theorem shiftByteOrderFromLowestOperandBit : Obligations.ShiftByteOrderFromLowestOperandBit := by
  intro w hop
  rw [decode_of_opcodeField_shiftByte hop, operandA_getLsbD_zero, BitOrder.ofBit]

end Sys2Proof

namespace Sys2Proof.Machine

/-! ## What a reserved command does (R100) -/

theorem offered_of_not_busy {s : State} (hb : s.busy = false) (take : State → State) :
    s.offered take = .next (take s) := by
  simp [State.offered, hb]

theorem exec_reserved0 {s : State} (hb : s.busy = false) :
    exec .reserved0 s = .next (s.refuse .reservedOpcode) :=
  offered_of_not_busy hb _

theorem exec_reservedF {s : State} (hb : s.busy = false) :
    exec .reservedF s = .next (s.refuse .reservedOpcode) :=
  offered_of_not_busy hb _

/-- Both reserved opcodes decode to a command that an idle block refuses by name. -/
theorem exec_decode_of_reservedOpcode {s : State} {w : CommandWord} (hb : s.busy = false)
    (hop : w.extractLsb' 64 4 = 0x0 ∨ w.extractLsb' 64 4 = 0xF) :
    exec (decode w) s = .next (s.refuse .reservedOpcode) := by
  obtain h0 | hF := hop
  · rw [decode_of_opcodeField_reserved0 h0, exec_reserved0 hb]
  · rw [decode_of_opcodeField_reservedF hF, exec_reservedF hb]

/-- Settles O9: a reserved command is refused by `exec`, and a step is `exec` of the word at the port, the word
taken. -/
theorem reservedOpcodesRefused : Obligations.ReservedOpcodesRefused := by
  intro s hb
  refine ⟨exec_reserved0 hb, exec_reservedF hb, fun w rest hidle hcmds hop => ?_⟩
  rw [step_of_word hidle hb hcmds, exec_decode_of_reservedOpcode hb hop]
  simp [takingWord, State.taken, State.refuse, hcmds]

end Sys2Proof.Machine
end

section
/-! The statement about the surrounding software's counts (R197). -/

namespace Sys2Proof.Machine

/-! ## A count below 1 (R197) -/

/-- The count test refuses before the operation is taken; the count is signed (R98). -/
theorem State.whenCounted_of_lt_one {n : Word} (hn : n.toInt < 1) (take : State → State) (s : State) :
    State.whenCounted n take s = s.refuse .invalidCount :=
  if_pos hn

/-- A ready block answers a counted operation with a refusal, whatever the operation. -/
theorem offered_whenCounted_of_lt_one {s : State} {n : Word} (hs : s.standsReady) (hn : n.toInt < 1)
    (take : State → State) :
    s.offered (State.whenConfigured (State.whenCounted n take)) = .next (s.refuse .invalidCount) := by
  obtain ⟨hidle, hconfigured⟩ := hs
  rw [offered_configured hidle hconfigured, State.whenCounted_of_lt_one hn]

/-- Settles O13: both operations are acceptances behind the count test, which refuses. -/
theorem countBelowOneRefused : Obligations.CountBelowOneRefused := by
  intro s n hs hn
  constructor
  · exact offered_whenCounted_of_lt_one hs hn (State.acceptMean .readAverage n)
  · exact offered_whenCounted_of_lt_one hs hn (State.acceptMean .getUnits n)

end Sys2Proof.Machine
end

section
/-! The statements about the sequencer, phase by phase (R218 to R230). First each row of the transition table as an
equation of the phase's function, then the statements, put together from the rows. -/

namespace Sys2Proof.Machine

/-! ## The environment a step leaves -/

/-- One environment stands for what the step of a state makes of the collaborators, whichever row applies. -/
theorem exists_env_of_step (s : State) :
    ∃ e : Env, ∀ t, step s = .next t → step s = .next { t with env := e } := by
  generalize step s = o
  cases o with
  | next t =>
    refine ⟨t.env, fun u hu => ?_⟩
    cases hu
    rfl
  | fault r => exact ⟨s.env, fun u hu => by cases hu⟩
  | refused r => exact ⟨s.env, fun u hu => by cases hu⟩

/-! ## What the rows ask of an operation -/

theorem Op.kind_of_takesMean {op : Op} (h : op.takesMean = true) : op.kind = .frame := by
  revert h
  cases op <;> decide

/-- The operations that visit CHK (R216, R219). -/
theorem Op.kind_of_visits_chk {op : Op} (h : op.visits .chk = true) :
    op = .isReady ∨ op.kind = .wait ∨ op.kind = .frame := by
  revert h
  cases op <;> decide

theorem ready_eq_decide (b : Bool) : ready b = decide (b = false) := by cases b <;> rfl

theorem bitPosition_val (o : BitOrder) (i : Fin 8) :
    (bitPosition o i).val = if o = .msb then 7 - i.val else i.val := by
  cases o with
  | msb => exact Fin.sub_val_of_le (Fin.le_last i)
  | lsb => rfl

theorem meanCount_some (op : Op) (a : Word) :
    meanCount (some op) a = if op = .tare ∨ op = .setScale then 10 else a.toInt := by
  cases op <;> rfl

/-- The clock's answer is the last one and its next advance (R257). -/
theorem State.lastMs_le_clockMs (s : State) : s.env.lastMs ≤ s.clockMs := Nat.le_add_right _ _

section rows
variable {s : State} {op : Op}

/-! ## CHK (R219) -/

theorem seqChk_isReady (ho : s.pos.op = some .isReady) :
    seqChk s = .next (s.pinRead.respond (boolResponse (ready s.level))) := by
  rw [seqChk, ho]
  rfl

theorem seqChk_wait_of_low (ho : s.pos.op = some op) (hk : op.kind = .wait) (hl : s.level = false) :
    seqChk s = .next (s.pinRead.respond (waitResponse op)) := by
  simp [seqChk, ho, hk, hl, ready]

theorem seqChk_frame_of_low (ho : s.pos.op = some op) (hk : op.kind = .frame) (hl : s.level = false) :
    seqChk s = .next s.pinRead.startFrame := by
  simp [seqChk, ho, hk, hl, ready]

theorem seqChk_of_high (ho : s.pos.op = some op) (hk : op.kind = .wait ∨ op.kind = .frame) (hl : s.level = true) :
    seqChk s = .next (s.pinRead.goto .pau) := by
  obtain hk | hk := hk <;> simp [seqChk, ho, hk, hl, ready]

/-! ## PAU (R220) -/

theorem seqPau_frame (ho : s.pos.op = some op) (hk : op.kind = .frame) :
    seqPau s = .next ((s.pauseMs Config.readRawPollMs).goto .chk) := by
  simp [seqPau, ho, hk]

theorem seqPau_waitReady (ho : s.pos.op = some .waitReady) :
    seqPau s = .next ((s.pauseMs (zext s.regs.argA)).goto .chk) := by
  simp [seqPau, ho, Op.kind]

theorem seqPau_waitReadyTimeout (ho : s.pos.op = some .waitReadyTimeout) :
    seqPau s = .next ((s.pauseMs (zext s.regs.argB)).goto .tq) := by
  simp [seqPau, ho, Op.kind]

theorem seqPau_waitReadyRetry_of_lt (ho : s.pos.op = some .waitReadyRetry)
    (hlt : (s.regs.attempt : Int) + 1 < s.regs.argA.toInt) :
    seqPau s = .next (((s.pauseMs (zext s.regs.argB)).setRegs Regs.countAttempt).goto .chk) := by
  simp [seqPau, ho, Op.kind, sext, hlt]

theorem seqPau_waitReadyRetry_of_le (ho : s.pos.op = some .waitReadyRetry)
    (hle : s.regs.argA.toInt ≤ (s.regs.attempt : Int) + 1) :
    seqPau s = .next (((s.pauseMs (zext s.regs.argB)).setRegs Regs.countAttempt).respond (boolResponse false)) := by
  simp [seqPau, ho, Op.kind, sext, hle.not_gt]

/-! ## D_LO_D at the eighth bit of a group (R226) -/

theorem seqDLoD_shiftByte (h7 : s.pos.bitIx.val = 7) (ho : s.pos.op = some .shiftByte) :
    seqDLoD s = .next ((s.delayUs Config.tLoMin).respond (srResponse s.regs)) := by
  rw [seqDLoD_of_last (by rw [Fin.lt_def, h7]; decide), groupDone, State.delayUs_pos, ho]
  rfl

theorem seqDLoD_frame (h7 : s.pos.bitIx.val = 7) (ho : s.pos.op = some op) (hk : op.kind = .frame) :
    seqDLoD s = .next (s.delayUs Config.tLoMin).endGroup := by
  rw [seqDLoD_of_last (by rw [Fin.lt_def, h7]; decide)]
  simp [groupDone, ho, hk]

theorem State.endGroup_two (hb : s.pos.byteIx = 2) :
    s.endGroup = ((s.setRegs (Regs.storeByte 2)).setRegs Regs.clearSr).setPos
      ({ · with phase := .dHiW, byteIx := 1, bitIx := 0 }) := by
  rw [State.endGroup, hb]

theorem State.endGroup_one (hb : s.pos.byteIx = 1) :
    s.endGroup = ((s.setRegs (Regs.storeByte 1)).setRegs Regs.clearSr).setPos
      ({ · with phase := .dHiW, byteIx := 0, bitIx := 0 }) := by
  rw [State.endGroup, hb]

theorem State.endGroup_zero (hb : s.pos.byteIx = 0) :
    s.endGroup = (s.setRegs (Regs.storeByte 0)).setPos ({ · with phase := .gHiW, pulseIx := 0 }) := by
  rw [State.endGroup, hb]

/-! ## G_LO_D (R228, R229) -/

/-- The low hold of a gain pulse, and the pulse counted (R228). -/
def State.gainPulseDone (s : State) : State :=
  (s.delayUs Config.tLoMin).setPos ({ · with pulseIx := s.pos.pulseIx + 1 })

theorem seqGLoD_clockPulse (ho : s.pos.op = some .clockPulse) : seqGLoD s = .next (s.gainPulseDone.respond .none) := by
  rw [seqGLoD, ho]
  rfl

theorem seqGLoD_frame_of_lt (ho : s.pos.op = some op) (hk : op.kind = .frame)
    (hlt : s.pos.pulseIx + 1 < s.regs.gainCode.code.toNat) : seqGLoD s = .next (s.gainPulseDone.goto .gHiW) := by
  rw [GainCode.code_toNat] at hlt
  simp [seqGLoD, ho, hk, hlt, State.gainPulseDone]

theorem seqGLoD_frame_of_eq (ho : s.pos.op = some op) (hk : op.kind = .frame)
    (heq : s.pos.pulseIx + 1 = s.regs.gainCode.code.toNat) :
    seqGLoD s = .next ((s.gainPulseDone.setRegs Regs.assembleFrame).closeFrame.endFrame op) := by
  rw [GainCode.code_toNat] at heq
  simp [seqGLoD, ho, hk, heq, State.gainPulseDone]

theorem State.endFrame_of_takesMean (hm : op.takesMean = true) (s : State) :
    s.endFrame op = (s.setRegs Regs.addSample).goto .avgY := by
  cases op <;> simp_all [Op.takesMean, State.endFrame]

/-! ## AVG_Y (R230) -/

/-- The yield after a frame, and the frame counted (R230). -/
def State.frameCounted (s : State) : State := (s.pauseMs Config.yieldMs).setRegs Regs.countSample

theorem seqAvgY_of_lt {n : Int} (ho : s.pos.op = some op) (hn : meanCount (some op) s.regs.argA = n)
    (hlt : (s.regs.count : Int) + 1 < n) : seqAvgY s = .next (s.frameCounted.goto .chk) := by
  simp [seqAvgY, ho, hn, hlt, State.frameCounted]

theorem seqAvgY_of_le {n : Int} (ho : s.pos.op = some op) (hn : meanCount (some op) s.regs.argA = n)
    (hle : n ≤ (s.regs.count : Int) + 1) : seqAvgY s = s.frameCounted.endMean op n := by
  simp [seqAvgY, ho, hn, hle.not_gt, State.frameCounted]

end rows

/-! ## The statements of tier 2 -/

/-- Settles O25: SR takes the sample as a written bit, at the place that ORDER gives the bit's index. -/
theorem sequencerDataSample : Obligations.SequencerDataSample := by
  intro s h
  refine ⟨s.level, (s.env.pass s.high 0).afterRead, setBit s.regs.sr (bitPosition s.pos.order s.pos.bitIx) s.level,
    step_dSmp h, fun j hj => ?_⟩
  rw [getLsbD_setBit _ _ _ _ hj, bitPosition_val]

/-- Settles O27: a bit below the eighth, the eighth of SHIFT_BYTE, and the eighth of a frame by the byte it ends. -/
theorem sequencerDataLowHold : Obligations.SequencerDataLowHold := by
  intro s h
  obtain ⟨e, he⟩ := exists_env_of_step s
  refine ⟨e, fun hlt => ?_, fun h7 ho => ?_, fun op h7 ho hk => ?_⟩
  · exact (he _ ((step_dLoD h).trans (seqDLoD_of_lt hlt)) :)
  · exact (he _ ((step_dLoD h).trans (seqDLoD_shiftByte h7 ho)) :)
  · have hend := (step_dLoD h).trans (seqDLoD_frame h7 ho hk)
    refine ⟨fun hb => ?_, fun hb => ?_, fun hb => ?_⟩
    · exact (he _ (hend.trans (congrArg _ (State.endGroup_two hb))) :)
    · exact (he _ (hend.trans (congrArg _ (State.endGroup_one hb))) :)
    · exact (he _ (hend.trans (congrArg _ (State.endGroup_zero hb))) :)

/-- Settles O29: below GAIN_CODE another pulse, at GAIN_CODE the assembly and the end of the frame by OP. -/
theorem sequencerGainLowHold : Obligations.SequencerGainLowHold := by
  intro s h
  obtain ⟨e, he⟩ := exists_env_of_step s
  have hlast {op : Op} (ho : s.pos.op = some op) (hk : op.kind = .frame)
      (heq : s.pos.pulseIx + 1 = s.regs.gainCode.code.toNat) :=
    he _ ((step_gLoD h).trans (seqGLoD_frame_of_eq ho hk heq))
  refine ⟨e, fillOf s.regs.byte2, assemble (fillOf s.regs.byte2) s.regs.byte2 s.regs.byte1 s.regs.byte0, rfl,
    assemble_append _ _ _ _, fun ho => ?_, fun op ho hk hlt => ?_,
    fun heq => ⟨fun ho => ?_, fun ho => ?_, fun op ho hm => ?_⟩⟩
  · exact (he _ ((step_gLoD h).trans (seqGLoD_clockPulse ho)) :)
  · exact (he _ ((step_gLoD h).trans (seqGLoD_frame_of_lt ho hk hlt)) :)
  · exact hlast ho rfl heq
  · obtain ho | ho := ho <;> exact hlast ho rfl heq
  · have hend := hlast ho (Op.kind_of_takesMean hm) heq
    rw [State.endFrame_of_takesMean hm] at hend
    exact hend

/-- Settles O30: below the count the next check, at it the mean, and what each of the four operations makes of it. -/
theorem sequencerYield : Obligations.SequencerYield := by
  intro s op n h ho hm hn
  obtain ⟨e, he⟩ := exists_env_of_step s
  have hcount : meanCount (some op) s.regs.argA = n := (meanCount_some op _).trans hn.symm
  refine ⟨e, _, _, _, rfl, rfl, rfl, fun hlt => ?_, fun hle => ?_⟩
  · exact (he _ ((step_avgY h).trans (seqAvgY_of_lt ho hcount hlt)) :)
  · have hmean := (step_avgY h).trans (seqAvgY_of_le ho hcount hle)
    refine ⟨?_, ?_, ?_, ?_⟩ <;> rintro rfl <;> exact (he _ hmean :)

/-! ## The statements of tier 1 -/

/-- Settles O19: the row of SG_LOW. -/
theorem sequencerClockLowWrite : Obligations.SequencerClockLowWrite := by
  intro s h
  obtain ⟨e, he⟩ := exists_env_of_step s
  exact ⟨e, (he _ (step_sgLow h) :)⟩

/-- Settles O20: by what the check reads and, where it reads low, by the kind of the operation. -/
theorem sequencerReadinessCheck : Obligations.SequencerReadinessCheck := by
  intro s op h ho hv
  obtain ⟨e, he⟩ := exists_env_of_step s
  refine ⟨s.level, e, ?_, fun hl hop => ?_, fun hl hop => ?_, fun hl hk => ?_, fun hl hne => ?_⟩
  · rintro rfl
    rw [← ready_eq_decide]
    exact (he _ ((step_chk h).trans (seqChk_isReady ho)) :)
  · subst hop
    exact (he _ ((step_chk h).trans (seqChk_wait_of_low ho rfl hl)) :)
  · obtain rfl | rfl := hop <;> exact (he _ ((step_chk h).trans (seqChk_wait_of_low ho rfl hl)) :)
  · exact (he _ ((step_chk h).trans (seqChk_frame_of_low ho hk hl)) :)
  · exact (he _ ((step_chk h).trans (seqChk_of_high ho ((Op.kind_of_visits_chk hv).resolve_left hne) hl)) :)

/-- Settles O21: by operation, WAIT_READY_RETRY by the attempts it has left. -/
theorem sequencerPause : Obligations.SequencerPause := by
  intro s h
  obtain ⟨e, he⟩ := exists_env_of_step s
  refine ⟨e, fun ho => ?_, fun op ho hk => ?_, fun ho => ?_, fun ho hlt => ?_, fun ho hle => ?_⟩
  · exact (he _ ((step_pau h).trans (seqPau_waitReady ho)) :)
  · exact (he _ ((step_pau h).trans (seqPau_frame ho hk)) :)
  · exact (he _ ((step_pau h).trans (seqPau_waitReadyTimeout ho)) :)
  · exact (he _ ((step_pau h).trans (seqPau_waitReadyRetry_of_lt ho hlt)) :)
  · exact (he _ ((step_pau h).trans (seqPau_waitReadyRetry_of_le ho hle)) :)

/-- Settles O22: the clock's answer is kept as its last one, and is not below the one before. -/
theorem sequencerTimeoutEntry : Obligations.SequencerTimeoutEntry := by
  intro s h
  exact ⟨s.clockMs, s.nowMs.env, s.lastMs_le_clockMs, rfl, step_tq0 h⟩

/-- Settles O24: the rows of D_HI_W and D_HI_D. -/
theorem sequencerDataPulseHigh : Obligations.SequencerDataPulseHigh := by
  intro s
  obtain ⟨e, he⟩ := exists_env_of_step s
  exact ⟨e, fun h => (he _ (step_dHiW h) :), fun h => (he _ (step_dHiD h) :)⟩

/-- Settles O26: the row of D_LO_W. -/
theorem sequencerDataPulseLow : Obligations.SequencerDataPulseLow := by
  intro s h
  obtain ⟨e, he⟩ := exists_env_of_step s
  exact ⟨e, (he _ (step_dLoW h) :)⟩

/-- Settles O28: the rows of G_HI_W, G_HI_D and G_LO_W. -/
theorem sequencerGainPulse : Obligations.SequencerGainPulse := by
  intro s
  obtain ⟨e, he⟩ := exists_env_of_step s
  exact ⟨e, fun h => (he _ (step_gHiW h) :), fun h => (he _ (step_gHiD h) :), fun h => (he _ (step_gLoW h) :)⟩

end Sys2Proof.Machine
end

section
/-! The statement about an Uninitialized block (R254). -/

namespace Sys2Proof.Machine

/-! ## What asks for a configured block (R217, R254) -/

/-- Every operation but BEGIN is offered behind the configuration test; the reserved codes are no operations (R100). -/
theorem exists_exec_eq_offered_whenConfigured {i : Instr} (hw : i.wellFormed = true) (hop : i.opcode ≠ 0x1)
    (s : State) : ∃ take : State → State, exec i s = s.offered (State.whenConfigured take) := by
  cases i with
  | begin c d => exact absurd rfl hop
  | reserved0 | reservedF => cases hw
  | _ => exact ⟨_, rfl⟩

/-- BEGIN is taken by every block that is not busy, in either LIFECYCLE (R180). -/
theorem exec_begin {s : State} (hb : s.busy = false) (c d : PinId) :
    exec (.begin c d) s =
      .next ((s.accept .begin c d .sgLow).setRegs fun r => (r.bind c d).selectGain 128) := by
  rw [exec, execBegin, offered_of_not_busy hb]

/-- Settles O12: the configuration test refuses every other operation, and BEGIN is taken without it. -/
theorem unconfiguredRefusesAllButBegin : Obligations.UnconfiguredRefusesAllButBegin := by
  intro s hb hl
  constructor
  · intro i hw hop
    obtain ⟨take, htake⟩ := exists_exec_eq_offered_whenConfigured hw hop s
    rw [htake, offered_uninitialized hb hl, State.refuse]
  · intro c d
    exact ⟨_, exec_begin hb c d, rfl, rfl, rfl, rfl, rfl⟩

end Sys2Proof.Machine
end

section
/-! The machine's invariant over one step, of an idle block and in each phase (R215 to R230). -/

namespace Sys2Proof.Machine

/-! ## The clock's last answer -/

@[simp] theorem Env.pass_lastMs (high : Bool) (n : Nat) (e : Env) : (e.pass high n).lastMs = e.lastMs := rfl

@[simp] theorem Env.clockLine_lastMs (was : Line) (level : Bool) (e : Env) :
    (e.clockLine was level).lastMs = e.lastMs := by
  cases was <;> cases level <;> rfl

theorem State.lastMs_le_nowMs (s : State) : s.env.lastMs ≤ s.nowMs.env.lastMs := s.lastMs_le_clockMs

/-! ## Which operations visit a phase -/

theorem Op.visits_of_isData {op : Op} {p : Phase} (hp : p.isData = true) :
    op.visits p = (op.kind == .frame || op == .shiftByte) := by
  revert hp
  cases op <;> cases p <;> decide

theorem Op.visits_of_isGain {op : Op} {p : Phase} (hp : p.isGain = true) :
    op.visits p = (op.kind == .frame || op == .clockPulse) := by
  revert hp
  cases op <;> cases p <;> decide

theorem Op.kind_of_visits_sgLow {op : Op} (h : op.visits .sgLow = true) : op.kind = .frame := by
  revert h
  cases op <;> decide

theorem Op.kind_of_visits_pau {op : Op} (h : op.visits .pau = true) : op.kind = .wait ∨ op.kind = .frame := by
  revert h
  cases op <;> decide

theorem Op.eq_of_kind_wait {op : Op} (h : op.kind = .wait) :
    op = .waitReady ∨ op = .waitReadyTimeout ∨ op = .waitReadyRetry := by
  revert h
  cases op <;> decide

theorem Op.eq_waitReadyTimeout_of_visits {op : Op} (h : op.visits .tq0 = true ∨ op.visits .tq = true) :
    op = .waitReadyTimeout := by
  revert h
  cases op <;> decide

theorem Op.takesMean_of_visits_avgY {op : Op} (h : op.visits .avgY = true) : op.takesMean = true := by
  revert h
  cases op <;> decide

theorem Op.eq_of_takesMean {op : Op} (h : op.takesMean = true) :
    op = .readAverage ∨ op = .getUnits ∨ op = .tare ∨ op = .setScale := by
  revert h
  cases op <;> decide

theorem Op.eq_of_kind_frame {op : Op} (h : op.kind = .frame) (hm : op.takesMean = false) :
    op = .begin ∨ op = .setGain ∨ op = .readRaw := by
  revert h hm
  cases op <;> decide

theorem Op.visits_chk_of_kind {op : Op} (h : op.kind = .wait ∨ op.kind = .frame) : op.visits .chk = true := by
  revert h
  cases op <;> decide

theorem Op.visits_pau_of_kind {op : Op} (h : op.kind = .wait ∨ op.kind = .frame) : op.visits .pau = true := by
  revert h
  cases op <;> decide

/-! ## The invariant of an idle block -/

section idle
variable {s : State} {i : Instr}

theorem State.Inv.notBusy (hi : s.Inv) (hp : s.pos.phase = .idle) : s.busy = false := by
  rw [hi.busy, hp]; rfl

theorem State.Inv.op_none (hi : s.Inv) (hp : s.pos.phase = .idle) : s.pos.op = none := by
  have h := hi.position
  unfold Position.coherent at h
  rw [hp] at h
  cases ho : s.pos.op with
  | none => rfl
  | some op =>
    rw [ho] at h
    revert h
    cases op <;> decide

theorem State.Inv.refuse (hi : s.Inv) (reason : RefuseReason) : (s.refuse reason).Inv :=
  hi.ports (s.refuse reason).responses s.cmds

theorem State.Inv.taken (hi : s.Inv) : s.taken.Inv := hi.ports s.responses s.cmds.tail

/-- A command that is performed at once leaves a block idle as it was. -/
theorem State.Inv.performed (hi : s.Inv) (hp : s.pos.phase = .idle) {t : State} (hb : t.busy = false)
    (ho : t.pos.op = none) (hq : t.pos.phase = .idle) (hsck : t.sckLevel = s.sckLevel) (hpins : t.pins = s.pins)
    (hlc : t.regs.lifecycle = s.regs.lifecycle) (hcp : t.regs.clockPin = s.regs.clockPin)
    (hf : t.regs.fill = s.regs.fill) (hr : t.regs.result = s.regs.result) : t.Inv := by
  refine State.inv_idle hb ho hq ?_ (hf ▸ hi.fill) (hr ▸ hi.result) (hpins ▸ hi.pins) ?_
  · have hl := hi.line
    unfold State.lineFits at hl ⊢
    rw [hp, hi.op_none hp] at hl
    rw [hsck, hlc, hq, ho]
    exact hl
  · intro hc
    rw [hpins, hcp, hsck]
    exact hi.clockPin (hlc ▸ hc) (by rw [hp]; decide)

/-- An operation of a configured block that starts at its first check (R217). -/
theorem State.Inv.startAtCheck (hi : s.Inv) (hp : s.pos.phase = .idle) (hc : s.regs.lifecycle = .configured)
    (op : Op) (hv : op.visits .chk = true) {t : State} (hpos : t.pos = { s.pos with op := some op, phase := .chk })
    (hb : t.busy = true) (hlc : t.regs.lifecycle = s.regs.lifecycle) (hcp : t.regs.clockPin = s.regs.clockPin)
    (hsck : t.sckLevel = s.sckLevel) (hpins : t.pins = s.pins) (hf : t.regs.fill = s.regs.fill)
    (hr : t.regs.result = s.regs.result)
    (hat : op = .waitReadyRetry → (t.regs.attempt : Int) < sext t.regs.argA) (ht : op ≠ .waitReadyTimeout)
    (hm : op.takesMean = true → (t.regs.count : Int) < meanCount (some op) t.regs.argA ∧ t.regs.sum = 0) :
    t.Inv := by
  have hphase : t.pos.phase = .chk := by rw [hpos]
  refine hi.start hp op (by rw [hpos]) hb (by rw [hphase]; exact hv) ?_ ?_ (hlc.trans hc) (.inl ⟨hc, hcp⟩) hsck hpins
    hf hr ?_ hat (fun h => absurd h ht) hm ?_ <;> rw [hphase]
  · decide
  · rfl
  · rintro ⟨⟩
  · exact fun _ => rfl

/-- An operation of a configured block that starts elsewhere, with the line low, and counts nothing. -/
theorem State.Inv.startElsewhere (hi : s.Inv) (hp : s.pos.phase = .idle) (hc : s.regs.lifecycle = .configured)
    (op : Op) {t : State} (hop : t.pos.op = some op) (hv : op.visits t.pos.phase = true)
    (hq : t.pos.phase ≠ .idle) (hh : t.pos.phase.clockHigh = false)
    (hb : t.busy = true) (hlc : t.regs.lifecycle = s.regs.lifecycle) (hcp : t.regs.clockPin = s.regs.clockPin)
    (hsck : t.sckLevel = s.sckLevel) (hpins : t.pins = s.pins) (hf : t.regs.fill = s.regs.fill)
    (hr : t.regs.result = s.regs.result) (hpu : t.pos.phase.isGain = true → op = .clockPulse ∧ t.pos.pulseIx = 0)
    (hat : op ≠ .waitReadyRetry) (htq : op = .waitReadyTimeout → t.pos.phase = .tq0) (hm : op.takesMean = false)
    (hor : op.kind = .frame → t.pos.phase.isData = false) : t.Inv :=
  hi.start hp op hop hb hv hq hh (hlc.trans hc) (.inl ⟨hc, hcp⟩) hsck hpins hf hr hpu (fun h => absurd h hat) htq
    (fun h => by rw [hm] at h; cases h) hor

/-- Where a configured block's taking of a command keeps the invariant, the command's acceptance does. -/
theorem State.Inv.offered_whenConfigured (hi : s.Inv) (hp : s.pos.phase = .idle) {take : State → State}
    (h : s.regs.lifecycle = .configured → (take s).Inv) :
    ∃ t, s.offered (State.whenConfigured take) = .next t ∧ t.Inv := by
  cases hl : s.regs.lifecycle with
  | uninitialized => exact ⟨_, offered_uninitialized (hi.notBusy hp) hl take, hi.refuse _⟩
  | configured => exact ⟨_, offered_configured (hi.notBusy hp) hl take, h hl⟩

theorem State.Inv.whenCounted (hi : s.Inv) {n : Word} {take : State → State} (h : 1 ≤ n.toInt → (take s).Inv) :
    (State.whenCounted n take s).Inv := by
  unfold State.whenCounted
  split
  · exact hi.refuse _
  · rename_i hn
    exact h (not_lt.mp hn)

/-- The acceptance of an operation that takes a mean of at least one frame. -/
theorem State.Inv.acceptMean (hi : s.Inv) (hp : s.pos.phase = .idle) (hc : s.regs.lifecycle = .configured)
    {op : Op} (hm : op.takesMean = true) {a : Word} (hn : 0 < meanCount (some op) a) :
    (s.acceptMean op a).Inv := by
  have hk := Op.kind_of_takesMean hm
  refine hi.startAtCheck hp hc op (Op.visits_chk_of_kind (.inr hk)) rfl rfl rfl rfl rfl rfl rfl rfl ?_ ?_
    fun _ => ⟨hn, rfl⟩
  · rintro rfl
    cases hm
  · rintro rfl
    cases hm

/-- The acceptance of every command, taken by an idle block, keeps the invariant (R217). -/
theorem State.Inv.exec (hi : s.Inv) (hp : s.pos.phase = .idle) : ∃ t, exec i s = .next t ∧ t.Inv := by
  cases i with
  | reserved0 => exact ⟨_, exec_reserved0 (hi.notBusy hp), hi.refuse _⟩
  | reservedF => exact ⟨_, exec_reservedF (hi.notBusy hp), hi.refuse _⟩
  | begin c d =>
    exact ⟨_, exec_begin (hi.notBusy hp) c d, hi.start hp .begin rfl rfl rfl (by rintro ⟨⟩) rfl rfl (.inr ⟨rfl, rfl⟩) rfl rfl rfl rfl (by rintro ⟨⟩)
      (by rintro ⟨⟩) (by rintro ⟨⟩) (by rintro ⟨⟩) (fun _ => rfl)⟩
  | isReady =>
    exact hi.offered_whenConfigured hp fun hc => hi.startAtCheck hp hc .isReady rfl rfl rfl rfl rfl rfl rfl rfl rfl
      (by rintro ⟨⟩) (by decide) (by rintro ⟨⟩)
  | readRaw =>
    exact hi.offered_whenConfigured hp fun hc => hi.startAtCheck hp hc .readRaw rfl rfl rfl rfl rfl rfl rfl rfl rfl
      (by rintro ⟨⟩) (by decide) (by rintro ⟨⟩)
  | waitReady p =>
    exact hi.offered_whenConfigured hp fun hc => hi.startAtCheck hp hc .waitReady rfl rfl rfl rfl rfl rfl rfl rfl rfl
      (by rintro ⟨⟩) (by decide) (by rintro ⟨⟩)
  | waitReadyRetry n p =>
    refine hi.offered_whenConfigured hp fun hc => ?_
    dsimp only
    split
    case isTrue hn =>
      exact hi.startAtCheck hp hc .waitReadyRetry rfl rfl rfl rfl rfl rfl rfl rfl rfl (fun _ => hn) (by decide)
        (by rintro ⟨⟩)
    case isFalse hn => exact hi.performed hp rfl rfl rfl rfl rfl rfl rfl rfl rfl
  | waitReadyTimeout m p =>
    exact hi.offered_whenConfigured hp fun hc => hi.startElsewhere hp hc .waitReadyTimeout rfl rfl (by rintro ⟨⟩) rfl rfl
      rfl rfl rfl rfl rfl rfl (by rintro ⟨⟩) (by decide) (fun _ => rfl) rfl (by rintro ⟨⟩)
  | setGain g =>
    exact hi.offered_whenConfigured hp fun hc => hi.startElsewhere hp hc .setGain rfl rfl (by rintro ⟨⟩) rfl rfl
      rfl rfl rfl rfl rfl rfl (by rintro ⟨⟩) (by decide) (by rintro ⟨⟩) rfl (fun _ => rfl)
  | shiftByte o =>
    exact hi.offered_whenConfigured hp fun hc => hi.startElsewhere hp hc .shiftByte rfl rfl (by rintro ⟨⟩) rfl rfl
      rfl rfl rfl rfl rfl rfl (by rintro ⟨⟩) (by decide) (by rintro ⟨⟩) rfl (by rintro ⟨⟩)
  | clockPulse =>
    exact hi.offered_whenConfigured hp fun hc => hi.startElsewhere hp hc .clockPulse rfl rfl (by rintro ⟨⟩) rfl rfl
      rfl rfl rfl rfl rfl rfl (fun _ => ⟨rfl, rfl⟩) (by decide) (by rintro ⟨⟩) rfl (by rintro ⟨⟩)
  | readAverage n =>
    exact hi.offered_whenConfigured hp fun hc => hi.whenCounted fun hn =>
      hi.acceptMean hp hc rfl (show 0 < n.toInt by omega)
  | getUnits n =>
    exact hi.offered_whenConfigured hp fun hc => hi.whenCounted fun hn =>
      hi.acceptMean hp hc rfl (show 0 < n.toInt by omega)
  | tare => exact hi.offered_whenConfigured hp fun hc => hi.acceptMean hp hc rfl (show (0 : Int) < 10 by decide)
  | setScale w => exact hi.offered_whenConfigured hp fun hc => hi.acceptMean hp hc rfl (show (0 : Int) < 10 by decide)
  | setOffset v => exact hi.offered_whenConfigured hp fun hc => hi.performed hp rfl rfl rfl rfl rfl rfl rfl rfl rfl

/-- A step of an idle block: it takes the command at its port, or idles. -/
theorem State.Inv.step_idle (hi : s.Inv) (hp : s.pos.phase = .idle) : ∃ t, step s = .next t ∧ t.Inv := by
  cases hc : s.cmds with
  | nil => exact ⟨s, step_of_no_word hp hc, hi⟩
  | cons w rest =>
    obtain ⟨t, ht, hti⟩ := hi.exec (i := decode w) hp
    exact ⟨t.taken, by rw [step_of_word hp (hi.notBusy hp) hc, ht]; rfl, hti.taken⟩

end idle

/-! ## A step inside an operation -/

section inside
variable {s t : State}

/-- From phase `p` to phase `q` inside an operation, with no pulse counted and no group of pulses or clock reading begun. -/
def Phase.continues (p q : Phase) : Bool :=
  p != .idle && q != .idle && p != .avgY && q != .avgY && p != .tq0 && (!q.isData || p.isData) && (!q.isGain || p.isGain)

theorem State.Inv.continues (hi : s.Inv) {p q : Phase} (h : s.pos.phase = p) (hpq : p.continues q = true)
    (hvis : ∀ op, s.pos.op = some op → op.visits p = true → op.visits q = true)
    (sr : Byte) (hregs : t.regs = { s.regs with sr := sr }) (hpos : t.pos = { s.pos with phase := q })
    (hbusy : t.busy = s.busy) (hlast : s.env.lastMs ≤ t.env.lastMs) (hline : t.sckLevel = Line.ofBool q.clockHigh)
    (hwf : t.pins.wf = true) (hread : t.pins.read s.regs.clockPin.toNat = some q.clockHigh) : t.Inv := by
  subst h
  simp only [Phase.continues, Bool.and_eq_true, Bool.or_eq_true, Bool.not_eq_true', bne_iff_ne] at hpq
  obtain ⟨⟨⟨⟨⟨⟨hpi, hqi⟩, hpa⟩, hqa⟩, hp0⟩, hdata⟩, hgain⟩ := hpq
  have hq : t.pos.phase = q := by rw [hpos]
  refine hi.go hpi (by rwa [hq]) sr _ _ _ hregs (by rw [hpos]) (fun hg => ?_) (fun hd => ?_) hbusy (fun _ => hp0) hlast
    (by rwa [hq]) (by rwa [hq]) hwf (by rwa [hq]) (by rwa [hq]) hpa
  · rw [hq] at hg
    have := hi.pulses (hgain.resolve_left (by simp [hg]))
    rwa [hpos]
  · rw [hq] at hd
    exact .inl ⟨hdata.resolve_left (by simp [hd]), by rw [hpos]⟩

/-- A step that drives the clock line. -/
theorem State.Inv.drive (hi : s.Inv) {p : Phase} (h : s.pos.phase = p) (q : Phase) (hpq : p.continues q = true)
    (hvis : ∀ op : Op, op.visits p = true → op.visits q = true) {b : Bool} (hb : q.clockHigh = b) :
    ((s.pinWrite b).goto q).Inv := by
  subst hb
  exact hi.continues h hpq (fun op _ => hvis op) s.regs.sr rfl rfl rfl (by simp) rfl (Memory.wf_write _ _ hi.pins)
    (Memory.read_write_self _ _ _)

/-- A step that leaves the lines as they are. -/
theorem State.Inv.hold (hi : s.Inv) {p : Phase} (h : s.pos.phase = p) (q : Phase) (hpq : p.continues q = true)
    (hvis : ∀ op, s.pos.op = some op → op.visits p = true → op.visits q = true) (hh : q.clockHigh = p.clockHigh)
    (hsg : p ≠ .sgLow) (sr : Byte) (hregs : t.regs = { s.regs with sr := sr }) (hpos : t.pos = { s.pos with phase := q })
    (hbusy : t.busy = s.busy) (hlast : s.env.lastMs ≤ t.env.lastMs) (hsck : t.sckLevel = s.sckLevel)
    (hpins : t.pins = s.pins) : t.Inv := by
  have hpi : s.pos.phase ≠ .idle := by
    rintro h'
    rw [h'] at h
    subst h
    simp [Phase.continues] at hpq
  refine hi.continues h hpq hvis sr hregs hpos hbusy hlast ?_ (hpins ▸ hi.pins) ?_
  · rw [hsck, hi.level hpi (h ▸ hsg), h, hh]
  · rw [hpins, hi.pin hpi (h ▸ hsg), h, hh]

/-- A step to the first calls of a group of pulses, the line low before it and after. -/
theorem State.Inv.startGroup (hi : s.Inv) (hpi : s.pos.phase ≠ .idle) (hsg : s.pos.phase ≠ .sgLow)
    (hl : s.pos.phase.clockHigh = false) (hpa : s.pos.phase ≠ .avgY) (hp0 : s.pos.phase ≠ .tq0)
    (hqi : t.pos.phase ≠ .idle) (hql : t.pos.phase.clockHigh = false) (hqa : t.pos.phase ≠ .avgY)
    (sr b2 b1 b0 : Byte) (hregs : t.regs = { s.regs with sr := sr, byte2 := b2, byte1 := b1, byte0 := b0 })
    (hop : t.pos.op = s.pos.op)
    (hvis : ∀ op, s.pos.op = some op → op.visits s.pos.phase = true → op.visits t.pos.phase = true)
    (hpulse : t.pos.phase.isGain = true →
      t.pos.pulseIx < if s.pos.op = some .clockPulse then 1 else s.regs.gainCode.pulses)
    (horder : t.pos.phase.isData = true →
      s.pos.phase.isData = true ∧ t.pos.order = s.pos.order ∨ t.pos.order = .msb)
    (hbusy : t.busy = s.busy) (hlast : t.env.lastMs = s.env.lastMs) (hsck : t.sckLevel = s.sckLevel)
    (hpins : t.pins = s.pins) : t.Inv := by
  refine hi.go hpi hqi sr b2 b1 b0 hregs hop hpulse horder hbusy (fun _ => hp0) hlast.ge hvis ?_ (hpins ▸ hi.pins) ?_ hqa hpa
  · rw [hsck, hi.level hpi hsg, hl, hql]
  · rw [hpins, hi.pin hpi hsg, hl, hql]

/-- A step that counts an attempt, a frame or the time, outside the pulses. -/
theorem State.Inv.count (hi : s.Inv) (hpi : s.pos.phase ≠ .idle) (hsg : s.pos.phase ≠ .sgLow)
    (hl : s.pos.phase.clockHigh = false) (hqi : t.pos.phase ≠ .idle) (hql : t.pos.phase.clockHigh = false)
    (hqd : t.pos.phase.isData = false) (hqg : t.pos.phase.isGain = false)
    (hop : t.pos.op = s.pos.op)
    (hvis : ∀ op, s.pos.op = some op → op.visits s.pos.phase = true → op.visits t.pos.phase = true)
    (hbusy : t.busy = s.busy) (hsck : t.sckLevel = s.sckLevel) (hpins : t.pins = s.pins)
    (hlc : t.regs.lifecycle = s.regs.lifecycle) (hcp : t.regs.clockPin = s.regs.clockPin)
    (hat : s.pos.op = some .waitReadyRetry → (t.regs.attempt : Int) < sext t.regs.argA)
    (hck : s.pos.op = some .waitReadyTimeout → t.regs.t0 ≤ t.env.lastMs)
    (hfr : ∀ op, s.pos.op = some op → op.takesMean = true → (t.regs.count : Int) < meanCount (some op) t.regs.argA)
    (hsum : ∀ op, s.pos.op = some op → op.takesMean = true →
      t.regs.sum.natAbs ≤ (t.regs.count + if t.pos.phase = .avgY then 1 else 0) * 2 ^ 23)
    (hf : t.regs.fill = 0x00 ∨ t.regs.fill = 0xFF)
    (hr : -(2 ^ 23) ≤ t.regs.result.toInt ∧ t.regs.result.toInt < 2 ^ 23) : t.Inv := by
  have hc := hi.configured hpi
  obtain ⟨op, ho, hv⟩ := hi.op hpi
  have hsl : t.sckLevel = Line.ofBool t.pos.phase.clockHigh := by rw [hsck, hi.level hpi hsg, hl, hql]
  constructor
  · rw [hbusy, hi.isBusy hpi]
    simp [hqi]
  · unfold Position.coherent
    rw [hop, ho]
    exact hvis op ho hv
  · exact State.lineFits_of (hlc.trans hc) hsl
  · intro h
    rw [hlc, hc] at h
    cases h
  · intro h
    rw [hqg] at h
    cases h
  · exact hop ▸ hat
  · exact fun h _ => hck (hop ▸ h)
  · exact hop ▸ hfr
  · exact hop ▸ hsum
  · intro _ _ _ h
    rw [hqd] at h
    cases h
  · exact hf
  · exact hr
  · exact hpins ▸ hi.pins
  · intro _ _
    rw [hpins, hcp, hi.pin hpi hsg, hsl, hl, hql]
    rfl

end inside

/-! ## What a frame assembles (R144 to R147) -/

theorem assemble_toInt (byte2 byte1 byte0 : Byte) :
    (assemble (fillOf byte2) byte2 byte1 byte0).toInt = (byte2 ++ byte1 ++ byte0 : BitVec 24).toInt := by
  rw [assemble_append, fillOf_append]
  exact BitVec.toInt_signExtend_of_le (by decide)

theorem toInt_bounds (v : BitVec 24) : -(2 ^ 23) ≤ v.toInt ∧ v.toInt < 2 ^ 23 :=
  ⟨BitVec.le_toInt v, BitVec.toInt_lt⟩

theorem assembleFrame_result_bounds (r : Regs) :
    -(2 ^ 23) ≤ r.assembleFrame.result.toInt ∧ r.assembleFrame.result.toInt < 2 ^ 23 := by
  rw [Regs.assembleFrame_result, assemble_toInt]
  exact toInt_bounds _

/-- A frame that is not one of a mean ends its operation (R229). -/
theorem State.exists_endFrame_eq_respond {op : Op} (hk : op.kind = .frame) (hm : op.takesMean = false) (s : State) :
    ∃ r, s.endFrame op = s.respond r := by
  obtain rfl | rfl | rfl := Op.eq_of_kind_frame hk hm <;> exact ⟨_, rfl⟩

/-! ## Phase by phase -/

section phases
variable {s : State}

theorem State.Inv.step_sgLow (hi : s.Inv) (h : s.pos.phase = .sgLow) : ∃ t, step s = .next t ∧ t.Inv :=
  ⟨_, Machine.step_sgLow h, hi.drive h .chk rfl (fun _ hv => Op.visits_chk_of_kind (.inr (Op.kind_of_visits_sgLow hv))) rfl⟩

theorem State.Inv.step_dHiW (hi : s.Inv) (h : s.pos.phase = .dHiW) : ∃ t, step s = .next t ∧ t.Inv :=
  ⟨_, Machine.step_dHiW h, hi.drive h .dHiD rfl (fun _ hv => hv) rfl⟩

theorem State.Inv.step_dHiD (hi : s.Inv) (h : s.pos.phase = .dHiD) : ∃ t, step s = .next t ∧ t.Inv :=
  ⟨_, Machine.step_dHiD h, hi.hold h .dSmp rfl (fun _ _ hv => hv) rfl (by decide) _ rfl rfl rfl le_rfl rfl rfl⟩

theorem State.Inv.step_dSmp (hi : s.Inv) (h : s.pos.phase = .dSmp) : ∃ t, step s = .next t ∧ t.Inv :=
  ⟨_, Machine.step_dSmp h, hi.hold h .dLoW rfl (fun _ _ hv => hv) rfl (by decide) _ rfl rfl rfl le_rfl rfl rfl⟩

theorem State.Inv.step_dLoW (hi : s.Inv) (h : s.pos.phase = .dLoW) : ∃ t, step s = .next t ∧ t.Inv :=
  ⟨_, Machine.step_dLoW h, hi.drive h .dLoD rfl (fun _ hv => hv) rfl⟩

theorem State.Inv.step_gHiW (hi : s.Inv) (h : s.pos.phase = .gHiW) : ∃ t, step s = .next t ∧ t.Inv :=
  ⟨_, Machine.step_gHiW h, hi.drive h .gHiD rfl (fun _ hv => hv) rfl⟩

theorem State.Inv.step_gHiD (hi : s.Inv) (h : s.pos.phase = .gHiD) : ∃ t, step s = .next t ∧ t.Inv :=
  ⟨_, Machine.step_gHiD h, hi.hold h .gLoW rfl (fun _ _ hv => hv) rfl (by decide) _ rfl rfl rfl le_rfl rfl rfl⟩

theorem State.Inv.step_gLoW (hi : s.Inv) (h : s.pos.phase = .gLoW) : ∃ t, step s = .next t ∧ t.Inv :=
  ⟨_, Machine.step_gLoW h, hi.drive h .gLoD rfl (fun _ hv => hv) rfl⟩

/-- An operation that ends in a phase with the line low, the data registers kept or a frame assembled. -/
theorem State.Inv.respond (hi : s.Inv) {p : Phase} (h : s.pos.phase = p) (hp : p ≠ .idle) (hsg : p ≠ .sgLow)
    (hl : p.clockHigh = false) {t : State} (r : Response) (hlc : t.regs.lifecycle = s.regs.lifecycle)
    (hcp : t.regs.clockPin = s.regs.clockPin) (hf : t.regs.fill = 0x00 ∨ t.regs.fill = 0xFF)
    (hr : -(2 ^ 23) ≤ t.regs.result.toInt ∧ t.regs.result.toInt < 2 ^ 23) (hpins : t.pins = s.pins)
    (hsck : t.sckLevel = s.sckLevel) : (t.respond r).Inv := by
  subst h
  exact hi.done hp hsg hl rfl rfl rfl hlc hcp hf hr hpins hsck

/-- The readiness check: IS_READY and a wait end on it, a frame begins, or a pause comes (R219). -/
theorem State.Inv.step_chk (hi : s.Inv) (h : s.pos.phase = .chk) : ∃ t, step s = .next t ∧ t.Inv := by
  obtain ⟨op, ho, hv⟩ := hi.op (by rw [h]; decide)
  rw [h] at hv
  rw [Machine.step_chk h]
  have hends (r : Response) : (s.pinRead.respond r).Inv :=
    hi.respond h (by decide) (by decide) rfl r rfl rfl hi.fill hi.result rfl rfl
  have hpauses (hk : op.kind = .wait ∨ op.kind = .frame) : (s.pinRead.goto .pau).Inv := by
    refine hi.hold h .pau rfl (fun op' ho' _ => ?_) rfl (by decide) s.regs.sr rfl rfl rfl le_rfl rfl rfl
    obtain rfl : op = op' := Option.some.inj (ho.symm.trans ho')
    exact Op.visits_pau_of_kind hk
  obtain rfl | hk := Op.kind_of_visits_chk hv
  · exact ⟨_, seqChk_isReady ho, hends _⟩
  · cases hl : s.level with
    | true => exact ⟨_, seqChk_of_high ho hk hl, hpauses hk⟩
    | false =>
      obtain hk | hk := hk
      · exact ⟨_, seqChk_wait_of_low ho hk hl, hends _⟩
      · refine ⟨_, seqChk_frame_of_low ho hk hl, ?_⟩
        refine hi.startGroup (by rw [h]; decide) (by rw [h]; decide) (by rw [h]; rfl) (by rw [h]; decide)
          (by rw [h]; decide) (by rintro ⟨⟩) rfl (by rintro ⟨⟩) 0 _ _ _ rfl rfl (fun op' ho' _ => ?_) (by rintro ⟨⟩)
          (fun _ => .inr rfl) rfl rfl rfl rfl
        obtain rfl : op = op' := Option.some.inj (ho.symm.trans ho')
        rw [Op.visits_of_isData rfl, hk]
        rfl

/-- The pause after a failed check: the next check or the next round, or a retry out of attempts (R220). -/
theorem State.Inv.step_pau (hi : s.Inv) (h : s.pos.phase = .pau) : ∃ t, step s = .next t ∧ t.Inv := by
  obtain ⟨op, ho, hv⟩ := hi.op (by rw [h]; decide)
  rw [h] at hv
  rw [Machine.step_pau h]
  have hgoes (n : Nat) (q : Phase) (hq : Phase.pau.continues q = true) (hh : q.clockHigh = false)
      (hvq : op.visits q = true) : ((s.pauseMs n).goto q).Inv := by
    refine hi.hold h q hq (fun op' ho' _ => ?_) hh (by decide) s.regs.sr rfl rfl rfl le_rfl rfl rfl
    obtain rfl : op = op' := Option.some.inj (ho.symm.trans ho')
    exact hvq
  obtain hk | hk := Op.kind_of_visits_pau hv
  · obtain rfl | rfl | rfl := Op.eq_of_kind_wait hk
    · exact ⟨_, seqPau_waitReady ho, hgoes _ _ rfl rfl rfl⟩
    · exact ⟨_, seqPau_waitReadyTimeout ho, hgoes _ _ rfl rfl rfl⟩
    · by_cases hlt : (s.regs.attempt : Int) + 1 < s.regs.argA.toInt
      · refine ⟨_, seqPau_waitReadyRetry_of_lt ho hlt, ?_⟩
        refine hi.count (by rw [h]; decide) (by rw [h]; decide) (by rw [h]; rfl) (by rintro ⟨⟩) rfl rfl rfl rfl
          (fun op' ho' _ => ?_) rfl rfl rfl rfl rfl (fun _ => ?_) (by rw [ho]; rintro ⟨⟩) ?_ ?_ hi.fill hi.result
        · obtain rfl := Option.some.inj (ho.symm.trans ho')
          rfl
        · simpa [sext] using hlt
        · rw [ho]
          rintro _ ⟨⟩ ⟨⟩
        · rw [ho]
          rintro _ ⟨⟩ ⟨⟩
      · exact ⟨_, seqPau_waitReadyRetry_of_le ho (not_lt.mp hlt),
          hi.respond h (by decide) (by decide) rfl _ rfl rfl hi.fill hi.result rfl rfl⟩
  · exact ⟨_, seqPau_frame ho hk, hgoes _ _ rfl rfl (Op.visits_chk_of_kind (.inr hk))⟩

/-- The clock at the entry of WAIT_READY_TIMEOUT (R221). -/
theorem State.Inv.step_tq0 (hi : s.Inv) (h : s.pos.phase = .tq0) : ∃ t, step s = .next t ∧ t.Inv := by
  obtain ⟨op, ho, hv⟩ := hi.op (by rw [h]; decide)
  obtain rfl := Op.eq_waitReadyTimeout_of_visits (.inl (h ▸ hv))
  refine ⟨_, Machine.step_tq0 h, ?_⟩
  refine hi.count (by rw [h]; decide) (by rw [h]; decide) (by rw [h]; rfl) (by rintro ⟨⟩) rfl rfl rfl rfl
    (fun op' ho' _ => ?_) rfl rfl rfl rfl rfl (by rw [ho]; rintro ⟨⟩) (fun _ => le_rfl) ?_ ?_ hi.fill hi.result
  · obtain rfl := Option.some.inj (ho.symm.trans ho')
    rfl
  · rw [ho]
    rintro _ ⟨⟩ ⟨⟩
  · rw [ho]
    rintro _ ⟨⟩ ⟨⟩

/-- The clock at the head of a round (R222). -/
theorem State.Inv.step_tq (hi : s.Inv) (h : s.pos.phase = .tq) : ∃ t, step s = .next t ∧ t.Inv := by
  obtain ⟨op, ho, hv⟩ := hi.op (by rw [h]; decide)
  obtain rfl := Op.eq_waitReadyTimeout_of_visits (.inr (h ▸ hv))
  refine ⟨_, Machine.step_tq h, ?_⟩
  split
  · refine hi.hold h .chk rfl (fun op' ho' _ => ?_) rfl (by decide) s.regs.sr rfl rfl rfl s.lastMs_le_nowMs rfl rfl
    obtain rfl := Option.some.inj (ho.symm.trans ho')
    rfl
  · exact hi.respond h (by decide) (by decide) rfl _ rfl rfl hi.fill hi.result rfl rfl

/-- The low hold of a data pulse (R226). -/
theorem State.Inv.step_dLoD (hi : s.Inv) (h : s.pos.phase = .dLoD) : ∃ t, step s = .next t ∧ t.Inv := by
  obtain ⟨op, ho, hv⟩ := hi.op (by rw [h]; decide)
  rw [Machine.step_dLoD h]
  have hpulse (t : State) (hd : t.pos.phase = .dHiW) (ho' : t.pos.order = s.pos.order) (sr b2 b1 b0 : Byte)
      (hregs : t.regs = { s.regs with sr := sr, byte2 := b2, byte1 := b1, byte0 := b0 }) (hop : t.pos.op = s.pos.op)
      (hbusy : t.busy = s.busy) (hlast : t.env.lastMs = s.env.lastMs) (hsck : t.sckLevel = s.sckLevel)
      (hpins : t.pins = s.pins) : t.Inv := by
    refine hi.startGroup (by rw [h]; decide) (by rw [h]; decide) (by rw [h]; rfl) (by rw [h]; decide)
      (by rw [h]; decide) (by rw [hd]; decide) (by rw [hd]; rfl) (by rw [hd]; decide) sr b2 b1 b0 hregs hop ?_
      (by rw [hd]; rintro ⟨⟩) (fun _ => .inl ⟨by rw [h]; rfl, ho'⟩) hbusy hlast hsck hpins
    rw [h, hd]
    exact fun _ _ hv => hv
  by_cases hlt : s.pos.bitIx < 7
  · exact ⟨_, seqDLoD_of_lt hlt, hpulse _ rfl rfl _ _ _ _ rfl rfl rfl rfl rfl rfl⟩
  · have h7 : s.pos.bitIx.val = 7 := by
      have := s.pos.bitIx.isLt
      rw [Fin.lt_def] at hlt
      simp at hlt
      omega
    rw [h, Op.visits_of_isData rfl] at hv
    by_cases hk : op.kind = .frame
    · refine ⟨_, seqDLoD_frame h7 ho hk, ?_⟩
      obtain hb | hb | hb : s.pos.byteIx = 2 ∨ s.pos.byteIx = 1 ∨ s.pos.byteIx = 0 := by omega
      · rw [State.endGroup_two (s := s.delayUs Config.tLoMin) hb]
        exact hpulse _ rfl rfl _ _ _ _ rfl rfl rfl rfl rfl rfl
      · rw [State.endGroup_one (s := s.delayUs Config.tLoMin) hb]
        exact hpulse _ rfl rfl _ _ _ _ rfl rfl rfl rfl rfl rfl
      · rw [State.endGroup_zero (s := s.delayUs Config.tLoMin) hb]
        refine hi.startGroup (by rw [h]; decide) (by rw [h]; decide) (by rw [h]; rfl) (by rw [h]; decide)
          (by rw [h]; decide) (by rintro ⟨⟩) rfl (by rintro ⟨⟩) s.regs.sr _ _ _ rfl rfl (fun op' ho' _ => ?_)
          (fun _ => ?_) (by rintro ⟨⟩) rfl rfl rfl rfl
        · obtain rfl : op = op' := Option.some.inj (ho.symm.trans ho')
          show op.visits .gHiW = true
          rw [Op.visits_of_isGain rfl, hk]
          rfl
        · show 0 < _
          split
          · decide
          · exact GainCode.pulses_pos _
    · obtain rfl : op = .shiftByte := by simpa [hk] using hv
      exact ⟨_, seqDLoD_shiftByte h7 ho,
        hi.respond h (by decide) (by decide) rfl _ rfl rfl hi.fill hi.result rfl rfl⟩

/-- The low hold of a gain pulse, and the end of a frame (R228, R229). -/
theorem State.Inv.step_gLoD (hi : s.Inv) (h : s.pos.phase = .gLoD) : ∃ t, step s = .next t ∧ t.Inv := by
  obtain ⟨op, ho, hv⟩ := hi.op (by rw [h]; decide)
  rw [Machine.step_gLoD h]
  rw [h, Op.visits_of_isGain rfl] at hv
  have hpulses := hi.pulses (by rw [h]; rfl)
  by_cases hk : op.kind = .frame
  · have hne : s.pos.op ≠ some .clockPulse := by
      rw [ho]
      rintro ⟨⟩
      cases hk
    rw [if_neg hne, ← GainCode.code_toNat] at hpulses
    by_cases hlt : s.pos.pulseIx + 1 < s.regs.gainCode.code.toNat
    · refine ⟨_, seqGLoD_frame_of_lt ho hk hlt, ?_⟩
      refine hi.startGroup (by rw [h]; decide) (by rw [h]; decide) (by rw [h]; rfl) (by rw [h]; decide)
        (by rw [h]; decide) (by rintro ⟨⟩) rfl (by rintro ⟨⟩) s.regs.sr _ _ _ rfl rfl ?_
        (fun _ => ?_) (by rintro ⟨⟩) rfl rfl rfl rfl
      · rw [h]
        exact fun _ _ hv => hv
      · rwa [if_neg hne, ← GainCode.code_toNat]
    · refine ⟨_, seqGLoD_frame_of_eq ho hk (by omega), ?_⟩
      have hends (r : Response) : ((s.gainPulseDone.setRegs Regs.assembleFrame).closeFrame.respond r).Inv :=
        hi.respond h (by decide) (by decide) rfl r rfl rfl (fillOf_cases _) (assembleFrame_result_bounds s.regs) rfl rfl
      by_cases hm : op.takesMean = true
      · rw [State.endFrame_of_takesMean hm]
        refine hi.count (by rw [h]; decide) (by rw [h]; decide) (by rw [h]; rfl) (by rintro ⟨⟩) rfl rfl rfl rfl
          (fun op' ho' _ => ?_) rfl rfl rfl rfl rfl hi.attempts (fun hop => hi.clock hop (by rw [h]; decide)) hi.frames
          (fun op' ho' hm' => ?_) (fillOf_cases _) (assembleFrame_result_bounds s.regs)
        · obtain rfl : op = op' := Option.some.inj (ho.symm.trans ho')
          show op.visits .avgY = true
          simp [Op.visits, hk, hm]
        · have hs := hi.sum op' ho' hm'
          have hb := assembleFrame_result_bounds s.regs
          rw [if_neg (by rw [h]; decide)] at hs
          show (s.regs.sum + s.regs.assembleFrame.result.toInt).natAbs ≤ (s.regs.count + 1) * 2 ^ 23
          omega
      · obtain ⟨r, hr⟩ := State.exists_endFrame_eq_respond hk (by simpa using hm)
          (s.gainPulseDone.setRegs Regs.assembleFrame).closeFrame
        exact hr ▸ hends r
  · obtain rfl : op = .clockPulse := by simpa [hk] using hv
    exact ⟨_, seqGLoD_clockPulse ho, hi.respond h (by decide) (by decide) rfl _ rfl rfl hi.fill hi.result rfl rfl⟩

/-- The yield after a frame: the next frame, or the end of the mean (R230). -/
theorem State.Inv.step_avgY (hi : s.Inv) (h : s.pos.phase = .avgY) : ∃ t, step s = .next t ∧ t.Inv := by
  obtain ⟨op, ho, hv⟩ := hi.op (by rw [h]; decide)
  have hm := Op.takesMean_of_visits_avgY (h ▸ hv)
  rw [Machine.step_avgY h]
  by_cases hlt : (s.regs.count : Int) + 1 < meanCount (some op) s.regs.argA
  · refine ⟨_, seqAvgY_of_lt ho rfl hlt, ?_⟩
    refine hi.count (by rw [h]; decide) (by rw [h]; decide) (by rw [h]; rfl) (by rintro ⟨⟩) rfl rfl rfl rfl
      (fun op' ho' _ => ?_) rfl rfl rfl rfl rfl hi.attempts (fun hop => hi.clock hop (by rw [h]; decide))
      (fun op' ho' _ => ?_) (fun op' ho' hm' => ?_) hi.fill hi.result
    · obtain rfl : op = op' := Option.some.inj (ho.symm.trans ho')
      exact Op.visits_chk_of_kind (.inr (Op.kind_of_takesMean hm))
    · obtain rfl : op = op' := Option.some.inj (ho.symm.trans ho')
      exact hlt
    · have hs := hi.sum op' ho' hm'
      rw [if_pos h] at hs
      exact hs
  · rw [seqAvgY_of_le ho rfl (not_lt.mp hlt)]
    have hends {t : State} (r : Response) (hlc : t.regs.lifecycle = s.regs.lifecycle)
        (hcp : t.regs.clockPin = s.regs.clockPin) (hf : t.regs.fill = s.regs.fill) (hr : t.regs.result = s.regs.result)
        (hpins : t.pins = s.pins) (hsck : t.sckLevel = s.sckLevel) : (t.respond r).Inv :=
      hi.respond h (by decide) (by decide) rfl r hlc hcp (hf ▸ hi.fill) (hr ▸ hi.result) hpins hsck
    obtain rfl | rfl | rfl | rfl := Op.eq_of_takesMean hm <;>
      exact ⟨_, rfl, hends _ rfl rfl rfl rfl rfl rfl⟩

end phases

/-- Settles O3: an idle block takes a command or idles, and each phase's step keeps the invariant. -/
theorem stepKeepsInvariantAndNeverStops : Obligations.StepKeepsInvariantAndNeverStops := by
  intro s hi
  cases h : s.pos.phase with
  | idle => exact hi.step_idle h
  | sgLow => exact hi.step_sgLow h
  | chk => exact hi.step_chk h
  | pau => exact hi.step_pau h
  | tq0 => exact hi.step_tq0 h
  | tq => exact hi.step_tq h
  | dHiW => exact hi.step_dHiW h
  | dHiD => exact hi.step_dHiD h
  | dSmp => exact hi.step_dSmp h
  | dLoW => exact hi.step_dLoW h
  | dLoD => exact hi.step_dLoD h
  | gHiW => exact hi.step_gHiW h
  | gHiD => exact hi.step_gHiD h
  | gLoW => exact hi.step_gLoW h
  | gLoD => exact hi.step_gLoD h
  | avgY => exact hi.step_avgY h

/-- Settles O53: the four bytes are the sign extension of the three. -/
theorem assemblyIsSignExtension : Obligations.AssemblyIsSignExtension := assemble_toInt
end Sys2Proof.Machine
end

section
/-! The statements about the encoding: decoding and encoding undo each other, up to the unused operand bits (R96 to R99). -/

namespace Sys2Proof

/-- The operation of a command with the operands of a word's two fields, as far as its format uses them (R96). -/
def Instr.withOperands (a b : Word) : Instr → Instr
  | .begin _ _ => .begin a b
  | .setGain _ => .setGain a
  | .waitReady _ => .waitReady a
  | .waitReadyRetry _ _ => .waitReadyRetry a b
  | .waitReadyTimeout _ _ => .waitReadyTimeout a b
  | .readAverage _ => .readAverage a
  | .getUnits _ => .getUnits a
  | .setScale _ => .setScale a
  | .setOffset _ => .setOffset a
  | .shiftByte _ => .shiftByte (.ofBit (a.getLsbD 0))
  | i => i

/-! ## A decoded command is its operation with the word's fields -/

theorem decode_withOperands (w : CommandWord) :
    (decode w).withOperands (operandA w) (operandB w) = decode w := by
  unfold decode
  split <;> rfl

/-- The operation is told from the opcode (R97). -/
theorem Instr.withOperands_of_opcode_eq {i j : Instr} (h : i.opcode = j.opcode) (a b : Word) :
    i.withOperands a b = j.withOperands a b := by
  revert h
  cases i <;> cases j <;> simp [Instr.opcode, Instr.withOperands]

theorem opcodeField_encode (i : Instr) : (encode i).extractLsb' 64 4 = i.opcode := by
  cases i <;> exact Laws.OpcodeField.of_pack _ _ _

theorem withOperands_encode (i : Instr) : i.withOperands (operandA (encode i)) (operandB (encode i)) = i := by
  cases i with
  | shiftByte o =>
    rw [encode, operandA_pack]
    cases o <;> rfl
  | _ => simp only [encode, operandA_pack, operandB_pack, Instr.withOperands]

/-- Settles O4: the opcode field of the word gives the operation back, its operand fields the operands. -/
theorem decodeOfEncode : Obligations.DecodeOfEncode := by
  intro i
  have hop : (decode (encode i)).opcode = i.opcode := (opcode_decode _).trans (opcodeField_encode i)
  calc decode (encode i)
      = (decode (encode i)).withOperands (operandA (encode i)) (operandB (encode i)) := (decode_withOperands _).symm
    _ = i.withOperands (operandA (encode i)) (operandB (encode i)) := Instr.withOperands_of_opcode_eq hop _ _
    _ = i := withOperands_encode i

/-! ## The bits a command uses (R96, R99) -/

/-- A word is its three fields (R96). -/
theorem pack_fields (w : CommandWord) : pack (w.extractLsb' 64 4) (operandA w) (operandB w) = w := by
  have h := and_pack w (BitVec.allOnes 4) (BitVec.allOnes 32) (BitVec.allOnes 32)
  rw [BitVec.and_allOnes, BitVec.and_allOnes, BitVec.and_allOnes] at h
  rw [← h, show pack (BitVec.allOnes 4) (BitVec.allOnes 32) (BitVec.allOnes 32) = BitVec.allOnes 68 by decide,
    BitVec.and_allOnes]

theorem and_word_mask (a : Word) : a &&& 0xFFFFFFFF#32 = a := BitVec.and_allOnes

theorem BitOrder.toBit_ofBit (b : Bool) : (BitOrder.ofBit b).toBit = b := by cases b <;> rfl

/-- The order bit, as an operand, is the lowest bit of the field (R99). -/
theorem ofNat_getLsbD_zero (a : Word) : BitVec.ofNat 32 (a.getLsbD 0).toNat = a &&& 1#32 := by
  apply BitVec.eq_of_getLsbD_eq
  intro i hi
  rw [BitVec.getLsbD_and, BitVec.getLsbD_one]
  rcases i with _ | i
  · cases a.getLsbD 0 <;> rfl
  · cases a.getLsbD 0 <;> simp

/-- A command encodes to its opcode and to the bits it uses of its operands' fields. -/
theorem encode_withOperands (i : Instr) (a b : Word) :
    encode (i.withOperands a b) = pack i.opcode a b &&& i.usedBits := by
  cases i with
  | shiftByte o =>
    simp [Instr.withOperands, Instr.opcode, Instr.usedBits, encode, and_pack, operandA_pack, operandB_pack,
      Laws.OpcodeField.of_pack, -BitVec.getLsbD_eq_getElem, BitOrder.toBit_ofBit, ofNat_getLsbD_zero]
  | _ =>
    simp [Instr.withOperands, Instr.opcode, Instr.usedBits, encode, and_pack, operandA_pack, operandB_pack,
      Laws.OpcodeField.of_pack, and_word_mask]

/-- Settles O5: the decoded command is its operation with the word's fields, of which encoding keeps the used bits. -/
theorem encodeOfDecodeKeepsUsedBits : Obligations.EncodeOfDecodeKeepsUsedBits := by
  intro w
  calc encode (decode w)
      = encode ((decode w).withOperands (operandA w) (operandB w)) := by rw [decode_withOperands]
    _ = pack (decode w).opcode (operandA w) (operandB w) &&& (decode w).usedBits := encode_withOperands _ _ _
    _ = w &&& (decode w).usedBits := by rw [opcode_decode, pack_fields]

/-- Every command uses the opcode field. -/
theorem opcodeField_and_usedBits (w : CommandWord) (i : Instr) :
    (w &&& i.usedBits).extractLsb' 64 4 = w.extractLsb' 64 4 := by
  have hF (m n : Word) : (w &&& pack 0xF m n).extractLsb' 64 4 = w.extractLsb' 64 4 := by
    rw [and_pack, Laws.OpcodeField.of_pack]
    exact BitVec.and_allOnes
  cases i <;> exact hF _ _

/-- Settles O6: words that agree in the bits used have one opcode, hence one format, and encode alike once decoded. -/
theorem unusedBitsAreIgnored : Obligations.UnusedBitsAreIgnored := by
  intro w w'
  refine ⟨opcode_decode w, fun h => ?_⟩
  have hop : (decode w').opcode = (decode w).opcode := by
    rw [opcode_decode, opcode_decode, ← opcodeField_and_usedBits w' (decode w), ← h, opcodeField_and_usedBits]
  have henc : encode (decode w') = encode (decode w) := by
    rw [encodeOfDecodeKeepsUsedBits, encodeOfDecodeKeepsUsedBits, usedBits_opcode _ _ hop, h]
  rw [← decodeOfEncode (decode w'), henc, decodeOfEncode]

/-- Settles O8: each word's opcode and operands are computed; of the reserved rows the opcode field alone counts. -/
theorem specWordsDecode : Obligations.SpecWordsDecode := by
  have hop (op : BitVec 4) (operands : BitVec 64) : (op ++ operands : BitVec 68).extractLsb' 64 4 = op :=
    BitVec.extractLsb'_append_eq_left
  refine ⟨by decide, by decide, by decide, by decide, by decide, by decide, by decide, by decide, by decide, by decide,
    by decide, by decide, by decide, by decide, by decide, by decide, by decide, fun operands => ⟨?_, ?_⟩⟩
  · exact decode_of_opcodeField_reserved0 (hop _ _)
  · exact decode_of_opcodeField_reservedF (hop _ _)

end Sys2Proof
end

section
/-! The statements about every step and every acceptance: what a step may change, and what a refusal does. -/

namespace Sys2Proof.Machine

/-! ## A step that takes a command -/

theorem ExecFrame.of_exec {i : Instr} {s u : State} (h : exec i s = .next u) : ExecFrame i s u := by
  obtain ⟨v, hv, hf⟩ := exec_frame i s
  rw [h] at hv
  cases hv
  exact hf

/-- A step is a sequencer step, or takes the word at the port of an idle block, which is not busy. -/
theorem step_frame {s t : State} (h : step s = .next t) :
    SequencerFrame s t ∨
      ∃ w u, s.pos.phase = .idle ∧ s.busy = false ∧ s.cmds.head? = some w ∧ ExecFrame (decode w) s u ∧ t = u.taken := by
  obtain ⟨hs, -⟩ | ⟨w, hp, hb, hw, u, hu, rfl⟩ := step_cases h
  · exact .inl hs
  · exact .inr ⟨w, u, hp, hb, hw, .of_exec hu, rfl⟩

/-! ## What only some steps change -/

/-- Settles O15: the sequencer's step makes the call of its phase, an acceptance none. -/
theorem stepMakesTheCallOfItsPhase : Obligations.StepMakesTheCallOfItsPhase := by
  intro s t h
  obtain hs | ⟨w, u, hp, -, -, hu, rfl⟩ := step_frame h
  · exact hs.trace
  · rw [State.taken_trace, hu.trace, State.phaseCall, hp, List.append_nil]

/-- Settles O31: no sequencer step writes the three registers, and of the commands BEGIN alone does. -/
theorem onlyBeginBindsAndConfigures : Obligations.OnlyBeginBindsAndConfigures := by
  intro s t h
  obtain hs | ⟨w, u, hp, -, hw, hu, rfl⟩ := step_frame h
  · exact .inl ⟨hs.lifecycle, hs.clockPin, hs.dataPin⟩
  · obtain hkept | ⟨c, d, hi, hl, hc, hd⟩ := hu.bound
    · exact .inl hkept
    · exact .inr ⟨w, c, d, hp, hw, hi, hl, hc, hd⟩

/-- Settles O32: no sequencer step writes GAIN_CODE, and of the commands BEGIN and SET_GAIN alone do. -/
theorem onlyGainOperationsWriteGainCode : Obligations.OnlyGainOperationsWriteGainCode := by
  intro s t h hne
  obtain hs | ⟨w, u, hp, -, hw, hu, rfl⟩ := step_frame h
  · exact absurd hs.gainCode hne
  · exact ⟨w, hp, hw, hu.gainCode hne⟩

/-- Settles O33: the end of TARE and of SET_SCALE among the sequencer's steps, SET_OFFSET among the commands. -/
theorem calibrationWriters : Obligations.CalibrationWriters := by
  intro s t h
  obtain hs | ⟨w, u, hp, -, hw, hu, rfl⟩ := step_frame h
  · exact ⟨fun hne => .inl (hs.offset hne), hs.scale⟩
  · refine ⟨fun hne => .inr ?_, fun hne => absurd hu.scale hne⟩
    obtain ⟨v, hv⟩ := hu.offset hne
    exact ⟨w, v, hp, hw, hv⟩

/-- Settles O34: a step leaves the pin space alone or writes the clock pin in one of the five phases. -/
theorem stepWritesNoPinButTheClockPin : Obligations.StepWritesNoPinButTheClockPin := by
  intro s t h pin hpin
  obtain hs | ⟨w, u, -, -, -, hu, rfl⟩ := step_frame h
  · obtain hkept | ⟨hphase, b, hwrite⟩ := hs.pins
    · rw [hkept]
    · rw [hwrite, Memory.read_write_of_ne _ _ (hpin.resolve_right (not_not.mpr hphase))]
  · rw [State.taken_pins, hu.pins]

/-- Settles O11: a busy block steps by the sequencer, which leaves the port alone. -/
theorem busyTakesNoCommand : Obligations.BusyTakesNoCommand := by
  refine fun s hb => ⟨fun t h => ?_, fun i => exec_busy i s hb⟩
  obtain hs | ⟨w, u, -, hb', -⟩ := step_frame h
  · exact hs.cmds
  · rw [hb] at hb'
    cases hb'

/-! ## What an acceptance answers (R217) -/

/-- The operands a performed command latches: those it uses, and for the others the fields of the word at the port. -/
def latchedOperands (s : State) : Instr → Word × Word
  | .begin c d => (c, d)
  | .setGain g => (g, s.portB)
  | .waitReady p => (p, s.portB)
  | .waitReadyRetry n p => (n, p)
  | .waitReadyTimeout t p => (t, p)
  | .readAverage n => (n, s.portB)
  | .getUnits n => (n, s.portB)
  | .setScale w => (w, s.portB)
  | .setOffset v => (v, s.portB)
  | .shiftByte o => (orderOperand o s.portA, s.portB)
  | _ => (s.portA, s.portB)

/-- The command is performed: its operands latched, and no response given or one that is no refusal. -/
structure Performed (i : Instr) (s t : State) : Prop where
  operands : (t.regs.argA, t.regs.argB) = latchedOperands s i
  responses : t.responses = s.responses ∨ t.responses = s.responses ++ [.none] ∨
    t.responses = s.responses ++ [.bool false]

/-- An operation behind the configuration test is refused or taken. -/
theorem refused_or_taken {s : State} (hb : s.busy = false) {take : State → State} {P : State → Prop}
    (h : (∃ reason, take s = s.refuse reason) ∨ P (take s)) :
    ∃ t, s.offered (State.whenConfigured take) = .next t ∧ ((∃ reason, t = s.refuse reason) ∨ P t) := by
  cases hl : s.regs.lifecycle with
  | uninitialized => exact ⟨_, offered_uninitialized hb hl take, .inl ⟨_, rfl⟩⟩
  | configured => exact ⟨_, offered_configured hb hl take, h⟩

/-- A block that is not busy refuses a command, and changes nothing else, or performs it. -/
theorem exec_refused_or_performed (i : Instr) {s : State} (hb : s.busy = false) :
    ∃ t, exec i s = .next t ∧ ((∃ reason, t = s.refuse reason) ∨ Performed i s t) := by
  have hcounted (n : Word) (op : Op) : (∃ reason, State.whenCounted n (State.acceptMean op n) s = s.refuse reason) ∨
      State.whenCounted n (State.acceptMean op n) s = s.acceptMean op n := by
    unfold State.whenCounted
    split
    · exact .inl ⟨_, rfl⟩
    · exact .inr rfl
  cases i with
  | reserved0 => exact ⟨_, exec_reserved0 hb, .inl ⟨_, rfl⟩⟩
  | reservedF => exact ⟨_, exec_reservedF hb, .inl ⟨_, rfl⟩⟩
  | begin c d => exact ⟨_, exec_begin hb c d, .inr ⟨rfl, .inl rfl⟩⟩
  | readAverage n =>
    exact refused_or_taken hb ((hcounted n .readAverage).imp_right fun h => by rw [h]; exact ⟨rfl, .inl rfl⟩)
  | getUnits n =>
    exact refused_or_taken hb ((hcounted n .getUnits).imp_right fun h => by rw [h]; exact ⟨rfl, .inl rfl⟩)
  | waitReadyRetry n p =>
    refine refused_or_taken hb (.inr ?_)
    dsimp only
    split
    · exact ⟨rfl, .inl rfl⟩
    · exact ⟨rfl, .inr (.inr rfl)⟩
  | setOffset v => exact refused_or_taken hb (.inr ⟨rfl, .inr (.inl rfl)⟩)
  | _ => exact refused_or_taken hb (.inr ⟨rfl, .inl rfl⟩)

/-- Settles O14: a command that is performed gives no response but none and false, so the state is the refused one. -/
theorem refusalChangesNothingElse : Obligations.RefusalChangesNothingElse := by
  intro i s t reason h hr
  by_cases hb : s.busy = true
  · rw [exec_busy i s hb] at h
    cases h
    simp at hr
  · obtain ⟨u, hu, hcases⟩ := exec_refused_or_performed i (Bool.not_eq_true _ ▸ hb)
    rw [h] at hu
    cases hu
    obtain ⟨reason', rfl⟩ | hp := hcases
    · rw [← hr]
      rfl
    · obtain h' | h' | h' := hp.responses <;> rw [h'] at hr <;> simp at hr

/-- The command a word decodes to latches the word's two fields, whichever of them it uses. -/
theorem latchedOperands_decode {s : State} {w : CommandWord} {rest : List CommandWord} (hc : s.cmds = w :: rest) :
    latchedOperands s (decode w) = (operandA w, operandB w) := by
  have hA : s.portA = operandA w := by simp [State.portA, hc]
  have hB : s.portB = operandB w := by simp [State.portB, hc]
  have ho : orderOperand (.ofBit ((operandA w).getLsbD 0)) (operandA w) = operandA w := by
    rw [orderOperand, BitOrder.toBit_ofBit]
    apply BitVec.eq_of_getLsbD_eq
    intro i hi
    refine (BitVec.getLsbD_append (x := (operandA w).extractLsb' 1 31)).trans ?_
    rcases i with _ | i
    · simp
    · simp [show i < 31 by omega, Nat.add_comm 1 i]
  unfold decode
  split <;> simp only [latchedOperands, hA, hB, ho]

/-- Settles O10: a step of an idle block with a word is `exec` of it, the word taken; with none it idles. -/
theorem stepPerformsOfferedCommand : Obligations.StepPerformsOfferedCommand := by
  refine ⟨fun s t w rest hp hb hc h => ⟨(ExecFrame.of_exec h).cmds, ?_, ?_⟩, fun s hp hc => step_of_no_word hp hc⟩
  · rw [step_of_word hp hb hc, h, takingWord, State.taken, (ExecFrame.of_exec h).cmds, hc, List.tail_cons]
  · obtain ⟨u, hu, hcases⟩ := exec_refused_or_performed (decode w) hb
    rw [h] at hu
    cases hu
    obtain ⟨reason, rfl⟩ | hperf := hcases
    · exact .inl ⟨reason, rfl⟩
    · have hl := hperf.operands.trans (latchedOperands_decode hc)
      exact .inr (Prod.mk.inj hl)

/-! ## The rows of the acceptance table (R217) -/

section rows
variable {s : State} (hs : s.standsReady)
include hs

theorem exec_isReady : exec .isReady s = .next (s.accept .isReady s.portA s.portB .chk) :=
  offered_configured hs.1 hs.2 _

theorem exec_readRaw : exec .readRaw s = .next (s.accept .readRaw s.portA s.portB .chk) :=
  offered_configured hs.1 hs.2 _

theorem exec_waitReady (p : Word) : exec (.waitReady p) s = .next (s.accept .waitReady p s.portB .chk) :=
  offered_configured hs.1 hs.2 _

theorem exec_waitReadyRetry {n : Word} (p : Word) (hn : 0 < n.toInt) :
    exec (.waitReadyRetry n p) s =
      .next ((s.accept .waitReadyRetry n p .chk).setRegs ({ · with attempt := 0 })) :=
  (offered_configured hs.1 hs.2 _).trans (congrArg _ (if_pos hn))

theorem exec_waitReadyRetry_of_nonpos {n : Word} (p : Word) (hn : n.toInt ≤ 0) :
    exec (.waitReadyRetry n p) s =
      .next (((s.accept .waitReadyRetry n p .chk).setRegs ({ · with attempt := 0 })).respond (.bool false)) :=
  (offered_configured hs.1 hs.2 _).trans (congrArg _ (if_neg hn.not_gt))

theorem exec_waitReadyTimeout (m p : Word) :
    exec (.waitReadyTimeout m p) s = .next (s.accept .waitReadyTimeout m p .tq0) :=
  offered_configured hs.1 hs.2 _

theorem exec_shiftByte (o : BitOrder) :
    exec (.shiftByte o) s = .next (((s.accept .shiftByte (orderOperand o s.portA) s.portB .dHiW).setRegs
      Regs.clearSr).setPos (Position.startGroup o)) :=
  offered_configured hs.1 hs.2 _

theorem exec_clockPulse :
    exec .clockPulse s = .next ((s.accept .clockPulse s.portA s.portB .gHiW).setPos ({ · with pulseIx := 0 })) :=
  offered_configured hs.1 hs.2 _

theorem exec_setGain (g : Word) :
    exec (.setGain g) s = .next ((s.accept .setGain g s.portB .sgLow).setRegs (Regs.selectGain g)) :=
  offered_configured hs.1 hs.2 _

theorem exec_readAverage {n : Word} (hn : 1 ≤ n.toInt) :
    exec (.readAverage n) s = .next (s.acceptMean .readAverage n) :=
  (offered_configured hs.1 hs.2 _).trans (congrArg _ (if_neg hn.not_gt))

theorem exec_getUnits {n : Word} (hn : 1 ≤ n.toInt) : exec (.getUnits n) s = .next (s.acceptMean .getUnits n) :=
  (offered_configured hs.1 hs.2 _).trans (congrArg _ (if_neg hn.not_gt))

theorem exec_tare : exec .tare s = .next (s.acceptMean .tare s.portA) := offered_configured hs.1 hs.2 _

theorem exec_setScale (w : Word) : exec (.setScale w) s = .next (s.acceptMean .setScale w) :=
  offered_configured hs.1 hs.2 _

theorem exec_setOffset (v : Word) :
    exec (.setOffset v) s = .next (((s.accept .setOffset v s.portB .idle).setRegs
      ({ · with offset := numOperand v })).respond .none) :=
  offered_configured hs.1 hs.2 _

end rows

/-- Settles O16: the rows of the table, the retry's by whether it has an attempt. -/
theorem acceptanceOfProbeWaitsAndTransport : Obligations.AcceptanceOfProbeWaitsAndTransport := by
  intro s hs
  refine ⟨exec_isReady hs, exec_readRaw hs, fun p => exec_waitReady hs p, fun n p hn => exec_waitReadyRetry hs p hn,
    fun n p hn => ?_, fun t p => exec_waitReadyTimeout hs t p, fun o => exec_shiftByte hs o, exec_clockPulse hs⟩
  rw [exec_waitReadyRetry_of_nonpos hs p hn, State.respond, ← hs.1]
  rfl

/-- Settles O17: the rows of the table. -/
theorem acceptanceOfConfigurationAndMeans : Obligations.AcceptanceOfConfigurationAndMeans := by
  intro s hb
  refine ⟨fun c d => exec_begin hb c d, fun hl => ?_⟩
  have hs : s.standsReady := ⟨hb, hl⟩
  exact ⟨fun g => exec_setGain hs g, fun n hn => exec_readAverage hs hn, fun n hn => exec_getUnits hs hn, exec_tare hs,
    fun w => exec_setScale hs w⟩

/-- Settles O18: the row of SET_OFFSET, whose response leaves BUSY as it was. -/
theorem setOffsetCompletes : Obligations.SetOffsetCompletes := by
  intro s v hs
  rw [exec_setOffset hs, State.respond, ← hs.1]
  rfl

/-! ## Reset, and the round of WAIT_READY_TIMEOUT -/

/-- Settles O1: the reset state's fields. -/
theorem resetLeavesTheSpecsValues : Obligations.ResetLeavesTheSpecsValues :=
  ⟨rfl, rfl, rfl, rfl, rfl, rfl, rfl, fun _ => rfl⟩

/-- Settles O2: the reset state is idle, with no line driven. -/
theorem resetKeepsInvariant : Obligations.ResetKeepsInvariant :=
  State.inv_idle rfl rfl rfl rfl (.inl rfl) (by decide) rfl (by rintro ⟨⟩)

/-- Settles O23: the elapsed time is exact, since the clock has not gone back behind T0. -/
theorem sequencerTimeoutRound : Obligations.SequencerTimeoutRound := by
  intro s h h0
  have h0t : s.regs.t0 ≤ s.clockMs := h0.trans s.lastMs_le_clockMs
  refine ⟨s.clockMs, s.nowMs.env, h0t, rfl, fun hlt => ?_, fun hle => ?_⟩
  · rw [step_tq h, seqTq, if_pos (show s.clockMs - s.regs.t0 < zext s.regs.argA by unfold zext; omega)]
    rfl
  · rw [step_tq h, seqTq, if_neg (show ¬ s.clockMs - s.regs.t0 < zext s.regs.argA by unfold zext; omega)]
    rfl

end Sys2Proof.Machine
end

section
/-! The sequencer and the big-step rules agree, in both directions (R18, R231). -/

namespace Sys2Proof.Machine

/-! ## The big-step rules of an accepted operation -/

section performed
variable {s : State}

theorem bigConfigured_of_configured (hl : s.regs.lifecycle = .configured) (perform : State → Option State) :
    bigConfigured perform s = perform s := by
  simp [bigConfigured, hl]

theorem bigCounted_of_one_le {n : Word} (hn : 1 ≤ n.toInt) (perform : State → Option State) :
    bigCounted n perform s = perform s :=
  if_neg hn.not_gt

theorem bigCounted_of_lt_one {n : Word} (hn : n.toInt < 1) (perform : State → Option State) :
    bigCounted n perform s = some (s.refuse .invalidCount) :=
  if_pos hn

/-- From its acceptance in `s` a command's run ends, as many steps as events later, in `t`, position aside. -/
def PerformedAs (i : Instr) (s t : State) : Prop :=
  ∃ a u : State, exec i s = .next a ∧ a.trace = s.trace ∧ Reaches a u ∧ t.sameButPosition u ∧
    u.pos.op = none ∧ u.pos.phase = .idle

/-- The run of an accepted operation that ends in a response. -/
theorem PerformedAs.of_respond {i : Instr} {a v : State} {r : Response} (hb : v.busy = false)
    (ha : exec i s = .next a) (htrace : a.trace = s.trace) (p : Position)
    (hr : Reaches a ((v.standing p true).respond r)) : PerformedAs i s (v.answer r) :=
  ⟨a, _, ha, htrace, hr, respond_same p r id v hb, rfl, rfl⟩

theorem bigMean_argA {n : Int} {fuel : Nat} {v : State} (h : bigMean n fuel s = some v) :
    v.regs.argA = s.regs.argA :=
  (bigSamples_frame _ h).2

/-- The end of a mean, by what its operation makes of it, both ways (R230). -/
def finishMean (op : Op) (n : Int) (t : State) : State :=
  match op with
  | .getUnits => t.answer (.num (t.units (t.mean n)))
  | .tare => (t.setRegs ({ · with offset := t.mean n })).answer .none
  | .setScale => (t.setRegs ({ · with scale := t.scaleFor (t.mean n) t.regs.argA })).answer .none
  | _ => t.answer (.num (t.mean n))

theorem mean_performedAs {i : Instr} {op : Op} (hm : op.takesMean = true) {w : Word} {fuel : Nat} {v : State}
    (hb : s.busy = false) (ha : exec i s = .next (s.acceptMean op w)) (hn : 0 < meanCount (some op) w)
    (hv : bigMean (meanCount (some op) w) fuel (s.latched w s.portB) = some v) :
    PerformedAs i s (finishMean op (meanCount (some op) w) v) := by
  set p : Position := { s.pos with op := some op, phase := .chk } with hp
  obtain ⟨left, hleft⟩ : ∃ left, (meanCount (some op) w).toNat = left + 1 :=
    ⟨(meanCount (some op) w).toNat - 1, by omega⟩
  have hw := (bystander_standing p true).bigMean (meanCount (some op) w) fuel (s.latched w s.portB)
  rw [hv, bigMean, hleft] at hw
  obtain ⟨q, u, hr, hlen, hstep⟩ := samples_reaches left (s := s.acceptMean op w) rfl rfl hm
    (by show ((0 : Nat) : Int) + _ = meanCount (some op) w; omega) hw
  obtain ⟨hvb, -⟩ := keeps_busy (fun g hg s => hg.bigMean _ fuel s) hv
  have hvb : v.busy = false := hvb.trans hb
  obtain ⟨x, hx, hxr⟩ : ∃ x, step u = .next x ∧ (finishMean op (meanCount (some op) w) v).sameButPosition x ∧
      x.pos.op = none ∧ x.pos.phase = .idle ∧ x.trace = v.trace := by
    rw [hstep]
    obtain rfl | rfl | rfl | rfl := Op.eq_of_takesMean hm
    · exact ⟨_, rfl, respond_same p _ (fun _ => q) v hvb, rfl, rfl, rfl⟩
    · exact ⟨_, rfl, respond_same p _ (fun _ => q) v hvb, rfl, rfl, rfl⟩
    · exact ⟨_, rfl, respond_same p _ (fun _ => q) (v.setRegs _) hvb, rfl, rfl, rfl⟩
    · exact ⟨_, rfl, respond_same p _ (fun _ => q) (v.setRegs _) hvb, rfl, rfl, rfl⟩
  obtain ⟨hsame, hxo, hxp, hxt⟩ := hxr
  exact ⟨_, x, ha, rfl, hr.trans (.of_step hx (by rw [hxt]; exact hlen)), hsame, hxo, hxp⟩

end performed

theorem groupDone_shiftByte {t : State} (ho : t.pos.op = some .shiftByte) :
    groupDone t = .next (t.respond (srResponse t.regs)) := by
  rw [groupDone, ho]
  rfl

/-! ## Each operation, from acceptance to response -/

section operations
variable {s t : State} {fuel : Nat}

theorem begin_performedAs (hb : s.busy = false) {c d : PinId} (h : bigStep (.begin c d) fuel s = some t) :
    PerformedAs (.begin c d) s t := by
  obtain ⟨v, hv, rfl⟩ := Option.map_eq_some_iff.mp h
  obtain ⟨q, hr, hvb⟩ := setGain_agrees (op := .begin) (.inl rfl) 128 (by exact hb) hv
    { s.pos with op := some .begin, phase := .sgLow } rfl rfl
  exact .of_respond hvb (exec_begin hb c d) rfl q hr

section configured
variable (hs : s.standsReady)
include hs

theorem isReady_performedAs (h : bigStep .isReady fuel s = some t) : PerformedAs .isReady s t := by
  rw [bigStep, bigConfigured_of_configured hs.2] at h
  cases h
  refine .of_respond hs.1 (exec_isReady hs) rfl { s.pos with op := some .isReady, phase := .chk } (.of_step ?_ ?_)
  · exact (step_chk rfl).trans (seqChk_isReady rfl)
  · exact List.length_append

theorem setGain_performedAs {g : Word} (h : bigStep (.setGain g) fuel s = some t) :
    PerformedAs (.setGain g) s t := by
  rw [bigStep, bigConfigured_of_configured hs.2] at h
  obtain ⟨v, hv, rfl⟩ := Option.map_eq_some_iff.mp h
  obtain ⟨q, hr, hvb⟩ := setGain_agrees (op := .setGain) (.inr rfl) g (by exact hs.1) hv
    { s.pos with op := some .setGain, phase := .sgLow } rfl rfl
  exact .of_respond hvb (exec_setGain hs g) rfl q hr

theorem readRaw_performedAs (h : bigStep .readRaw fuel s = some t) : PerformedAs .readRaw s t := by
  rw [bigStep, bigConfigured_of_configured hs.2] at h
  obtain ⟨v, hv, rfl⟩ := Option.map_eq_some_iff.mp h
  obtain ⟨hr, hvb⟩ := frame_agrees (op := .readRaw) rfl (by exact hs.1) hv
    { s.pos with op := some .readRaw, phase := .chk } rfl rfl
  exact .of_respond hvb (exec_readRaw hs) rfl _ hr

theorem waitReady_performedAs {p : Word} (h : bigStep (.waitReady p) fuel s = some t) :
    PerformedAs (.waitReady p) s t := by
  rw [bigStep, bigConfigured_of_configured hs.2] at h
  obtain ⟨v, hv, rfl⟩ := Option.map_eq_some_iff.mp h
  have hvb := (keeps_busy (fun g hg s => hg.bigWaitReady _ fuel s) hv).1.trans hs.1
  have hw := (bystander_standing { s.pos with op := some .waitReady, phase := .chk } true).bigWaitReady (zext p) fuel
    (s.latched p s.portB)
  rw [hv] at hw
  exact .of_respond hvb (exec_waitReady hs p) rfl _
    (waitReady_reaches (s := s.accept .waitReady p s.portB .chk) rfl rfl hw)

theorem waitReadyRetry_performedAs {n p : Word} (h : bigStep (.waitReadyRetry n p) fuel s = some t) :
    PerformedAs (.waitReadyRetry n p) s t := by
  rw [bigStep, bigConfigured_of_configured hs.2] at h
  cases h
  set l := (s.latched n p).setRegs ({ · with attempt := 0 })
  have hby := bystander_standing { s.pos with op := some .waitReadyRetry, phase := .chk } true
  have hvb : (bigRetry (zext p) (sext n).toNat l).2.busy = false :=
    (keeps_busy (F := fun s => some (bigRetry (zext p) (sext n).toNat s).2)
      (fun g hg s => by rw [hg.bigRetry]; rfl) rfl).1.trans hs.1
  by_cases hn : 0 < n.toInt
  · obtain ⟨left, hleft⟩ : ∃ left, (sext n).toNat = left + 1 := ⟨(sext n).toNat - 1, by unfold sext; omega⟩
    have hr := retry_reaches left (s := l.standing { s.pos with op := some .waitReadyRetry, phase := .chk } true) rfl rfl
      (by show ((0 : Nat) : Int) + _ = sext n; omega)
    rw [show zext (l.standing _ true).regs.argB = zext p from rfl, hby.bigRetry, ← hleft] at hr
    exact .of_respond hvb (exec_waitReadyRetry hs p hn) rfl _ hr
  · have h0 : (sext n).toNat = 0 := by unfold sext; omega
    rw [h0]
    exact .of_respond hs.1 (exec_waitReadyRetry_of_nonpos hs p (by omega)) rfl _ (.refl _)

theorem waitReadyTimeout_performedAs {m p : Word} (h : bigStep (.waitReadyTimeout m p) fuel s = some t) :
    PerformedAs (.waitReadyTimeout m p) s t := by
  rw [bigStep, bigConfigured_of_configured hs.2] at h
  obtain ⟨⟨b, v⟩, hv, rfl⟩ := Option.map_eq_some_iff.mp h
  set l := (s.latched m p).nowMs.setRegs ({ · with t0 := (s.latched m p).clockMs })
  have hvb : v.busy = false :=
    (keeps_busy (F := fun s => (bigTimeout (zext m) (zext p) fuel s).map (·.2)) (s := l)
      (fun g hg s => by rw [hg.bigTimeout, Option.map_map, Option.map_map]; rfl) (by rw [hv]; rfl)).1.trans hs.1
  have hw := (bystander_standing { s.pos with op := some .waitReadyTimeout, phase := .tq } true).bigTimeout
    (zext m) (zext p) fuel l
  rw [hv] at hw
  refine .of_respond hvb (exec_waitReadyTimeout hs m p) rfl _ (.trans (.of_step (step_tq0 rfl) ?_)
    (timeout_reaches (s := l.standing { s.pos with op := some .waitReadyTimeout, phase := .tq } true) rfl rfl hw))
  exact List.length_append

theorem shiftByte_performedAs {o : BitOrder} (h : bigStep (.shiftByte o) fuel s = some t) :
    PerformedAs (.shiftByte o) s t := by
  rw [bigStep, bigConfigured_of_configured hs.2] at h
  cases h
  set l := (s.latched (orderOperand o s.portA) s.portB).setRegs Regs.clearSr
  set p : Position := (Position.startGroup o { s.pos with op := some .shiftByte, phase := .dHiW })
  have hrun := run_group (s := l.standing p true) rfl rfl
  rw [(bystander_standing p true).bigDataPulses, groupDone_shiftByte rfl] at hrun
  have hvb : (bigShiftByte o (s.latched (orderOperand o s.portA) s.portB)).busy = false :=
    (keeps_busy (F := fun s => some (bigShiftByte o s)) (fun g hg s => by rw [hg.bigShiftByte]; rfl) rfl).1.trans hs.1
  exact .of_respond hvb (exec_shiftByte hs o) rfl _ (.of_run 40 hrun (bigDataPulses_trace_length o 8 l))

theorem clockPulse_performedAs (h : bigStep .clockPulse fuel s = some t) : PerformedAs .clockPulse s t := by
  rw [bigStep, bigConfigured_of_configured hs.2] at h
  cases h
  set a := (s.accept .clockPulse s.portA s.portB .gHiW).setPos ({ · with pulseIx := 0 })
  refine .of_respond (v := bigClockPulse (s.latched s.portA s.portB)) hs.1 (exec_clockPulse hs) rfl
    { a.pos with phase := .gLoD, pulseIx := 1 } (.of_run 4 ?_ (bigClockPulse_trace_length _))
  rw [run_add 1 (run_gainPulse_edges (s := a) rfl), run_one, step_gLoD rfl, seqGLoD_clockPulse rfl]
  rfl

theorem readAverage_performedAs {n : Word} (hn : 1 ≤ n.toInt) (h : bigStep (.readAverage n) fuel s = some t) :
    PerformedAs (.readAverage n) s t := by
  rw [bigStep, bigConfigured_of_configured hs.2, bigCounted_of_one_le hn] at h
  obtain ⟨v, hv, rfl⟩ := Option.map_eq_some_iff.mp h
  exact mean_performedAs (op := .readAverage) rfl hs.1 (exec_readAverage hs hn) hn hv

theorem getUnits_performedAs {n : Word} (hn : 1 ≤ n.toInt) (h : bigStep (.getUnits n) fuel s = some t) :
    PerformedAs (.getUnits n) s t := by
  rw [bigStep, bigConfigured_of_configured hs.2, bigCounted_of_one_le hn] at h
  obtain ⟨v, hv, rfl⟩ := Option.map_eq_some_iff.mp h
  exact mean_performedAs (op := .getUnits) rfl hs.1 (exec_getUnits hs hn) hn hv

theorem tare_performedAs (h : bigStep .tare fuel s = some t) : PerformedAs .tare s t := by
  rw [bigStep, bigConfigured_of_configured hs.2] at h
  obtain ⟨v, hv, rfl⟩ := Option.map_eq_some_iff.mp h
  exact mean_performedAs (op := .tare) rfl hs.1 (exec_tare hs) (show (0 : Int) < 10 by decide) hv

theorem setScale_performedAs {w : Word} (h : bigStep (.setScale w) fuel s = some t) :
    PerformedAs (.setScale w) s t := by
  rw [bigStep, bigConfigured_of_configured hs.2] at h
  obtain ⟨v, hv, rfl⟩ := Option.map_eq_some_iff.mp h
  have := mean_performedAs (op := .setScale) rfl hs.1 (exec_setScale hs w) (show (0 : Int) < 10 by decide) hv
  rwa [finishMean, bigMean_argA hv] at this

theorem setOffset_performedAs {v : Word} (h : bigStep (.setOffset v) fuel s = some t) :
    PerformedAs (.setOffset v) s t := by
  rw [bigStep, bigConfigured_of_configured hs.2] at h
  cases h
  exact .of_respond hs.1 (exec_setOffset hs v) rfl { s.pos with op := some .setOffset, phase := .idle } (.refl _)

end configured

/-- A refused command, both ways: the response and nothing else (R14, R245). -/
def RefusedAs (i : Instr) (s t : State) : Prop := ∃ reason, t = s.refuse reason ∧ exec i s = .next t

theorem performedAs_or_refusedAs_of_configured {i : Instr} (hs : s.standsReady) (h : bigStep i fuel s = some t) :
    PerformedAs i s t ∨ RefusedAs i s t := by
  cases i with
  | reserved0 =>
    cases h
    exact .inr ⟨_, rfl, exec_reserved0 hs.1⟩
  | reservedF =>
    cases h
    exact .inr ⟨_, rfl, exec_reservedF hs.1⟩
  | begin c d => exact .inl (begin_performedAs hs.1 h)
  | isReady => exact .inl (isReady_performedAs hs h)
  | setGain g => exact .inl (setGain_performedAs hs h)
  | readRaw => exact .inl (readRaw_performedAs hs h)
  | waitReady p => exact .inl (waitReady_performedAs hs h)
  | waitReadyRetry n p => exact .inl (waitReadyRetry_performedAs hs h)
  | waitReadyTimeout m p => exact .inl (waitReadyTimeout_performedAs hs h)
  | readAverage n =>
    obtain hn | hn := le_or_gt 1 n.toInt
    · exact .inl (readAverage_performedAs hs hn h)
    · rw [bigStep, bigConfigured_of_configured hs.2, bigCounted_of_lt_one hn] at h
      cases h
      exact .inr ⟨_, rfl, (countBelowOneRefused s n hs hn).1⟩
  | getUnits n =>
    obtain hn | hn := le_or_gt 1 n.toInt
    · exact .inl (getUnits_performedAs hs hn h)
    · rw [bigStep, bigConfigured_of_configured hs.2, bigCounted_of_lt_one hn] at h
      cases h
      exact .inr ⟨_, rfl, (countBelowOneRefused s n hs hn).2⟩
  | tare => exact .inl (tare_performedAs hs h)
  | setScale w => exact .inl (setScale_performedAs hs h)
  | setOffset v => exact .inl (setOffset_performedAs hs h)
  | shiftByte o => exact .inl (shiftByte_performedAs hs h)
  | clockPulse => exact .inl (clockPulse_performedAs hs h)

/-- Where the big-step rule of a command ends, the command is performed by the sequencer in the same way, or refused. -/
theorem performedAs_or_refusedAs {i : Instr} (hb : s.busy = false) (h : bigStep i fuel s = some t) :
    PerformedAs i s t ∨ RefusedAs i s t := by
  cases hl : s.regs.lifecycle with
  | configured => exact performedAs_or_refusedAs_of_configured ⟨hb, hl⟩ h
  | uninitialized =>
    cases i with
    | begin c d => exact .inl (begin_performedAs hb h)
    | reserved0 =>
      cases h
      exact .inr ⟨_, rfl, exec_reserved0 hb⟩
    | reservedF =>
      cases h
      exact .inr ⟨_, rfl, exec_reservedF hb⟩
    | _ =>
      rw [bigStep, bigConfigured, hl] at h
      cases h
      exact .inr ⟨_, rfl, (unconfiguredRefusesAllButBegin s hb hl).1 _ rfl (by simp [Instr.opcode])⟩

/-- Settles O35: a command is performed alike by the sequencer and its big-step rule, or refused by both. -/
theorem sequencerAgreesWithBigStep : Obligations.SequencerAgreesWithBigStep := by
  intro i fuel s t hb ho hp h
  obtain ⟨a, u, ha, htrace, hr, hsame, huo, hup⟩ | ⟨reason, rfl, ha⟩ := performedAs_or_refusedAs hb h
  · have ht : t.trace = u.trace := by rw [← hsame]
    exact ⟨a, u, ha, by rw [ht, ← htrace]; exact hr.run, hsame, huo, hup⟩
  · exact ⟨_, s.refuse reason, ha, by rw [State.refuse_trace, Nat.sub_self, run_zero], rfl, ho, hp⟩

end operations

/-! ## How long a run stays inside an operation -/

section duration
variable {s t : State}

/-- A step makes one event, and none in IDLE. -/
theorem trace_length_of_step (h : step s = .next t) :
    t.trace.length ≤ s.trace.length + 1 ∧ (s.pos.phase = .idle → t.trace.length = s.trace.length) := by
  have ht := stepMakesTheCallOfItsPhase s t h
  have hle : s.phaseCall.length ≤ 1 ∧ (s.pos.phase = .idle → s.phaseCall.length = 0) := by
    unfold State.phaseCall
    cases s.pos.phase <;> simp
  rw [ht, List.length_append]
  exact ⟨by omega, fun hp => by rw [hle.2 hp, Nat.add_zero]⟩

theorem trace_length_of_run {k : Nat} (h : run k s = .next t) : t.trace.length ≤ s.trace.length + k := by
  induction k generalizing s with
  | zero =>
    cases h
    rfl
  | succ k ih =>
    rw [run_succ] at h
    cases hs : step s with
    | next u =>
      rw [hs] at h
      have := ih h
      have := (trace_length_of_step hs).1
      omega
    | fault r => rw [hs] at h; cases h
    | refused r => rw [hs] at h; cases h

/-- A run that makes an event every step is in IDLE nowhere but at its end. -/
theorem Reaches.not_idle (h : Reaches s t) {j : Nat} (hj : j < t.trace.length - s.trace.length) {v : State}
    (hv : Machine.run j s = .next v) : v.pos.phase ≠ .idle := by
  intro hidle
  obtain ⟨k, hk⟩ : ∃ k, t.trace.length - s.trace.length = j + (k + 1) := ⟨t.trace.length - s.trace.length - j - 1, by omega⟩
  have hrun := h.run
  rw [hk, run_add _ hv, run_succ] at hrun
  have hle := trace_length_of_run hv
  cases hs : step v with
  | next u =>
    rw [hs] at hrun
    have hu := (trace_length_of_step hs).2 hidle
    have := trace_length_of_run hrun
    have := h.le
    omega
  | fault r => rw [hs] at hrun; cases hrun
  | refused r => rw [hs] at hrun; cases hrun

/-- The machine goes on from `s` for at least `n` steps, each with an event. -/
def Lasts (n : Nat) (s : State) : Prop := ∃ t, Reaches s t ∧ s.trace.length + n ≤ t.trace.length

theorem Lasts.not_idle {n : Nat} (h : Lasts n s) {j : Nat} (hj : j < n) {v : State} (hv : run j s = .next v) :
    v.pos.phase ≠ .idle := by
  obtain ⟨t, ht, hle⟩ := h
  exact ht.not_idle (by omega) hv

theorem Reaches.lasts {n : Nat} (h : Reaches s t) (ht : Lasts n t) : Lasts n s := by
  obtain ⟨u, hu, hle⟩ := ht
  have := h.le
  exact ⟨u, h.trans hu, by omega⟩

/-! ## A wait that does not end -/

/-- While the checks of WAIT_READY or of a frame fail, the run goes on. -/
theorem lasts_of_bigWaitReady_none {fuel : Nat} {op : Op} (h : s.pos.phase = .chk) (ho : s.pos.op = some op)
    (hk : op.kind = .frame ∨ op = .waitReady) (hw : bigWaitReady s.pollMs fuel s = none) : Lasts fuel s := by
  induction fuel generalizing s with
  | zero => exact ⟨s, .refl s, le_rfl⟩
  | succ fuel ih =>
    rw [bigWaitReady] at hw
    split at hw
    case isTrue => cases hw
    case isFalse hr =>
      have hstep : Reaches s (s.pinRead.pauseMs s.pollMs) :=
        .of_run 2 (run_failedCheck h ho hk (by simpa using hr)) (by simp)
      obtain ⟨t, ht, hle⟩ := ih (s := s.pinRead.pauseMs s.pollMs) h ho hw
      simp at hle
      exact ⟨t, hstep.trans ht, by omega⟩

/-- A failed check of a frame is followed by READ_RAW's pause (R220). -/
theorem pollMs_of_frame {op : Op} (ho : s.pos.op = some op) (hk : op.kind = .frame) :
    s.pollMs = Config.readRawPollMs := by
  unfold State.pollMs
  rw [ho]
  cases op <;> simp_all [Op.kind]

theorem lasts_of_bigReadRaw_none {fuel : Nat} {op : Op} (h : s.pos.phase = .chk) (ho : s.pos.op = some op)
    (hk : op.kind = .frame) (hw : bigReadRaw fuel s = none) : Lasts fuel s := by
  exact lasts_of_bigWaitReady_none h ho (.inl hk) (pollMs_of_frame ho hk ▸ Option.map_eq_none_iff.mp hw)

/-- A mean whose frames do not all come goes on for as long as its checks fail. -/
theorem lasts_of_bigSamples_none {left fuel : Nat} {op : Op} (h : s.pos.phase = .chk) (ho : s.pos.op = some op)
    (hm : op.takesMean = true) (hl : (s.regs.count : Int) + left = meanCount (some op) s.regs.argA)
    (hw : bigSamples fuel left s = none) : Lasts fuel s := by
  induction left generalizing s with
  | zero => cases hw
  | succ left ih =>
    rw [bigSamples] at hw
    split at hw
    case h_1 hn => exact lasts_of_bigReadRaw_none h ho (Op.kind_of_takesMean hm) hn
    case h_2 v hv =>
      obtain ⟨hp, ha, hc⟩ := bigReadRaw_frame hv
      obtain ⟨p, u, hpo, hu, hlen, hstep⟩ := sample_reaches h ho hm hv
      set w := ((v.setRegs Regs.addSample).pauseMs Config.yieldMs).setRegs Regs.countSample
      have hwa : w.regs.argA = s.regs.argA := ha
      have hwc : w.regs.count = s.regs.count + 1 := congrArg (· + 1) hc
      have hleft : 0 < left := by
        rcases left with _ | left
        · cases hw
        · omega
      rw [if_pos (by push_cast at hl; omega)] at hstep
      have hnone := (bystander_setPos fun _ => { p with phase := .chk }).bigSamples fuel left w
      rw [hw] at hnone
      refine Reaches.lasts (hu.trans (.of_step hstep (by simp [w, hlen]))) (ih (s := w.setPos fun _ => { p with phase := .chk })
        rfl hpo ?_ hnone)
      rw [State.setPos_regs, hwa, hwc]
      push_cast at hl ⊢
      omega

/-- A failed round of WAIT_READY_TIMEOUT, begun before the deadline (R220 to R222). -/
theorem timeout_failedRound (h : s.pos.phase = .tq) (ho : s.pos.op = some .waitReadyTimeout)
    (he : s.clockMs - s.regs.t0 < zext s.regs.argA) (hl : s.nowMs.level = true) :
    Reaches s (s.nowMs.pinRead.pauseMs (zext s.regs.argB)) := by
  have hq : step s = .next (s.nowMs.goto .chk) := (step_tq h).trans (congrArg _ (if_pos he))
  have hc : step (s.nowMs.goto .chk) = .next ((s.nowMs.goto .chk).pinRead.goto .pau) :=
    (step_chk rfl).trans (seqChk_of_high ho (.inl rfl) hl)
  have hp : step ((s.nowMs.goto .chk).pinRead.goto .pau) = .next (s.nowMs.pinRead.pauseMs (zext s.regs.argB)) := by
    refine ((step_pau rfl).trans (seqPau_waitReadyTimeout (by exact ho))).trans ?_
    exact congrArg _ (State.setPos_self (f := ({ · with phase := .tq })) (s := s.nowMs.pinRead.pauseMs _)
      (by show { s.pos with phase := .tq } = s.pos; rw [← h]))
  exact .trans (.of_step hq (by simp)) (.trans (.of_step hc (by simp)) (.of_step hp (by simp)))

theorem lasts_of_bigTimeout_none {fuel : Nat} (h : s.pos.phase = .tq) (ho : s.pos.op = some .waitReadyTimeout)
    (hw : bigTimeout (zext s.regs.argA) (zext s.regs.argB) fuel s = none) : Lasts fuel s := by
  induction fuel generalizing s with
  | zero => exact ⟨s, .refl s, le_rfl⟩
  | succ fuel ih =>
    rw [bigTimeout] at hw
    split at hw
    case isFalse => cases hw
    case isTrue he =>
      split at hw
      case isTrue => cases hw
      case isFalse hr =>
        have hround := timeout_failedRound h ho he (by simpa [ready] using hr)
        obtain ⟨t, ht, hle⟩ := ih (s := s.nowMs.pinRead.pauseMs (zext s.regs.argB)) h ho hw
        simp at hle
        exact ⟨t, hround.trans ht, by omega⟩

end duration

/-! ## The other direction -/

section converse
variable {s a : State} {fuel : Nat}

theorem lasts_of_bigMean_none {op : Op} (hm : op.takesMean = true) {w : Word}
    (hn : 0 < meanCount (some op) w)
    (hv : bigMean (meanCount (some op) w) fuel (s.latched w s.portB) = none) : Lasts fuel (s.acceptMean op w) := by
  have hw := (bystander_standing { s.pos with op := some op, phase := .chk } true).bigMean (meanCount (some op) w) fuel
    (s.latched w s.portB)
  rw [hv] at hw
  refine lasts_of_bigSamples_none (left := (meanCount (some op) w).toNat) rfl rfl hm ?_ hw
  show ((0 : Nat) : Int) + _ = meanCount (some op) w
  omega

/-- SET_GAIN after its acceptance, and BEGIN through it. -/
theorem lasts_of_bigSetGain_none {op : Op} (hk : op.kind = .frame) {l : State} {w : Word} {p : Position}
    (hp : p.phase = .sgLow) (ho : p.op = some op) (hv : bigSetGain w fuel l = none) :
    Lasts fuel ((l.setRegs (Regs.selectGain w)).standing p true) := by
  have hstep : step ((l.setRegs (Regs.selectGain w)).standing p true) =
      .next (((l.setRegs (Regs.selectGain w)).pinWrite false).standing { p with phase := .chk } true) := step_sgLow hp
  refine Reaches.lasts (.of_step hstep List.length_append) (lasts_of_bigReadRaw_none rfl ho hk ?_)
  rw [(bystander_standing _ true).bigReadRaw]
  exact Option.map_eq_none_iff.mpr hv

theorem lasts_of_bigStep_none_of_configured {i : Instr} (hs : s.standsReady) (h : bigStep i fuel s = none)
    (ha : exec i s = .next a) : Lasts fuel a := by
  have hend {b : State} (hb : exec i s = .next b) (hl : Lasts fuel b) : Lasts fuel a := by
    rw [ha] at hb
    cases hb
    exact hl
  cases i with
  | begin c d =>
    exact hend (exec_begin hs.1 c d) (lasts_of_bigSetGain_none (op := .begin) rfl rfl rfl (Option.map_eq_none_iff.mp h))
  | setGain g =>
    rw [bigStep, bigConfigured_of_configured hs.2, Option.map_eq_none_iff] at h
    exact hend (exec_setGain hs g) (lasts_of_bigSetGain_none (op := .setGain) (l := s.latched g s.portB) rfl rfl rfl h)
  | readRaw =>
    rw [bigStep, bigConfigured_of_configured hs.2, Option.map_eq_none_iff] at h
    refine hend (exec_readRaw hs) (lasts_of_bigReadRaw_none (op := .readRaw) rfl rfl rfl ?_)
    rw [accept_standing, (bystander_standing _ true).bigReadRaw, h]
    rfl
  | waitReady p =>
    rw [bigStep, bigConfigured_of_configured hs.2, Option.map_eq_none_iff] at h
    refine hend (exec_waitReady hs p) (lasts_of_bigWaitReady_none (op := .waitReady) rfl rfl (.inr rfl) ?_)
    exact ((bystander_standing _ true).bigWaitReady (zext p) fuel (s.latched p s.portB)).trans (Option.map_eq_none_iff.mpr h)
  | waitReadyTimeout m p =>
    rw [bigStep, bigConfigured_of_configured hs.2, Option.map_eq_none_iff] at h
    refine hend (exec_waitReadyTimeout hs m p) (Reaches.lasts (.of_step (step_tq0 rfl) List.length_append)
      (lasts_of_bigTimeout_none rfl rfl ?_))
    exact ((bystander_standing { s.pos with op := some .waitReadyTimeout, phase := .tq } true).bigTimeout (zext m) (zext p)
      fuel ((s.latched m p).nowMs.setRegs ({ · with t0 := (s.latched m p).clockMs }))).trans
      (Option.map_eq_none_iff.mpr h)
  | readAverage n =>
    obtain hn | hn := le_or_gt 1 n.toInt
    · rw [bigStep, bigConfigured_of_configured hs.2, bigCounted_of_one_le hn, Option.map_eq_none_iff] at h
      exact hend (exec_readAverage hs hn) (lasts_of_bigMean_none (op := .readAverage) rfl hn h)
    · rw [bigStep, bigConfigured_of_configured hs.2, bigCounted_of_lt_one hn] at h
      cases h
  | getUnits n =>
    obtain hn | hn := le_or_gt 1 n.toInt
    · rw [bigStep, bigConfigured_of_configured hs.2, bigCounted_of_one_le hn, Option.map_eq_none_iff] at h
      exact hend (exec_getUnits hs hn) (lasts_of_bigMean_none (op := .getUnits) rfl hn h)
    · rw [bigStep, bigConfigured_of_configured hs.2, bigCounted_of_lt_one hn] at h
      cases h
  | tare =>
    rw [bigStep, bigConfigured_of_configured hs.2, Option.map_eq_none_iff] at h
    exact hend (exec_tare hs) (lasts_of_bigMean_none (op := .tare) rfl (show (0 : Int) < 10 by decide) h)
  | setScale w =>
    rw [bigStep, bigConfigured_of_configured hs.2, Option.map_eq_none_iff] at h
    exact hend (exec_setScale hs w) (lasts_of_bigMean_none (op := .setScale) rfl (show (0 : Int) < 10 by decide) h)
  | reserved0 | reservedF => cases h
  | isReady | waitReadyRetry | setOffset | shiftByte | clockPulse =>
    rw [bigStep, bigConfigured_of_configured hs.2] at h
    cases h

/-- Where the big-step rule has not ended within its fuel, the sequencer goes on for as many steps. -/
theorem lasts_of_bigStep_none {i : Instr} (hb : s.busy = false) (h : bigStep i fuel s = none)
    (ha : exec i s = .next a) : Lasts fuel a := by
  cases hl : s.regs.lifecycle with
  | configured => exact lasts_of_bigStep_none_of_configured ⟨hb, hl⟩ h ha
  | uninitialized =>
    cases i with
    | begin c d =>
      rw [exec_begin hb] at ha
      cases ha
      exact lasts_of_bigSetGain_none (op := .begin) rfl rfl rfl (Option.map_eq_none_iff.mp h)
    | reserved0 | reservedF => cases h
    | _ =>
      rw [bigStep, bigConfigured, hl] at h
      cases h

/-- Settles O36: while the rule has not ended the sequencer goes on; once it has, its run is the rule's, and is in IDLE
at its end only. -/
theorem bigStepAgreesWithSequencer : Obligations.BigStepAgreesWithSequencer := by
  intro i k s a u hb ho hp ha hu hup hfirst
  cases h : bigStep i (k + 1) s with
  | none => exact absurd hup ((lasts_of_bigStep_none hb h ha).not_idle (Nat.lt_succ_self k) hu)
  | some t =>
    obtain ⟨b, v, hb', htrace, hr, hsame, hvo, hvp⟩ | ⟨reason, rfl, hb'⟩ := performedAs_or_refusedAs hb h
    · rw [ha] at hb'
      cases hb'
      have hk : k = v.trace.length - a.trace.length := by
        obtain hlt | heq | hgt := Nat.lt_trichotomy k (v.trace.length - a.trace.length)
        · exact absurd hup (hr.not_idle hlt hu)
        · exact heq
        · exact absurd hvp (hfirst _ hgt v hr.run)
      obtain rfl : u = v := by
        rw [hk, hr.run] at hu
        cases hu
        rfl
      exact ⟨k + 1, t, h, hsame, by rw [hk, htrace, ← hsame]⟩
    · rw [ha] at hb'
      cases hb'
      obtain rfl : k = 0 := by
        by_contra hk
        exact hfirst 0 (Nat.pos_of_ne_zero hk) _ rfl hp
      cases hu
      exact ⟨1, _, h, rfl, by simp⟩

end converse
end Sys2Proof.Machine
end

section
/-! The statements about runs of any length: the wait that does not end (R242), the length of a frame (R232) and the
independence of time (R15, R300). -/

namespace Sys2Proof.Machine

/-! ## Checks that all fail (R242) -/

section failing
variable {s : State}

/-- As many failed checks as the line's answers to come give: CHK again, nothing but the trace and the environment changed. -/
theorem run_failedChecks (n : Nat) {op : Op} {rest : List Bool} (h : s.pos.phase = .chk) (ho : s.pos.op = some op)
    (hk : op.kind = .frame ∨ op = .waitReady) (hc : s.env.conv = none)
    (hl : s.env.levels.script = neverReady n ++ rest) :
    ∃ t, run (2 * n) s = .next t ∧ s.Did t (neverReady n) (failedChecks s.regs.dataPin s.pollMs n) ∧ t.regs = s.regs := by
  induction n generalizing s with
  | zero => exact ⟨s, rfl, .refl hc, rfl⟩
  | succ n ih =>
    have hread := pinRead_did hc (b := true) (more := neverReady n ++ rest) hl
    have hfirst := hread.trans (pauseMs_did hread.conv s.pollMs)
    obtain ⟨t, hrun, hdid, hregs⟩ := ih (s := s.pinRead.pauseMs s.pollMs) h ho hfirst.conv (hfirst.left hl)
    have hready : ready s.level = false := by rw [level_eq hc hl]; rfl
    refine ⟨t, ?_, ?_, hregs⟩
    · rw [show 2 * (n + 1) = 2 + 2 * n by ring, run_add _ (run_failedCheck h ho hk hready), hrun]
    · rw [failedChecks_succ]
      exact hfirst.trans hdid

/-- A frame operation that has written its clock low (R218) and whose checks all fail. -/
theorem run_sgLow_failedChecks (n : Nat) {op : Op} {rest : List Bool} (h : s.pos.phase = .sgLow)
    (ho : s.pos.op = some op) (hk : op.kind = .frame) (hb : s.busy = true) (hc : s.env.conv = none)
    (hl : s.env.levels.script = neverReady n ++ rest) :
    ∃ t, run (1 + 2 * n) s = .next t ∧ t.busy = true ∧ t.pos.phase = .chk ∧ t.responses = s.responses ∧
      t.trace = s.trace ++ .write s.regs.clockPin false :: failedChecks s.regs.dataPin 0 n ∧ t.regs = s.regs := by
  have hw := pinWrite_did hc false
  obtain ⟨t, hrun, hdid, hregs⟩ := run_failedChecks n (s := (s.pinWrite false).goto .chk) rfl ho (.inl hk) hw.conv
    (hw.left (ls := []) hl)
  have hpoll : ((s.pinWrite false).goto .chk).pollMs = 0 := pollMs_of_frame ho hk
  refine ⟨t, ?_, hdid.busy.trans hb, by rw [hdid.pos]; rfl, hdid.responses, ?_, hregs⟩
  · rw [run_add _ ((run_one s).trans (step_sgLow h)), hrun]
  · rw [hdid.trace, hpoll]
    exact List.append_assoc ..

/-- Settles O37: each operation that waits without bound is accepted at CHK, or at the clock-low write before it. -/
theorem neverReadyHangs : Obligations.NeverReadyHangs := by
  intro s n rest hb ⟨hc, hl⟩
  have hchecks {i : Instr} {op : Op} {a : State} (ha : exec i s = .next a) (hp : a.pos.phase = .chk)
      (ho : a.pos.op = some op) (hk : op.kind = .frame ∨ op = .waitReady) (hab : a.busy = true) (hae : a.env = s.env)
      (hap : a.regs.dataPin = s.regs.dataPin) (har : a.responses = s.responses) {poll : Nat}
      (hpoll : a.pollMs = poll) :
      ∃ a t, exec i s = .next a ∧ run (2 * n) a = .next t ∧ t.busy = true ∧ t.pos.phase = .chk ∧
        t.responses = s.responses ∧ t.trace = s.trace ++ failedChecks s.regs.dataPin poll n ∧ t.regs = a.regs := by
    obtain ⟨t, hrun, hdid, hregs⟩ := run_failedChecks n hp ho hk (by rw [hae, hc]) (by rw [hae, hl])
    exact ⟨a, t, ha, hrun, hdid.busy.trans hab, by rw [hdid.pos, hp], hdid.responses.trans har,
      by rw [hdid.trace, (ExecFrame.of_exec ha).trace, hap, hpoll], hregs⟩
  refine ⟨fun hconf => ⟨fun i poll hi => ?_, fun g => ?_⟩, fun c d => ?_⟩
  · have hs : s.standsReady := ⟨hb, hconf⟩
    obtain ⟨rfl, rfl⟩ | ⟨p, rfl, rfl⟩ | ⟨m, rfl | rfl, hm, rfl⟩ | ⟨rfl, rfl⟩ | ⟨w, rfl, rfl⟩ := hi
    · exact hchecks (exec_readRaw hs) rfl rfl (.inl rfl) rfl rfl rfl rfl rfl
    · exact hchecks (exec_waitReady hs p) rfl rfl (.inr rfl) rfl rfl rfl rfl rfl
    · exact hchecks (exec_readAverage hs hm) rfl rfl (.inl rfl) rfl rfl rfl rfl rfl
    · exact hchecks (exec_getUnits hs hm) rfl rfl (.inl rfl) rfl rfl rfl rfl rfl
    · exact hchecks (exec_tare hs) rfl rfl (.inl rfl) rfl rfl rfl rfl rfl
    · exact hchecks (exec_setScale hs w) rfl rfl (.inl rfl) rfl rfl rfl rfl rfl
  · obtain ⟨t, ht⟩ := run_sgLow_failedChecks n (op := .setGain)
      (s := (s.accept .setGain g s.portB .sgLow).setRegs (Regs.selectGain g)) rfl rfl rfl rfl hc hl
    exact ⟨_, t, exec_setGain ⟨hb, hconf⟩ g, ht⟩
  · obtain ⟨t, ht⟩ := run_sgLow_failedChecks n (op := .begin)
      (s := (s.accept .begin c d .sgLow).setRegs fun r => (r.bind c d).selectGain 128) rfl rfl rfl rfl hc hl
    exact ⟨_, t, exec_begin hb c d, ht⟩

end failing

/-! ## The steps of a frame (R232) -/

/-- The steps left of a pulse, from its phase on. -/
def Phase.pulseLeft : Phase → Nat
  | .dHiW => 5
  | .dHiD => 4
  | .dSmp => 3
  | .dLoW => 2
  | .dLoD => 1
  | .gHiW => 4
  | .gHiD => 3
  | .gLoW => 2
  | .gLoD => 1
  | _ => 0

/-- The steps left of a frame. -/
def State.frameLeft (s : State) : Nat :=
  s.pos.phase.pulseLeft +
    if s.pos.phase.isData = true then 5 * (7 - s.pos.bitIx.val) + 40 * s.pos.byteIx.val + 4 * s.regs.gainCode.pulses
    else 4 * (s.regs.gainCode.pulses - (s.pos.pulseIx + 1))

/-- Inside a frame of an operation, its pulses under way. -/
structure InFrame (op : Op) (s : State) : Prop where
  running : s.pos.op = some op
  pulsing : s.pos.phase.isData = true ∨ s.pos.phase.isGain = true

/-- Before its last step a frame goes on for one step less. -/
theorem InFrame.step {op : Op} {s : State} (hk : op.kind = .frame) (hf : InFrame op s) (hl : 1 < s.frameLeft) :
    ∃ t, step s = .next t ∧ InFrame op t ∧ t.frameLeft + 1 = s.frameLeft := by
  obtain ⟨ho, hph⟩ := hf
  unfold State.frameLeft at *
  cases h : s.pos.phase <;> rw [h] at hph hl <;>
    simp only [Phase.isData, Phase.isGain, Bool.false_eq_true, or_self] at hph
  case dHiW => exact ⟨_, step_dHiW h, ⟨ho, .inl rfl⟩, by simp [Phase.pulseLeft, Phase.isData]; omega⟩
  case dHiD => exact ⟨_, step_dHiD h, ⟨ho, .inl rfl⟩, by simp [Phase.pulseLeft, Phase.isData]; omega⟩
  case dSmp => exact ⟨_, step_dSmp h, ⟨ho, .inl rfl⟩, by simp [Phase.pulseLeft, Phase.isData]; omega⟩
  case dLoW => exact ⟨_, step_dLoW h, ⟨ho, .inl rfl⟩, by simp [Phase.pulseLeft, Phase.isData]; omega⟩
  case gHiW => exact ⟨_, step_gHiW h, ⟨ho, .inr rfl⟩, by simp [Phase.pulseLeft, Phase.isData]; omega⟩
  case gHiD => exact ⟨_, step_gHiD h, ⟨ho, .inr rfl⟩, by simp [Phase.pulseLeft, Phase.isData]; omega⟩
  case gLoW => exact ⟨_, step_gLoW h, ⟨ho, .inr rfl⟩, by simp [Phase.pulseLeft, Phase.isData]; omega⟩
  case dLoD =>
    by_cases hlt : s.pos.bitIx < 7
    · have hnext : (s.pos.bitIx + 1).val = s.pos.bitIx.val + 1 := Fin.val_add_one_of_lt hlt
      rw [Fin.lt_def] at hlt
      refine ⟨_, (step_dLoD h).trans (seqDLoD_of_lt hlt), ⟨ho, .inl rfl⟩, ?_⟩
      simp [Phase.pulseLeft, Phase.isData, hnext]
      simp at hlt
      omega
    · have h7 : s.pos.bitIx.val = 7 := by
        rw [Fin.lt_def] at hlt
        simp at hlt
        omega
      have hend := (step_dLoD h).trans (seqDLoD_frame h7 ho hk)
      obtain hb | hb | hb : s.pos.byteIx = 2 ∨ s.pos.byteIx = 1 ∨ s.pos.byteIx = 0 := by omega
      · rw [State.endGroup_two (s := s.delayUs Config.tLoMin) hb] at hend
        exact ⟨_, hend, ⟨ho, .inl rfl⟩, by simp [Phase.pulseLeft, Phase.isData, hb, h7]; omega⟩
      · rw [State.endGroup_one (s := s.delayUs Config.tLoMin) hb] at hend
        exact ⟨_, hend, ⟨ho, .inl rfl⟩, by simp [Phase.pulseLeft, Phase.isData, hb, h7]; omega⟩
      · rw [State.endGroup_zero (s := s.delayUs Config.tLoMin) hb] at hend
        have := s.regs.gainCode.pulses_pos
        exact ⟨_, hend, ⟨ho, .inr rfl⟩, by simp [Phase.pulseLeft, Phase.isData, hb, h7]; omega⟩
  case gLoD =>
    have hlt : s.pos.pulseIx + 1 < s.regs.gainCode.pulses := by
      simp [Phase.pulseLeft, Phase.isData] at hl
      omega
    refine ⟨_, (step_gLoD h).trans (seqGLoD_frame_of_lt ho hk (GainCode.code_toNat _ ▸ hlt)), ⟨ho, .inr rfl⟩, ?_⟩
    simp [Phase.pulseLeft, Phase.isData, State.gainPulseDone]
    omega

theorem InFrame.run {op : Op} {s : State} (hk : op.kind = .frame) (hf : InFrame op s) (k : Nat)
    (hl : k < s.frameLeft) : ∃ t, run k s = .next t ∧ InFrame op t := by
  induction k generalizing s with
  | zero => exact ⟨s, rfl, hf⟩
  | succ k ih =>
    obtain ⟨u, hu, hfu, hleft⟩ := hf.step hk (by omega)
    obtain ⟨t, ht, hft⟩ := ih hfu (by omega)
    exact ⟨t, (run_succ_of_step k hu).trans ht, hft⟩

/-- Settles O38: the run of a whole frame, and the steps left at each point before its end. -/
theorem frameLengthIsFixed : Obligations.FrameLengthIsFixed := by
  intro s op h hbyte hbit ho hk
  rw [GainCode.code_toNat]
  refine ⟨⟨_, run_frame h hbyte hbit ho hk, ?_⟩, fun k hlt => ?_⟩
  · cases hm : op.takesMean with
    | true =>
      rw [State.endFrame_of_takesMean hm]
      rfl
    | false =>
      obtain ⟨r, hr⟩ := State.exists_endFrame_eq_respond hk hm _
      rw [hr]
      rfl
  · have hleft : s.frameLeft = 5 * 24 + 4 * s.regs.gainCode.pulses := by
      simp [State.frameLeft, h, hbyte, hbit, Phase.pulseLeft, Phase.isData]
      omega
    obtain ⟨t, ht, hf⟩ := InFrame.run hk ⟨ho, .inl (by rw [h]; rfl)⟩ k (by omega)
    exact ⟨t, ht, hf.pulsing⟩

/-! ## Time (R15, R300) -/

/-- With no converter on the lines, two environments that differ only in time. -/
structure Env.Alike (e e' : Env) : Prop where
  conv : e.conv = none
  levels : e'.levels = e.levels
  clock : e'.clock = e.clock
  lastMs : e'.lastMs = e.lastMs
  conv' : e'.conv = none
  exactNum : e'.exactNum = e.exactNum

namespace Env.Alike
variable {e e' : Env} (h : e.Alike e')
include h

theorem sameButTime : e.sameButTime e' := by
  obtain ⟨h1, h2, h3, h4, h5, h6⟩ := h
  cases e
  cases e'
  simp_all [Env.sameButTime]

theorem pass (high : Bool) (n n' : Nat) : (e.pass high n).Alike (e'.pass high n') where
  conv := by simp [Env.pass, h.conv]
  levels := h.levels
  clock := h.clock
  lastMs := h.lastMs
  conv' := by simp [Env.pass, h.conv']
  exactNum := h.exactNum

theorem rise : e.rise.Alike e'.rise where
  conv := by simp [Env.rise, h.conv]
  levels := h.levels
  clock := h.clock
  lastMs := h.lastMs
  conv' := by simp [Env.rise, h.conv']
  exactNum := h.exactNum

theorem fall : e.fall.Alike e'.fall where
  conv := by simp [Env.fall, h.conv]
  levels := h.levels
  clock := h.clock
  lastMs := h.lastMs
  conv' := by simp [Env.fall, h.conv']
  exactNum := h.exactNum

theorem clockLine (was : Line) (b : Bool) : (e.clockLine was b).Alike (e'.clockLine was b) := by
  cases was <;> cases b
  case high.false => exact h.fall
  case low.true | undriven.true => exact h.rise
  all_goals exact h

theorem openFrame : e.openFrame.Alike e'.openFrame where
  conv := by simp [Env.openFrame, h.conv]
  levels := h.levels
  clock := h.clock
  lastMs := h.lastMs
  conv' := by simp [Env.openFrame, h.conv']
  exactNum := h.exactNum

theorem closeFrame : e.closeFrame.Alike e'.closeFrame where
  conv := by simp [Env.closeFrame, h.conv]
  levels := h.levels
  clock := h.clock
  lastMs := h.lastMs
  conv' := by simp [Env.closeFrame, h.conv']
  exactNum := h.exactNum

theorem afterRead : e.afterRead.Alike e'.afterRead where
  conv := h.conv
  levels := congrArg Answers.rest h.levels
  clock := h.clock
  lastMs := h.lastMs
  conv' := h.conv'
  exactNum := h.exactNum

theorem nowMs : e'.nowMs = e.nowMs := by
  rw [Env.nowMs, Env.nowMs, h.clock, h.lastMs]

theorem afterNow : e.afterNow.Alike e'.afterNow where
  conv := h.conv
  levels := h.levels
  clock := congrArg Answers.rest h.clock
  lastMs := h.nowMs
  conv' := h.conv'
  exactNum := h.exactNum

theorem level (high : Bool) : e'.level high = e.level high := by
  rw [Env.level, Env.level, h.conv, h.conv', h.levels]

end Env.Alike

/-- With no converter on the lines, two states that differ only in time. -/
structure Twins (s s' : State) : Prop where
  state : s' = { s with env := s'.env }
  env : s.env.Alike s'.env

namespace Twins
variable {s s' : State} (h : Twins s s')
include h

theorem pos : s'.pos = s.pos := by rw [h.state]

theorem regs : s'.regs = s.regs := by rw [h.state]

theorem level : s'.level = s.level := by
  have hh : s'.high = s.high := by rw [h.state]; rfl
  rw [State.level, State.level, hh, (h.env.pass s.high 0 0).level]

theorem clockMs : s'.clockMs = s.clockMs := h.env.nowMs

theorem pinWrite (b : Bool) : Twins (s.pinWrite b) (s'.pinWrite b) := by
  obtain ⟨hs, he⟩ := h
  generalize s'.env = e at hs he
  subst hs
  exact ⟨rfl, (he.pass _ _ _).clockLine _ _⟩

theorem pinRead : Twins s.pinRead s'.pinRead := by
  have hl := h.level
  obtain ⟨hs, he⟩ := h
  generalize s'.env = e at hs he
  subst hs
  refine ⟨?_, (he.pass _ _ _).afterRead⟩
  rw [State.pinRead, hl]
  rfl

theorem nowMs : Twins s.nowMs s'.nowMs := by
  have hc := h.clockMs
  obtain ⟨hs, he⟩ := h
  generalize s'.env = e at hs he
  subst hs
  refine ⟨?_, (he.pass _ _ _).afterNow⟩
  rw [State.nowMs, hc]
  rfl

theorem delayUs (n : Nat) : Twins (s.delayUs n) (s'.delayUs n) := by
  obtain ⟨hs, he⟩ := h
  generalize s'.env = e at hs he
  subst hs
  exact ⟨rfl, he.pass _ _ _⟩

theorem pauseMs (n : Nat) : Twins (s.pauseMs n) (s'.pauseMs n) := by
  obtain ⟨hs, he⟩ := h
  generalize s'.env = e at hs he
  subst hs
  exact ⟨rfl, he.pass _ _ _⟩

theorem openFrame : Twins s.openFrame s'.openFrame := by
  obtain ⟨hs, he⟩ := h
  generalize s'.env = e at hs he
  subst hs
  exact ⟨rfl, he.openFrame⟩

theorem closeFrame : Twins s.closeFrame s'.closeFrame := by
  obtain ⟨hs, he⟩ := h
  generalize s'.env = e at hs he
  subst hs
  exact ⟨rfl, he.closeFrame⟩

theorem setRegs (f : Regs → Regs) : Twins (s.setRegs f) (s'.setRegs f) := by
  obtain ⟨hs, he⟩ := h
  generalize s'.env = e at hs he
  subst hs
  exact ⟨rfl, he⟩

theorem setPos (f : Position → Position) : Twins (s.setPos f) (s'.setPos f) := by
  obtain ⟨hs, he⟩ := h
  generalize s'.env = e at hs he
  subst hs
  exact ⟨rfl, he⟩

theorem goto (ph : Phase) : Twins (s.goto ph) (s'.goto ph) := h.setPos _

theorem respond (r : Response) : Twins (s.respond r) (s'.respond r) := by
  obtain ⟨hs, he⟩ := h
  generalize s'.env = e at hs he
  subst hs
  exact ⟨rfl, he⟩

theorem taken : Twins s.taken s'.taken := by
  obtain ⟨hs, he⟩ := h
  generalize s'.env = e at hs he
  subst hs
  exact ⟨rfl, he⟩

end Twins

/-- A taking of a command that does not look at the environment. -/
def EnvBlind (take : State → State) : Prop := ∀ (s : State) (e : Env), take { s with env := e } = { take s with env := e }

theorem EnvBlind.whenConfigured {take : State → State} (h : EnvBlind take) : EnvBlind (State.whenConfigured take) := by
  intro s e
  unfold State.whenConfigured
  cases hl : s.regs.lifecycle with
  | uninitialized => rfl
  | configured => exact h s e

theorem EnvBlind.whenCounted {take : State → State} (n : Word) (h : EnvBlind take) :
    EnvBlind (State.whenCounted n take) := by
  intro s e
  unfold State.whenCounted
  split
  · rfl
  · exact h s e

/-- Every command is taken without a look at the environment (R217). -/
theorem exists_exec_eq_offered (i : Instr) :
    ∃ take : State → State, EnvBlind take ∧ ∀ s : State, exec i s = s.offered take := by
  cases i with
  | begin c d => exact ⟨_, fun _ _ => rfl, fun _ => rfl⟩
  | reserved0 | reservedF => exact ⟨State.refuse .reservedOpcode, fun _ _ => rfl, fun _ => rfl⟩
  | readAverage n => exact ⟨_, .whenConfigured (.whenCounted n fun _ _ => rfl), fun _ => rfl⟩
  | getUnits n => exact ⟨_, .whenConfigured (.whenCounted n fun _ _ => rfl), fun _ => rfl⟩
  | waitReadyRetry n p =>
    refine ⟨_, .whenConfigured fun s e => ?_, fun _ => rfl⟩
    dsimp only
    split <;> rfl
  | _ => exact ⟨_, .whenConfigured fun _ _ => rfl, fun _ => rfl⟩

/-- Where the one step answers a next state, the other answers its twin. -/
def TwinOutcomes (o o' : Host.Outcome State Fault Refusal) : Prop :=
  ∀ t, o = .next t → ∃ t', o' = .next t' ∧ Twins t t'

theorem Twins.next {s s' : State} (h : Twins s s') : TwinOutcomes (.next s) (.next s') := by
  rintro _ ⟨⟩
  exact ⟨s', rfl, h⟩

theorem twins_ite {c : Prop} {d d' : Decidable c} {a b a' b' : State} (ha : Twins a a') (hb : Twins b b') :
    Twins (@ite _ c d a b) (@ite _ c d' a' b') := by
  by_cases hc : c <;> simp only [hc, if_true, if_false] <;> assumption

theorem twinOutcomes_ite {c : Prop} {d d' : Decidable c} {a b a' b' : Host.Outcome State Fault Refusal}
    (ha : TwinOutcomes a a') (hb : TwinOutcomes b b') : TwinOutcomes (@ite _ c d a b) (@ite _ c d' a' b') := by
  by_cases hc : c <;> simp only [hc, if_true, if_false] <;> assumption

theorem twinOutcomes_fault (r : Fault) (o : Host.Outcome State Fault Refusal) : TwinOutcomes (.fault r) o := by
  rintro _ ⟨⟩

namespace Twins
variable {s s' : State} (h : Twins s s')
include h

theorem seqChk : TwinOutcomes (seqChk s) (seqChk s') := by
  unfold Machine.seqChk
  rw [h.pos, h.level]
  cases s.pos.op with
  | none => exact twinOutcomes_fault _ _
  | some op =>
    cases hk : op.kind <;> simp only [hk]
    case probe => exact (h.pinRead.respond _).next
    case wait =>
      split
      · exact (h.pinRead.respond _).next
      · exact (h.pinRead.goto _).next
    case frame =>
      split
      · exact ((h.pinRead.openFrame.setRegs _).setPos _).next
      · exact (h.pinRead.goto _).next
    case other => exact twinOutcomes_fault _ _

theorem seqPau : TwinOutcomes (seqPau s) (seqPau s') := by
  unfold Machine.seqPau
  simp only [h.pos, h.regs, State.setRegs_regs, State.pauseMs_regs]
  split
  · exact twinOutcomes_fault _ _
  · split
    · exact ((h.pauseMs _).goto _).next
    · exact twinOutcomes_fault _ _
    · exact twinOutcomes_fault _ _
    · split
      · exact (twins_ite (((h.pauseMs _).setRegs _).goto _) (((h.pauseMs _).setRegs _).respond _)).next
      · exact ((h.pauseMs _).goto _).next
      · exact ((h.pauseMs _).goto _).next

theorem seqTq0 : TwinOutcomes (seqTq0 s) (seqTq0 s') := by
  unfold Machine.seqTq0
  rw [h.clockMs]
  exact ((h.nowMs.setRegs _).goto _).next

theorem seqTq : TwinOutcomes (seqTq s) (seqTq s') := by
  unfold Machine.seqTq
  rw [h.clockMs, h.regs]
  split
  · exact (h.nowMs.goto _).next
  · exact (h.nowMs.respond _).next

theorem seqDSmp : TwinOutcomes (seqDSmp s) (seqDSmp s') := by
  unfold Machine.seqDSmp
  rw [h.level, h.pos]
  exact ((h.pinRead.setRegs _).goto _).next

theorem endGroup : Twins s.endGroup s'.endGroup := by
  unfold State.endGroup
  rw [h.pos]
  split
  · exact (h.setRegs _).setPos _
  · exact ((h.setRegs _).setRegs _).setPos _
  · exact ((h.setRegs _).setRegs _).setPos _

theorem seqDLoD : TwinOutcomes (seqDLoD s) (seqDLoD s') := by
  unfold Machine.seqDLoD
  simp only [h.pos, h.regs, State.delayUs_regs]
  split
  · exact ((h.delayUs _).setPos _).next
  · split
    · exact twinOutcomes_fault _ _
    · split
      · exact (h.delayUs _).endGroup.next
      · exact twinOutcomes_fault _ _
      · exact twinOutcomes_fault _ _
      · split
        · exact ((h.delayUs _).respond _).next
        · exact twinOutcomes_fault _ _

theorem endFrame (op : Op) : Twins (s.endFrame op) (s'.endFrame op) := by
  cases op
  case readRaw =>
    rw [State.endFrame, State.endFrame, h.regs]
    exact h.respond _
  case begin | setGain => exact h.respond _
  all_goals exact (h.setRegs _).goto _

theorem seqGLoD : TwinOutcomes (seqGLoD s) (seqGLoD s') := by
  unfold Machine.seqGLoD
  simp only [h.pos, h.regs, State.setPos_regs, State.delayUs_regs, State.setPos_pos, State.delayUs_pos]
  have hd := (h.delayUs Config.tLoMin).setPos ({ · with pulseIx := s.pos.pulseIx + 1 })
  split
  · exact twinOutcomes_fault _ _
  · split
    · exact (twins_ite (hd.goto _) ((hd.setRegs _).closeFrame.endFrame _)).next
    · exact twinOutcomes_fault _ _
    · exact twinOutcomes_fault _ _
    · split
      · exact (hd.respond _).next
      · exact twinOutcomes_fault _ _

theorem mean (n : Int) : s'.mean n = s.mean n := by
  rw [State.mean, State.mean, h.env.exactNum, h.regs]

theorem aboveOffset (m : Num) : s'.aboveOffset m = s.aboveOffset m := by
  rw [State.aboveOffset, State.aboveOffset, h.env.exactNum, h.regs]

theorem endMean (op : Op) (n : Int) : TwinOutcomes (s.endMean op n) (s'.endMean op n) := by
  cases op <;> simp only [State.endMean, h.mean, State.units, State.scaleFor, h.aboveOffset, h.env.exactNum, h.regs]
  case readAverage | getUnits => exact (h.respond _).next
  case tare | setScale => exact ((h.setRegs _).respond _).next
  all_goals exact twinOutcomes_fault _ _

theorem seqAvgY : TwinOutcomes (seqAvgY s) (seqAvgY s') := by
  unfold Machine.seqAvgY
  simp only [h.pos, h.regs, State.setRegs_regs, State.pauseMs_regs]
  have hd := (h.pauseMs Config.yieldMs).setRegs Regs.countSample
  split
  · exact twinOutcomes_fault _ _
  · exact twinOutcomes_ite (hd.goto _).next (hd.endMean _ _)

theorem sequencer : TwinOutcomes (sequencer s) (sequencer s') := by
  unfold Machine.sequencer
  rw [h.pos]
  cases s.pos.phase with
  | idle => exact h.next
  | sgLow => exact ((h.pinWrite _).goto _).next
  | chk => exact h.seqChk
  | pau => exact h.seqPau
  | tq0 => exact h.seqTq0
  | tq => exact h.seqTq
  | dHiW => exact ((h.pinWrite _).goto _).next
  | dHiD => exact ((h.delayUs _).goto _).next
  | dSmp => exact h.seqDSmp
  | dLoW => exact ((h.pinWrite _).goto _).next
  | dLoD => exact h.seqDLoD
  | gHiW => exact ((h.pinWrite _).goto _).next
  | gHiD => exact ((h.delayUs _).goto _).next
  | gLoW => exact ((h.pinWrite _).goto _).next
  | gLoD => exact h.seqGLoD
  | avgY => exact h.seqAvgY

/-- Acceptance does not look at the environment. -/
theorem exec (i : Instr) : TwinOutcomes (exec i s) (exec i s') := by
  obtain ⟨take, hblind, htake⟩ := exists_exec_eq_offered i
  obtain ⟨hs, he⟩ := h
  generalize s'.env = e at hs he
  subst hs
  intro t ht
  refine ⟨{ t with env := e }, ?_, rfl, (ExecFrame.of_exec ht).env ▸ he⟩
  rw [htake] at ht ⊢
  unfold State.offered at ht ⊢
  split at ht
  · cases ht
    exact if_pos ‹_›
  · cases ht
    rw [if_neg (by assumption), hblind]

theorem step : TwinOutcomes (step s) (step s') := by
  unfold Machine.step
  have ho : s'.offeredWord = s.offeredWord := by
    rw [h.state]
    rfl
  rw [ho]
  split
  case h_1 w _ =>
    obtain ⟨t, ht, -⟩ := exec_frame (decode w) s
    obtain ⟨t', ht', htt⟩ := h.exec (decode w) t ht
    rw [ht, ht']
    exact htt.taken.next
  case h_2 => exact h.sequencer

theorem run {k : Nat} {t : State} (hr : run k s = .next t) : ∃ t', Machine.run k s' = .next t' ∧ Twins t t' := by
  induction k generalizing s s' with
  | zero =>
    cases hr
    exact ⟨s', rfl, h⟩
  | succ k ih =>
    rw [run_succ] at hr
    cases hs : Machine.step s with
    | next u =>
      rw [hs] at hr
      obtain ⟨u', hu', huu⟩ := h.step u hs
      obtain ⟨t', ht', htt⟩ := ih huu hr
      exact ⟨t', (run_succ_of_step k hu').trans ht', htt⟩
    | fault r => rw [hs] at hr; cases hr
    | refused r => rw [hs] at hr; cases hr

end Twins

/-- Settles O39: with no converter attached, each collaborator call answers twin states alike. -/
theorem durationsChangeNoValue : Obligations.DurationsChangeNoValue := by
  intro k s s' t hc ⟨hstate, henv⟩ hr
  have htwins : Twins s s' := by
    have hs' : s' = { s with env := s'.env } := by
      rw [← hstate]
    have hc' : s'.env.conv = s.env.conv := by rw [← henv]
    exact ⟨hs', hc, by rw [← henv], by rw [← henv], by rw [← henv], hc'.trans hc, by rw [← henv]⟩
  obtain ⟨t', ht', htt⟩ := htwins.run hr
  refine ⟨t', ht', ?_, htt.env.sameButTime⟩
  rw [htt.state]


end Sys2Proof.Machine
end

section
/-! The operations from acceptance to response, with no converter on the lines (R110 to R204). -/

namespace Sys2Proof.Machine

/-! ## From a big-step rule to the run -/

/-- An operation ends with a response and these events, its registers, lines and environment those of a state. -/
structure Completes (i : Instr) (s v : State) (r : Response) (events : List Event) (a t : State) : Prop where
  accepted : exec i s = .next a
  runs : run events.length a = .next t
  ends : s.EndsWith t r events
  regs : t.regs = v.regs
  sckLevel : t.sckLevel = v.sckLevel
  pins : t.pins = v.pins
  env : t.env = v.env

/-- What a big-step rule makes before its answer, the sequencer makes. -/
theorem PerformedAs.completes {i : Instr} {s v : State} {r : Response} {events : List Event}
    (h : PerformedAs i s (v.answer r)) (ht : v.trace = s.trace ++ events) (hr : v.responses = s.responses)
    (hc : v.cmds = s.cmds) (hb : v.busy = false) : ∃ a t, Completes i s v r events a t := by
  obtain ⟨a, t, ha, htrace, hrun, hsame, ho, hp⟩ := h
  have hsame : t = { v.answer r with pos := t.pos } := by rw [← hsame]
  have htt : t.trace = s.trace ++ events := by rw [hsame]; exact ht
  have hlen : t.trace.length - a.trace.length = events.length := by simp [htt, htrace]
  refine ⟨a, t, ha, hlen ▸ hrun.run, ⟨?_, htt, ?_, ho, hp, ?_⟩, ?_, ?_, ?_, ?_⟩ <;> rw [hsame]
  · exact congrArg (· ++ [r]) hr
  · exact hb
  · exact hc
  all_goals rfl

/-- The same from a stretch of collaborator calls, with no converter on the lines. -/
theorem PerformedAs.completes_of_did {i : Instr} {s l v : State} {r : Response} {ls : List Bool} {events : List Event}
    (h : PerformedAs i s (v.answer r)) (hd : l.Did v ls events) (ht : l.trace = s.trace)
    (hr : l.responses = s.responses) (hc : l.cmds = s.cmds) (hb : l.busy = false) :
    ∃ a t, Completes i s v r events a t :=
  h.completes (by rw [hd.trace, ht]) (hd.responses.trans hr) (hd.cmds.trans hc) (hd.busy.trans hb)

theorem State.Did.drew {s t : State} {ls rest : List Bool} {es : List Event} (h : s.Did t ls es)
    (hl : s.env.levels.script = ls ++ rest) : s.env.Drew t.env rest :=
  ⟨h.conv, h.left hl, h.clock, h.lastMs, h.exactNum⟩

/-! ## The waits (R110, R160 to R168) -/

/-- Settles O40: the one read is the whole operation. -/
theorem isReadyCompletes : Obligations.IsReadyCompletes := by
  intro s hs
  have hp := isReady_performedAs (fuel := 0) hs (by rw [bigStep, bigConfigured_of_configured hs.2])
  obtain ⟨a, t, h⟩ := hp.completes (s := s) (events := [.read s.regs.dataPin s.level]) rfl rfl rfl hs.1
  refine ⟨a, t, s.level, h.accepted, h.runs, ?_, h.regs, h.sckLevel, h.pins, fun b' rest ⟨hc, hl⟩ => ?_⟩
  · rw [← ready_eq_decide]
    exact h.ends
  · exact ⟨level_eq hc hl, h.env ▸ (pinRead_did hc hl).drew hl⟩

theorem failedChecks_length (d : PinId) (p k : Nat) : (failedChecks d p k).length = 2 * k := by
  simp [failedChecks, Nat.mul_comm]

theorem waitEvents_length (d : PinId) (p k : Nat) : (waitEvents d p k).length = 2 * k + 1 := by
  simp [waitEvents, failedChecks_length]

/-- Settles O41: the readiness loop up to its first low check. -/
theorem waitReadyCompletes : Obligations.WaitReadyCompletes := by
  intro s p k rest hs ⟨hc, hl⟩
  obtain ⟨v, hv, hd, hr, hk, hpin⟩ := bigWaitReady_did (zext p) k (s := s.latched p s.portB) hc hl
  have hp := waitReady_performedAs (p := p) (fuel := k + 1) hs (by rw [bigStep, bigConfigured_of_configured hs.2, hv]; rfl)
  obtain ⟨a, t, h⟩ := hp.completes_of_did hd rfl rfl rfl hs.1
  exact ⟨a, t, h.accepted, waitEvents_length _ _ _ ▸ h.runs, h.ends, h.regs.trans hr, h.sckLevel.trans hk,
    h.pins.trans hpin, h.env ▸ hd.drew hl⟩

/-- Settles O42: the retry loop, up to its first low check or until it is out of attempts. -/
theorem waitReadyRetryCompletes : Obligations.WaitReadyRetryCompletes := by
  intro s n p k rest hs
  have hperf {b : Bool} {v : State}
      (hv : bigRetry (zext p) (sext n).toNat ((s.latched n p).setRegs ({ · with attempt := 0 })) = (b, v)) :
      PerformedAs (.waitReadyRetry n p) s (v.answer (boolResponse b)) :=
    waitReadyRetry_performedAs (fuel := 0) hs (by rw [bigStep, bigConfigured_of_configured hs.2, hv])
  refine ⟨fun hk ⟨hc, hl⟩ => ?_, fun hk ⟨hc, hl⟩ => ?_⟩
  · obtain ⟨v, hv, hd, hr, hck, hpin⟩ := bigRetry_did (zext p) k (sext n).toNat (by unfold sext; omega)
      (s := (s.latched n p).setRegs ({ · with attempt := 0 })) hc hl
    obtain ⟨a, t, h⟩ := (hperf hv).completes_of_did hd rfl rfl rfl hs.1
    refine ⟨a, t, h.accepted, waitEvents_length _ _ _ ▸ h.runs, h.ends, ?_, h.sckLevel.trans hck,
      h.pins.trans hpin, h.env ▸ hd.drew hl⟩
    rw [h.regs, hr]
    simp [State.latched, Regs.latch]
  · have hn : (sext n).toNat = k := by unfold sext; omega
    obtain ⟨v, hv, hd, hr, hck, hpin⟩ := bigRetry_fails_did (zext p) k
      (s := (s.latched n p).setRegs ({ · with attempt := 0 })) hc hl
    obtain ⟨a, t, h⟩ := (hperf (hn ▸ hv)).completes_of_did hd rfl rfl rfl hs.1
    refine ⟨a, t, h.accepted, failedChecks_length _ _ _ ▸ h.runs, h.ends, ?_, h.sckLevel.trans hck,
      h.pins.trans hpin, h.env ▸ hd.drew hl⟩
    rw [h.regs, hr]
    simp [State.latched, Regs.latch]

theorem timeoutRounds_length (d : PinId) (p : Nat) (advances : List Nat) (t : Nat) :
    (timeoutRounds d p t advances).length = 3 * advances.length := by
  induction advances generalizing t with
  | nil => rfl
  | cons a more ih =>
    simp only [timeoutRounds, List.length_cons, ih]
    omega

/-- WAIT_READY_TIMEOUT that answers `ok`: the clock at entry, the failed rounds, the last round. -/
theorem waitReadyTimeout_completes {s : State} (hs : s.standsReady) {m p : Word} {entry last : Nat}
    {advances more : List Nat} {rest : List Bool} {ok : Bool}
    (hclock : s.env.clock.script = entry :: advances ++ last :: more)
    (hrounds : ∀ j, 0 < j → j ≤ advances.length → (advances.take j).sum < m.toNat)
    (hok : ok = true ↔ advances.sum + last < m.toNat)
    (hans : s.answers (List.replicate advances.length true ++ (if ok then [false] else [])) rest) :
    ∃ v a t, Completes (.waitReadyTimeout m p) s v (.bool ok) (.now (s.env.lastMs + entry) ::
        timeoutRounds s.regs.dataPin p.toNat (s.env.lastMs + entry) advances ++
        .now (s.env.lastMs + entry + advances.sum + last) :: (if ok then [.read s.regs.dataPin false] else [])) a t ∧
      v.regs = { s.regs with argA := m, argB := p, t0 := s.env.lastMs + entry } ∧ v.sckLevel = s.sckLevel ∧
      v.pins = s.pins ∧ v.env.levels.script = rest ∧ v.env.clock.script = more := by
  obtain ⟨hc, hl⟩ := hans
  have hentry : (s.latched m p).clockMs = s.env.lastMs + entry := by
    simp [State.clockMs, Env.nowMs, Answers.next, State.latched, hclock]
  set l := (s.latched m p).nowMs.setRegs ({ · with t0 := (s.latched m p).clockMs }) with hldef
  have hlast : l.env.lastMs = s.env.lastMs + entry := hentry
  have ht0 : l.regs.t0 = s.env.lastMs + entry := hentry
  obtain ⟨v, hv, hr⟩ := bigTimeout_rounds (zext m) (zext p) advances last more ok rest (s := l)
    (nowMs_conv (s := s.latched m p) hc) (by show s.env.clock.script.tail = _; rw [hclock]; rfl) hl (by rw [hlast, ht0])
    (fun j h0 hj => by rw [hlast, ht0]; exact Nat.add_lt_add_left (hrounds j h0 hj) _)
    (by rw [hok, hlast, ht0, zext, Nat.add_assoc (s.env.lastMs + entry)]; exact (Nat.add_lt_add_iff_left).symm)
  have hp : PerformedAs (.waitReadyTimeout m p) s (v.answer (.bool ok)) :=
    waitReadyTimeout_performedAs (fuel := advances.length + 1) hs
      (by rw [bigStep, bigConfigured_of_configured hs.2]; simp only [← hldef, hv]; rfl)
  obtain ⟨a, t, h⟩ := hp.completes (events := .now (s.env.lastMs + entry) ::
      timeoutRounds s.regs.dataPin p.toNat (s.env.lastMs + entry) advances ++
      .now (s.env.lastMs + entry + advances.sum + last) :: (if ok then [.read s.regs.dataPin false] else []))
    (by rw [hr.trace, hlast, show l.trace = s.trace ++ [.now (s.env.lastMs + entry)] by rw [← hentry]; rfl]; simp; rfl)
    hr.responses hr.cmds (hr.busy.trans hs.1)
  refine ⟨v, a, t, h, ?_, hr.sckLevel, hr.pins, hr.levels, hr.clock⟩
  rw [hr.regs, ← hentry]
  rfl

/-- Settles O43: the last round answers by the clock's reading, which ends it or leaves its check to be made. -/
theorem waitReadyTimeoutCompletes : Obligations.WaitReadyTimeoutCompletes := by
  intro s m p entry last advances more rest hs hclock hrounds
  refine ⟨fun hle hans => ?_, fun hlt hans => ?_⟩
  · obtain ⟨v, a, t, h, hr, hk, hpin, hlv, hck⟩ := waitReadyTimeout_completes hs (p := p) (ok := false) (rest := rest)
      hclock hrounds (by simpa using hle) (by simpa using hans)
    refine ⟨a, t, h.accepted, ?_, h.ends, h.regs.trans hr, h.sckLevel.trans hk, h.pins.trans hpin, h.env ▸ hlv,
      h.env ▸ hck⟩
    simpa [timeoutRounds_length] using h.runs
  · obtain ⟨v, a, t, h, hr, hk, hpin, hlv, hck⟩ := waitReadyTimeout_completes hs (p := p) (ok := true) (rest := rest)
      hclock hrounds (by simpa using hlt) (by simpa using hans)
    refine ⟨a, t, h.accepted, ?_, h.ends, h.regs.trans hr, h.sckLevel.trans hk, h.pins.trans hpin, h.env ▸ hlv,
      h.env ▸ hck⟩
    simpa [timeoutRounds_length] using h.runs

/-! ## Stand-alone pulses, whatever is on the lines (R120 to R126) -/

/-- A stretch of collaborator calls: its events, and what none of them touches. -/
structure State.Called (s t : State) (events : List Event) : Prop where
  trace : t.trace = s.trace ++ events
  responses : t.responses = s.responses
  cmds : t.cmds = s.cmds
  busy : t.busy = s.busy

theorem State.Called.refl (s : State) : s.Called s [] := ⟨(List.append_nil _).symm, rfl, rfl, rfl⟩

theorem State.Called.trans {s t u : State} {es es' : List Event} (h : s.Called t es) (h' : t.Called u es') :
    s.Called u (es ++ es') :=
  ⟨by rw [h'.trace, h.trace, List.append_assoc], h'.responses.trans h.responses, h'.cmds.trans h.cmds,
    h'.busy.trans h.busy⟩

/-- The sample of a data pulse that begins now. -/
def State.pulseSample (s : State) : Bool := ((s.pinWrite true).delayUs Config.tHiMin).level

/-- The samples of the data pulses left of a group. -/
def State.groupSamples (o : BitOrder) : (left : Nat) → State → List Bool
  | 0, _ => []
  | left + 1, s => s.pulseSample :: State.groupSamples o left (bigDataPulse o (Fin.ofNat 8 (7 - left)) s)

theorem State.groupSamples_length (o : BitOrder) (n : Nat) (s : State) : (s.groupSamples o n).length = n := by
  induction n generalizing s with
  | zero => rfl
  | succ n ih => rw [State.groupSamples, List.length_cons, ih]

theorem bigDataPulse_called (o : BitOrder) (i : Fin 8) (s : State) :
    s.Called (bigDataPulse o i s) (pulseEvents s.regs.clockPin s.regs.dataPin s.pulseSample) :=
  ⟨by simp [bigDataPulse, pulseEvents, State.pulseSample], rfl, rfl, rfl⟩

theorem bigDataPulse_clockLow (o : BitOrder) (i : Fin 8) (s : State) : s.ClockLow (bigDataPulse o i s) :=
  ⟨rfl, Memory.write_write _ _ _ _⟩

theorem bigDataPulses_called (o : BitOrder) (n : Nat) (s : State) :
    s.Called (bigDataPulses o n s) ((s.groupSamples o n).flatMap (pulseEvents s.regs.clockPin s.regs.dataPin)) := by
  induction n generalizing s with
  | zero => exact .refl s
  | succ n ih => exact (bigDataPulse_called o _ s).trans (ih _)

theorem bigDataPulses_clockLow (o : BitOrder) (n : Nat) (s : State) : s.ClockLow (bigDataPulses o (n + 1) s) := by
  induction n generalizing s with
  | zero => exact bigDataPulse_clockLow o _ s
  | succ n ih => exact (bigDataPulse_clockLow o _ s).trans (ih _) rfl

theorem bigDataPulses_sr (o : BitOrder) (n : Nat) (s : State) :
    (bigDataPulses o n s).regs = { s.regs with sr := storeSamples o (s.groupSamples o n) s.regs.sr } := by
  induction n generalizing s with
  | zero => rfl
  | succ n ih =>
    rw [bigDataPulses, ih, State.groupSamples, storeSamples, State.groupSamples_length]
    rfl

/-- The samples of a whole group. -/
def State.byteSamples (o : BitOrder) (s : State) : List Bool := (s.setRegs Regs.clearSr).groupSamples o 8

theorem State.byteSamples_length (o : BitOrder) (s : State) : (s.byteSamples o).length = 8 :=
  State.groupSamples_length o 8 _

theorem bigShiftByte_called (o : BitOrder) (s : State) :
    s.Called (bigShiftByte o s) ((s.byteSamples o).flatMap (pulseEvents s.regs.clockPin s.regs.dataPin)) := by
  obtain ⟨ht, hr, hc, hb⟩ := bigDataPulses_called o 8 (s.setRegs Regs.clearSr)
  exact ⟨ht, hr, hc, hb⟩

theorem bigShiftByte_clockLow (o : BitOrder) (s : State) : s.ClockLow (bigShiftByte o s) :=
  bigDataPulses_clockLow o 7 (s.setRegs Regs.clearSr)

/-- A group of data pulses packs its samples (R121). -/
theorem bigShiftByte_regs (o : BitOrder) (s : State) :
    (bigShiftByte o s).regs = { s.regs with sr := BitVec.ofNat 8 (groupValue o (s.byteSamples o)) } := by
  rw [bigShiftByte, bigDataPulses_sr, ← storeSamples_group o (State.byteSamples_length o s)]
  rfl

/-- The samples can be read off the events. -/
theorem flatMap_pulseEvents_injective (c d : PinId) : Function.Injective (List.flatMap (pulseEvents c d)) := by
  intro ls
  induction ls with
  | nil => rintro (_ | ⟨b, ls'⟩) h <;> simp_all [pulseEvents]
  | cons b ls ih =>
    rintro (_ | ⟨b', ls'⟩) h
    · simp [pulseEvents] at h
    · simp only [List.flatMap_cons, pulseEvents, List.cons_append, List.nil_append, List.cons.injEq, true_and,
        Event.read.injEq] at h
      rw [h.1, ih h.2]

theorem lsbValue_lt (samples : List Bool) : lsbValue samples < 2 ^ samples.length := by
  induction samples with
  | nil => exact Nat.one_pos
  | cons b samples ih =>
    have hb : b.toNat ≤ 1 := b.toNat_le
    simp only [lsbValue, List.foldr_cons, List.length_cons, Nat.pow_succ] at ih ⊢
    omega

theorem foldl_msb_lt (samples : List Bool) (v : Nat) :
    samples.foldl (fun v b => 2 * v + b.toNat) v < (v + 1) * 2 ^ samples.length := by
  induction samples generalizing v with
  | nil => simp
  | cons b samples ih =>
    have hb : b.toNat ≤ 1 := b.toNat_le
    calc _ < (2 * v + b.toNat + 1) * 2 ^ samples.length := ih _
      _ ≤ (2 * (v + 1)) * 2 ^ samples.length := Nat.mul_le_mul_right _ (by omega)
      _ = (v + 1) * 2 ^ (b :: samples).length := by rw [List.length_cons]; ring

theorem groupValue_lt (o : BitOrder) (samples : List Bool) : groupValue o samples < 2 ^ samples.length := by
  cases o with
  | msb => simpa [groupValue, msbValue] using foldl_msb_lt samples 0
  | lsb => exact lsbValue_lt samples

/-- Settles O44: one group of data pulses, whose samples are the line's answers where those are given. -/
theorem shiftByteCompletes : Obligations.ShiftByteCompletes := by
  intro s o hs
  set l := s.latched (orderOperand o s.portA) s.portB with hldef
  have hp := shiftByte_performedAs (o := o) (fuel := 0) hs (by rw [bigStep, bigConfigured_of_configured hs.2])
  rw [← hldef] at hp
  have hcall := bigShiftByte_called o l
  have hlow := bigShiftByte_clockLow o l
  have hregs := bigShiftByte_regs o l
  have hlen := State.byteSamples_length o l
  obtain ⟨a, t, h⟩ := hp.completes (s := s) hcall.trace hcall.responses hcall.cmds (hcall.busy.trans hs.1)
  refine ⟨a, t, l.byteSamples o, hlen, h.accepted, ?_, ?_, h.regs.trans hregs, h.sckLevel.trans hlow.1,
    h.pins.trans hlow.2, fun ls rest hls ⟨hc, hl⟩ => ?_⟩
  · simpa [pulseEvents, hlen] using h.runs
  · have hv : srResponse (bigShiftByte o l).regs = .int (groupValue o (l.byteSamples o)) := by
      rw [srResponse, hregs, BitVec.toNat_ofNat, Nat.mod_eq_of_lt (hlen ▸ groupValue_lt o _)]
    exact hv ▸ h.ends
  · obtain ⟨hd, -, -⟩ := bigShiftByte_did o hls (s := l) hc hl
    have hevents := List.append_cancel_left (hcall.trace.symm.trans hd.trace)
    refine ⟨flatMap_pulseEvents_injective l.regs.clockPin l.regs.dataPin hevents, ?_⟩
    rw [h.env]
    exact hd.drew hl

@[simp] theorem Env.clockLine_levels (was : Line) (b : Bool) (e : Env) : (e.clockLine was b).levels = e.levels := by
  cases was <;> cases b <;> rfl

@[simp] theorem Env.clockLine_clock (was : Line) (b : Bool) (e : Env) : (e.clockLine was b).clock = e.clock := by
  cases was <;> cases b <;> rfl

@[simp] theorem Env.pass_levels (high : Bool) (n : Nat) (e : Env) : (e.pass high n).levels = e.levels := rfl

@[simp] theorem Env.pass_clock (high : Bool) (n : Nat) (e : Env) : (e.pass high n).clock = e.clock := rfl

/-- Settles O45: four calls, none of which is a reading. -/
theorem clockPulseCompletes : Obligations.ClockPulseCompletes := by
  intro s hs
  have hp := clockPulse_performedAs (fuel := 0) hs (by rw [bigStep, bigConfigured_of_configured hs.2])
  obtain ⟨a, t, h⟩ := hp.completes (s := s) (events := gainEvents s.regs.clockPin)
    (by simp [bigClockPulse, gainEvents, State.latched]) rfl rfl hs.1
  refine ⟨a, t, h.accepted, h.runs, h.ends, h.regs, h.sckLevel, h.pins.trans (Memory.write_write _ _ _ _), ?_, ?_⟩ <;>
    rw [h.env] <;> simp [bigClockPulse, State.latched]

/-! ## One frame (R140 to R149, R180 to R186) -/

theorem frameEvents_length (c d : PinId) {samples : List Bool} (h : samples.length = 24) (g : GainCode) :
    (frameEvents c d samples g).length = 5 * 24 + 4 * g.code.toNat := by
  simp [frameEvents, pulseEvents, gainEvents, h, GainCode.code_toNat, Nat.mul_comm]

theorem readRawEvents_length (c d : PinId) (k : Nat) {samples : List Bool} (h : samples.length = 24) (g : GainCode) :
    (readRawEvents c d k samples g).length = 2 * k + 1 + 5 * 24 + 4 * g.code.toNat := by
  rw [readRawEvents, List.length_append, waitEvents_length, frameEvents_length c d h]
  omega

/-- Settles O46: the readiness wait and the frame. -/
theorem readRawReturnsTheValueShifted : Obligations.ReadRawReturnsTheValueShifted := by
  intro s f rest hs ⟨hc, hl⟩
  obtain ⟨v, hv, hd, hr, hk, hpin⟩ := bigReadRaw_did f (s := s.latched s.portA s.portB) hc hl
  have hp := readRaw_performedAs (fuel := f.failed + 1) hs (by rw [bigStep, bigConfigured_of_configured hs.2, hv]; rfl)
  obtain ⟨a, t, h⟩ := hp.completes_of_did hd rfl rfl rfl hs.1
  refine ⟨a, t, h.accepted, readRawEvents_length _ _ _ (bits_length _) _ ▸ h.runs, ?_, h.regs.trans hr,
    h.sckLevel.trans hk, h.pins.trans hpin, h.env ▸ hd.drew hl⟩
  have hresp : resultResponse v.regs = .int f.value.toInt := by rw [resultResponse, hr, afterFrame_result]
  exact hresp ▸ h.ends

/-- The clock-low write and the frame of SET_GAIN, and of BEGIN through it (R184, R186). -/
theorem bigSetGain_did (f : FrameToCome) (gain : Word) {l : State} (hc : l.env.conv = none) {more : List Bool}
    (hl : l.env.levels.script = f.levels ++ more) : ∃ v, bigSetGain gain (f.failed + 1) l = some v ∧
    l.Did v f.levels (.write l.regs.clockPin false :: readRawEvents l.regs.clockPin l.regs.dataPin f.failed
      (bits f.value) (gainSelect gain l.regs.gainCode)) ∧
    v.regs = (l.regs.selectGain gain).afterFrame f.value ∧ l.ClockLow v := by
  have hw := pinWrite_did (s := l.setRegs (Regs.selectGain gain)) hc false
  obtain ⟨v, hv, hd, hr, hlow⟩ := bigReadRaw_did f hw.conv (hw.left (ls := []) hl)
  refine ⟨v, hv, (hw.trans hd).of_setRegs, hr, hlow.1, ?_⟩
  rw [hlow.2]
  exact Memory.write_write _ _ _ _

/-- Settles O47: the gain selected, the clock-low write and one frame. -/
theorem setGainCompletes : Obligations.SetGainCompletes := by
  intro s gain f rest code hs hcode ⟨hc, hl⟩
  obtain rfl : code = gainSelect gain s.regs.gainCode := hcode
  obtain ⟨v, hv, hd, hr, hlow⟩ := bigSetGain_did f gain (l := s.latched gain s.portB) hc hl
  have hp := setGain_performedAs (fuel := f.failed + 1) hs (by rw [bigStep, bigConfigured_of_configured hs.2, hv]; rfl)
  obtain ⟨a, t, h⟩ := hp.completes_of_did hd rfl rfl rfl hs.1
  refine ⟨a, t, h.accepted, ?_, h.ends, h.regs.trans hr, h.sckLevel.trans hlow.1, h.pins.trans hlow.2,
    h.env ▸ hd.drew hl⟩
  rw [Nat.add_comm 1, ← readRawEvents_length _ _ _ (bits_length _) _]
  exact h.runs

/-- Settles O48: the pins bound, then SET_GAIN(128). -/
theorem beginCompletes : Obligations.BeginCompletes := by
  intro s c d f rest hb ⟨hc, hl⟩
  obtain ⟨v, hv, hd, hr, hlow⟩ := bigSetGain_did f 128 (l := (s.latched c d).setRegs (Regs.bind c d)) hc hl
  have hp := begin_performedAs (s := s) (fuel := f.failed + 1) (c := c) (d := d) hb (by rw [bigStep, hv]; rfl)
  obtain ⟨a, t, h⟩ := hp.completes_of_did hd rfl rfl rfl hb
  refine ⟨a, t, h.accepted, ?_, h.ends, h.regs.trans hr, h.sckLevel.trans hlow.1, h.pins.trans hlow.2,
    h.env ▸ hd.drew hl⟩
  have hlen := readRawEvents_length c d f.failed (bits_length f.value) .a128
  rw [Nat.add_comm 1, show 2 * f.failed + 1 + 5 * 24 + 4 = 2 * f.failed + 1 + 5 * 24 + 4 * GainCode.a128.code.toNat from rfl,
    ← hlen]
  exact h.runs

/-! ## Means (R196 to R204) -/

/-- So many checks are enough for each of the frames. -/
def enoughChecks (frames : List FrameToCome) : Nat := (frames.map FrameToCome.failed).sum + 1

theorem failed_lt_enoughChecks {frames : List FrameToCome} {f : FrameToCome} (hf : f ∈ frames) :
    f.failed < enoughChecks frames :=
  Nat.lt_succ_of_le (List.single_le_sum (by simp) _ (List.mem_map_of_mem hf))

/-- A mean of the frames to come (R196). -/
theorem bigMean_did {n : Int} (before : List FrameToCome) (f : FrameToCome) {l : State} (hc : l.env.conv = none)
    {more : List Bool} (hl : l.env.levels.script = (before ++ [f]).flatMap FrameToCome.levels ++ more)
    (hn : n = before.length + 1) : ∃ v, bigMean n (enoughChecks (before ++ [f])) l = some v ∧
    l.Did v ((before ++ [f]).flatMap FrameToCome.levels)
      (meanEvents l.regs.clockPin l.regs.dataPin l.regs.gainCode (before ++ [f])) ∧
    v.regs = ({ l.regs with sum := frameSum (before ++ [f]), count := before.length + 1 } : Regs).afterFrame f.value ∧
    l.ClockLow v ∧ v.mean n = numDiv l.env.exactNum (.rat (frameSum (before ++ [f]))) (.rat n) := by
  obtain ⟨v, hv, hd, hr, hlow⟩ := bigSamples_did before f (s := l.setRegs Regs.startMean) hc hl
    (fun g hg => failed_lt_enoughChecks hg)
  have hr : v.regs = ({ l.regs with sum := frameSum (before ++ [f]), count := before.length + 1 } :
      Regs).afterFrame f.value := by
    rw [hr]
    simp [Regs.startMean]
  refine ⟨v, ?_, hd.of_setRegs, hr, hlow, ?_⟩
  · rw [bigMean, show n.toNat = before.length + 1 by omega]
    exact hv
  · rw [State.mean, hd.exactNum, hr]
    rfl

/-- Settles O49: the frames, and their sum divided by their number. -/
theorem readAverageCompletes : Obligations.ReadAverageCompletes := by
  intro s n before f rest hs hn ⟨hc, hl⟩
  obtain ⟨v, hv, hd, hr, hlow, hm⟩ := bigMean_did before f (l := s.latched n s.portB) hc hl hn
  have hn1 : 1 ≤ n.toInt := by omega
  have hp := readAverage_performedAs (fuel := enoughChecks (before ++ [f])) hs hn1
    (by rw [bigStep, bigConfigured_of_configured hs.2, bigCounted_of_one_le hn1, sext, hv]; rfl)
  obtain ⟨a, t, h⟩ := hp.completes_of_did hd rfl rfl rfl hs.1
  refine ⟨a, t, h.accepted, h.runs, ?_, h.regs.trans hr, h.sckLevel.trans hlow.1, h.pins.trans hlow.2, ?_⟩
  · exact hm ▸ h.ends
  · rw [h.env]
    exact hd.drew hl

/-- What OFFSET 0 is taken from and SCALE 1 divides stays as it is (R203). -/
theorem numDiv_numSub_reset (exact : Bool) (m : Num) : numDiv exact (numSub exact m (.rat 0)) (.rat 1) = m := by
  simp [numDiv, numSub]

/-- Settles O50: the mean, less OFFSET and divided by SCALE. -/
theorem getUnitsCompletes : Obligations.GetUnitsCompletes := by
  intro s n before f rest hs hn ⟨hc, hl⟩
  obtain ⟨v, hv, hd, hr, hlow, hm⟩ := bigMean_did before f (l := s.latched n s.portB) hc hl hn
  have hn1 : 1 ≤ n.toInt := by omega
  have hp := getUnits_performedAs (fuel := enoughChecks (before ++ [f])) hs hn1
    (by rw [bigStep, bigConfigured_of_configured hs.2, bigCounted_of_one_le hn1, sext, hv]; rfl)
  obtain ⟨a, t, h⟩ := hp.completes_of_did hd rfl rfl rfl hs.1
  have hu : v.units (v.mean n.toInt) = numDiv s.env.exactNum (numSub s.env.exactNum
      (numDiv s.env.exactNum (.rat (frameSum (before ++ [f]))) (.rat n.toInt)) s.regs.offset) s.regs.scale := by
    rw [State.units, State.aboveOffset, hm, hd.exactNum, hr]
    rfl
  have hends := h.ends
  rw [hu] at hends
  refine ⟨a, t, h.accepted, h.runs, hends, h.regs.trans hr, h.sckLevel.trans hlow.1, h.pins.trans hlow.2, ?_,
    fun ho hsc => ?_⟩
  · rw [h.env]
    exact hd.drew hl
  · rw [hends.responses, ho, hsc, numDiv_numSub_reset]

/-- Settles O51: the mean of ten frames, stored in OFFSET. -/
theorem tareCompletes : Obligations.TareCompletes := by
  intro s before f rest hs h9 ⟨hc, hl⟩
  obtain ⟨v, hv, hd, hr, hlow, hm⟩ := bigMean_did (n := 10) before f (l := s.latched s.portA s.portB) hc hl
    (by rw [h9]; rfl)
  have hp := tare_performedAs (fuel := enoughChecks (before ++ [f])) hs
    (by rw [bigStep, bigConfigured_of_configured hs.2, show (Config.nAvgDefault : Int) = 10 from rfl, hv]; rfl)
  obtain ⟨a, t, h⟩ := hp.completes_of_did (hd.setRegs _) rfl rfl rfl hs.1
  refine ⟨a, t, h.accepted, h.runs, h.ends, ?_, h.sckLevel.trans hlow.1, h.pins.trans hlow.2, ?_⟩
  · rw [h.regs, State.setRegs_regs, hm, hr, h9]
    rfl
  · rw [h.env]
    exact hd.drew hl

/-- Settles O52: the mean of ten frames less OFFSET, divided by the weight and stored in SCALE. -/
theorem setScaleCompletes : Obligations.SetScaleCompletes := by
  intro s w before f rest hs h9 ⟨hc, hl⟩
  obtain ⟨v, hv, hd, hr, hlow, hm⟩ := bigMean_did (n := 10) before f (l := s.latched w s.portB) hc hl
    (by rw [h9]; rfl)
  have hp := setScale_performedAs (w := w) (fuel := enoughChecks (before ++ [f])) hs
    (by rw [bigStep, bigConfigured_of_configured hs.2, show (Config.nAvgDefault : Int) = 10 from rfl, hv]; rfl)
  obtain ⟨a, t, h⟩ := hp.completes_of_did (hd.setRegs _) rfl rfl rfl hs.1
  refine ⟨a, t, h.accepted, h.runs, h.ends, ?_, h.sckLevel.trans hlow.1, h.pins.trans hlow.2, ?_⟩
  · rw [h.regs, State.setRegs_regs, hm, State.scaleFor, State.aboveOffset, hd.exactNum, hr, h9]
    rfl
  · rw [h.env]
    exact hd.drew hl

end Sys2Proof.Machine
end

section
/-! The statements about NUM: constant readings, TARE and SET_SCALE undone by GET_UNITS (R206). -/

namespace Sys2Proof.Machine

/-! ## Results that NUM holds exactly (R205) -/

/-- A result that is a 24-bit value comes out exact, whatever the host's NUM. -/
theorem numRound_toInt (exact : Bool) (v : BitVec 24) : numRound exact (v.toInt : Rat) = .rat v.toInt := by
  have hheld : isHeldInteger (v.toInt : Rat) = true := by
    obtain ⟨hlo, hhi⟩ := toInt_bounds v
    have hbound : v.toInt.natAbs < Config.exactIntegerBound := by
      simp only [Config.exactIntegerBound]
      omega
    simp [isHeldInteger, hbound]
  rw [numRound, hheld, Bool.or_true, if_pos rfl]

theorem numRound_zero (exact : Bool) : numRound exact 0 = .rat 0 := by
  simpa using numRound_toInt exact 0

theorem numSub_self (exact : Bool) (p : Rat) : numSub exact (.rat p) (.rat p) = .rat 0 := by
  unfold numSub
  split
  · assumption
  · simp only [sub_self, numRound_zero]

theorem numDiv_zero (exact : Bool) {q : Rat} (hq : q ≠ 0) : numDiv exact (.rat 0) (.rat q) = .rat 0 := by
  unfold numDiv
  split
  · rfl
  · simp only [if_neg hq, zero_div, numRound_zero]

/-- Subtraction in exact arithmetic. -/
theorem numSub_exact (p q : Rat) : numSub true (.rat p) (.rat q) = .rat (p - q) := by
  unfold numSub
  split
  case isTrue h =>
    obtain rfl : q = 0 := Num.rat.inj h
    rw [sub_zero]
  case isFalse => rfl

/-- Division in exact arithmetic by a number other than 0. -/
theorem numDiv_exact (p : Rat) {q : Rat} (hq : q ≠ 0) : numDiv true (.rat p) (.rat q) = .rat (p / q) := by
  unfold numDiv
  split
  case isTrue h =>
    obtain rfl : q = 1 := Num.rat.inj h
    rw [div_one]
  case isFalse =>
    simp only [if_neg hq]
    rfl

theorem frameSum_replicate (n : Nat) (v : BitVec 24) : frameSum (List.replicate n ⟨0, v⟩) = n * v.toInt := by
  simp [frameSum]

/-- The mean of equal frames is their value (R206 (a)). -/
theorem mean_of_constant_reading (exact : Bool) {n : Nat} (hn : 1 ≤ n) (v : BitVec 24) :
    numDiv exact (.rat (frameSum (List.replicate n ⟨0, v⟩))) (.rat (n : Int)) = .rat v.toInt := by
  have hn0 : ((n : Int) : Rat) ≠ 0 := by
    norm_cast
    omega
  rw [frameSum_replicate]
  unfold numDiv
  split
  case isTrue h =>
    obtain rfl : n = 1 := by
      have := Num.rat.inj h
      exact_mod_cast this
    simp
  case isFalse =>
    have hq : ((n * v.toInt : Int) : Rat) / ((n : Int) : Rat) = v.toInt := by
      rw [Int.cast_mul, mul_div_cancel_left₀ _ hn0]
    simp only [if_neg hn0, hq, numRound_toInt]

/-! ## Constant readings (R206, R268 (c)) -/

/-- The answers of a constant reading, those of the first frames apart. -/
theorem constantReading_add (v : BitVec 24) (m n : Nat) :
    constantReading v (m + n) = constantReading v m ++ constantReading v n := by
  rw [constantReading, List.replicate_add, List.flatMap_append]
  rfl

/-- Settles O54: the sum of equal frames is a multiple of their value. -/
theorem meanOfConstantReadings : Obligations.MeanOfConstantReadings := by
  refine ⟨fun exact n v hn => mean_of_constant_reading exact hn v, fun s n v rest hs hn hans => ?_⟩
  have hnat : n.toInt = (n.toNat : Int) := by
    rw [BitVec.toInt_eq_toNat_cond] at hn ⊢
    split at hn <;> omega
  obtain ⟨m, hm⟩ : ∃ m, n.toNat = m + 1 := ⟨n.toNat - 1, by omega⟩
  rw [constantReading, hm, List.replicate_succ'] at hans
  obtain ⟨a, t, ha, hrun, hends, -⟩ := readAverageCompletes s n (List.replicate m ⟨0, v⟩) ⟨0, v⟩ rest hs
    (by rw [hnat, hm, List.length_replicate]; norm_cast) hans
  refine ⟨_, a, t, ha, hrun, ?_⟩
  rw [hends.responses, ← List.replicate_succ', ← hm, hnat, mean_of_constant_reading _ (by omega)]

/-- GET_UNITS(1) on one ready frame (R203). -/
theorem getUnits_one {s : State} {v : BitVec 24} {rest : List Bool} (hs : s.standsReady)
    (hans : s.answers (constantReading v 1) rest) : ∃ k b u, exec (.getUnits 1) s = .next b ∧ run k b = .next u ∧
    u.responses = s.responses ++
      [.num (numDiv s.env.exactNum (numSub s.env.exactNum (.rat v.toInt) s.regs.offset) s.regs.scale)] := by
  obtain ⟨b, u, hb, hrun, hends, -⟩ := getUnitsCompletes s 1 [] ⟨0, v⟩ rest hs rfl hans
  have hm := mean_of_constant_reading s.env.exactNum (le_refl 1) v
  exact ⟨_, b, u, hb, hrun, by rw [hends.responses, ← hm]; rfl⟩

/-- Settles O55: TARE leaves the reading in OFFSET, and the reading less itself is 0. -/
theorem tareThenUnitsGivesZero : Obligations.TareThenUnitsGivesZero := by
  intro s v q rest hs hscale hq hans
  rw [show 11 = 10 + 1 from rfl, constantReading_add] at hans
  obtain ⟨a, t, ha, hrun, hends, hregs, -, -, hdrew⟩ := tareCompletes s (List.replicate 9 ⟨0, v⟩) ⟨0, v⟩
    (constantReading v 1 ++ rest) hs List.length_replicate ⟨hans.1, hans.2.trans (List.append_assoc ..)⟩
  have hoffset : t.regs.offset = .rat v.toInt := by
    rw [hregs, ← mean_of_constant_reading s.env.exactNum (n := 10) (by decide) v]
    rfl
  obtain ⟨k, b, u, hb, hrun', hu⟩ := getUnits_one (s := t) ⟨hends.busy, by rw [hregs]; exact hs.2⟩ ⟨hdrew.conv, hdrew.levels⟩
  refine ⟨_, k, a, t, b, u, ha, hrun, hoffset, hb, hrun', ?_⟩
  rw [hu, hends.responses, hoffset, show t.regs.scale = .rat q by rw [hregs]; exact hscale, numSub_self,
    numDiv_zero _ hq, List.append_assoc]
  rfl

/-- Settles O56: SCALE is the reading above OFFSET over the weight, and the reading above OFFSET over that the weight. -/
theorem setScaleThenUnitsGivesTheWeight : Obligations.SetScaleThenUnitsGivesTheWeight := by
  intro s v o w rest hs hexact hoffset hne hw hans
  have hw0 : (w.toInt : Rat) ≠ 0 := by
    norm_cast
    exact fun h => hw (BitVec.toInt_inj.mp h)
  have hd : (v.toInt : Rat) - o ≠ 0 := sub_ne_zero.mpr hne.symm
  rw [show 11 = 10 + 1 from rfl, constantReading_add] at hans
  obtain ⟨a, t, ha, hrun, hends, hregs, -, -, hdrew⟩ := setScaleCompletes s w (List.replicate 9 ⟨0, v⟩) ⟨0, v⟩
    (constantReading v 1 ++ rest) hs List.length_replicate ⟨hans.1, hans.2.trans (List.append_assoc ..)⟩
  have hscale : t.regs.scale = .rat ((v.toInt - o) / w.toInt) := by
    have hm := mean_of_constant_reading s.env.exactNum (n := 10) (by decide) v
    rw [← numDiv_exact _ hw0, ← numSub_exact, ← hm, hregs, hexact, ← hoffset]
    rfl
  obtain ⟨k, b, u, hb, hrun', hu⟩ := getUnits_one (s := t) ⟨hends.busy, by rw [hregs]; exact hs.2⟩ ⟨hdrew.conv, hdrew.levels⟩
  refine ⟨_, k, a, t, b, u, ha, hrun, hb, hrun', ?_⟩
  rw [hu, hends.responses, hdrew.exactNum, hexact, show t.regs.offset = .rat o by rw [hregs]; exact hoffset, hscale,
    numSub_exact, numDiv_exact _ (div_ne_zero hd hw0), div_div_cancel₀ hd, List.append_assoc]
  rfl

end Sys2Proof.Machine
end

section
/-! The statements about an attached converter (R244, R263 to R267, R283, R291 to R293): what a frame's pulses are to the
environment, then what they are to the converter. -/

namespace Sys2Proof.Machine

/-! ## A pulse of the clock line, seen from the environment

The line is low before the pulse and after it. -/

/-- The line driven high and held (R122, R126). -/
def Env.highHold (e : Env) : Env := ((e.pass false 0).rise).pass true Config.tHiMin

/-- The sample of a data pulse. -/
def Env.dataSample (e : Env) : Bool := (e.highHold.pass true 0).level true

/-- A data pulse up to its falling edge. -/
def Env.dataHigh (e : Env) : Env := (e.highHold.pass true 0).afterRead.pass true 0

/-- A whole data pulse. -/
def Env.dataPulse (e : Env) : Env := e.dataHigh.fall.pass false Config.tLoMin

/-- A gain pulse up to its falling edge. -/
def Env.gainHigh (e : Env) : Env := e.highHold.pass true 0

/-- A whole gain pulse. -/
def Env.gainPulse (e : Env) : Env := e.gainHigh.fall.pass false Config.tLoMin

def Env.dataPulses : Nat → Env → Env
  | 0, e => e
  | n + 1, e => Env.dataPulses n e.dataPulse

/-- The samples of so many data pulses. -/
def Env.dataSamples : Nat → Env → List Bool
  | 0, _ => []
  | n + 1, e => e.dataSample :: Env.dataSamples n e.dataPulse

/-- The clock-high intervals of so many data pulses (R233). -/
def Env.dataHighs : Nat → Env → List Nat
  | 0, _ => []
  | n + 1, e => e.dataHigh.highUs :: Env.dataHighs n e.dataPulse

def Env.gainPulses : Nat → Env → Env
  | 0, e => e
  | n + 1, e => Env.gainPulses n e.gainPulse

/-- The clock-high intervals of so many gain pulses. -/
def Env.gainHighs : Nat → Env → List Nat
  | 0, _ => []
  | n + 1, e => e.gainHigh.highUs :: Env.gainHighs n e.gainPulse

section lists
variable (e : Env)

theorem Env.dataPulses_add (m n : Nat) : e.dataPulses (m + n) = (e.dataPulses m).dataPulses n := by
  induction m generalizing e with
  | zero => rw [Nat.zero_add]; rfl
  | succ m ih => rw [Nat.succ_add, Env.dataPulses, ih, Env.dataPulses]

theorem Env.dataSamples_add (m n : Nat) :
    e.dataSamples (m + n) = e.dataSamples m ++ (e.dataPulses m).dataSamples n := by
  induction m generalizing e with
  | zero => rw [Nat.zero_add]; rfl
  | succ m ih => rw [Nat.succ_add, Env.dataSamples, ih, Env.dataSamples, Env.dataPulses, List.cons_append]

theorem Env.dataSamples_length (n : Nat) : (e.dataSamples n).length = n := by
  induction n generalizing e with
  | zero => rfl
  | succ n ih => rw [Env.dataSamples, List.length_cons, ih]

theorem Env.dataHighs_length (n : Nat) : (e.dataHighs n).length = n := by
  induction n generalizing e with
  | zero => rfl
  | succ n ih => rw [Env.dataHighs, List.length_cons, ih]

theorem Env.gainHighs_length (n : Nat) : (e.gainHighs n).length = n := by
  induction n generalizing e with
  | zero => rfl
  | succ n ih => rw [Env.gainHighs, List.length_cons, ih]

theorem Env.dataPulses_highs (n : Nat) : (e.dataPulses n).highs = e.highs ++ e.dataHighs n := by
  induction n generalizing e with
  | zero => exact (List.append_nil _).symm
  | succ n ih =>
    rw [Env.dataPulses, ih, Env.dataHighs, show e.dataPulse.highs = e.highs ++ [e.dataHigh.highUs] from rfl,
      List.append_assoc, List.singleton_append]

theorem Env.gainPulses_highs (n : Nat) : (e.gainPulses n).highs = e.highs ++ e.gainHighs n := by
  induction n generalizing e with
  | zero => exact (List.append_nil _).symm
  | succ n ih =>
    rw [Env.gainPulses, ih, Env.gainHighs, show e.gainPulse.highs = e.highs ++ [e.gainHigh.highUs] from rfl,
      List.append_assoc, List.singleton_append]

end lists

/-! ## The big-step rules' pulses are these -/

section bigStep
variable {s : State} (h : s.sckLevel = .low)
include h

theorem bigDataPulse_env (o : BitOrder) (i : Fin 8) :
    (bigDataPulse o i s).env = s.env.dataPulse ∧ s.pulseSample = s.env.dataSample := by
  have hh : s.high = false := by rw [State.high, h]; rfl
  constructor
  · show Env.pass false _ (Env.clockLine .high false (Env.pass true _ (Env.afterRead (Env.pass true _
      (Env.pass true _ (Env.clockLine s.sckLevel true (Env.pass s.high _ s.env))))))) = _
    rw [h, hh]
    rfl
  · show Env.level true (Env.pass true _ (Env.pass true _ (Env.clockLine s.sckLevel true (Env.pass s.high _ s.env)))) = _
    rw [h, hh]
    rfl

theorem bigClockPulse_env : (bigClockPulse s).env = s.env.gainPulse := by
  have hh : s.high = false := by rw [State.high, h]; rfl
  show Env.pass false _ (Env.clockLine .high false (Env.pass true _
      (Env.pass true _ (Env.clockLine s.sckLevel true (Env.pass s.high _ s.env))))) = _
  rw [h, hh]
  rfl

theorem bigDataPulses_env (o : BitOrder) (n : Nat) :
    (bigDataPulses o n s).env = s.env.dataPulses n ∧ s.groupSamples o n = s.env.dataSamples n := by
  induction n generalizing s with
  | zero => exact ⟨rfl, rfl⟩
  | succ n ih =>
    obtain ⟨he, hs⟩ := bigDataPulse_env h o (Fin.ofNat 8 (7 - n))
    obtain ⟨he', hs'⟩ := ih (s := bigDataPulse o (Fin.ofNat 8 (7 - n)) s) rfl
    rw [he] at he' hs'
    exact ⟨he', by rw [State.groupSamples, hs, hs', Env.dataSamples]⟩

theorem bigShiftByte_env (o : BitOrder) :
    (bigShiftByte o s).env = s.env.dataPulses 8 ∧ s.byteSamples o = s.env.dataSamples 8 :=
  bigDataPulses_env (s := s.setRegs Regs.clearSr) h o 8

theorem bigClockPulses_env (n : Nat) : (bigClockPulses n s).env = s.env.gainPulses n := by
  induction n generalizing s with
  | zero => rfl
  | succ n ih => rw [bigClockPulses, ih (s := bigClockPulse s) rfl, bigClockPulse_env h, Env.gainPulses]

end bigStep

theorem bigClockPulses_called (n : Nat) (s : State) :
    s.Called (bigClockPulses n s) (List.replicate n (gainEvents s.regs.clockPin)).flatten := by
  induction n generalizing s with
  | zero => exact .refl s
  | succ n ih =>
    have hone : s.Called (bigClockPulse s) (gainEvents s.regs.clockPin) := ⟨by simp [bigClockPulse, gainEvents], rfl, rfl, rfl⟩
    exact hone.trans (ih _)

theorem bigClockPulses_clockLow (n : Nat) (s : State) : s.ClockLow (bigClockPulses (n + 1) s) := by
  induction n generalizing s with
  | zero => exact ⟨rfl, Memory.write_write _ _ _ _⟩
  | succ n ih => exact State.ClockLow.trans ⟨rfl, Memory.write_write _ _ _ _⟩ (ih (bigClockPulse s)) rfl

/-! ## A frame, whatever its samples are -/

theorem lsbValue_testBit (l : List Bool) (i : Nat) : (lsbValue l).testBit i = l.getD i false := by
  induction l generalizing i with
  | nil => simp [lsbValue]
  | cons b l ih =>
    have hv : lsbValue (b :: l) = 2 * lsbValue l + b.toNat := Nat.add_comm _ _
    cases i with
    | zero => rw [hv]; cases b <;> simp
    | succ i =>
      rw [hv, Nat.testBit_succ, show (2 * lsbValue l + b.toNat) / 2 = lsbValue l by have := b.toNat_le; omega, ih]
      rfl

theorem msbValue_eq (l : List Bool) : msbValue l = lsbValue l.reverse := by
  rw [msbValue, lsbValue, List.foldr_reverse]
  exact congrArg (fun f => List.foldl f 0 l) (funext₂ fun v b => Nat.add_comm _ _)

/-- Any 24 samples are the bits of their value. -/
theorem bits_msbValue {l : List Bool} (h : l.length = 24) : bits (BitVec.ofNat 24 (msbValue l)) = l := by
  refine List.ext_getElem (by rw [bits_length, h]) fun i hi hl => ?_
  have hr : 23 - i < l.reverse.length := by rw [List.length_reverse]; omega
  simp only [bits, List.getElem_map, List.getElem_range, BitVec.getLsbD_ofNat, msbValue_eq, lsbValue_testBit]
  rw [List.getD_eq_getElem _ _ hr, List.getElem_reverse, decide_eq_true (by omega), Bool.true_and]
  congr 1
  omega

/-- A stretch of pulses from a low line: its events, and what it makes of the environment. -/
structure State.Pulsed (s t : State) (events : List Event) (e : Env) : Prop extends s.Called t events where
  clockLow : s.ClockLow t
  env : t.env = e

theorem State.Pulsed.trans {s t u : State} {es es' : List Event} {e e' : Env} (h : s.Pulsed t es e)
    (h' : t.Pulsed u es' e') (hp : t.regs.clockPin = s.regs.clockPin) : s.Pulsed u (es ++ es') e' :=
  ⟨h.toCalled.trans h'.toCalled, h.clockLow.trans h'.clockLow hp, h'.env⟩

/-- One byte of a frame, whose samples are the bits of `x` (R142). -/
theorem bigByte_pulsed {s : State} (h : s.sckLevel = .low) (ix : Fin 3) {x : Byte}
    (hx : s.env.dataSamples 8 = byteBits x) : ∃ t, (bigShiftByte .msb s).setRegs (Regs.storeByte ix) = t ∧
    s.Pulsed t ((byteBits x).flatMap (pulseEvents s.regs.clockPin s.regs.dataPin)) (s.env.dataPulses 8) ∧
    t.regs = Regs.storeByte ix { s.regs with sr := x } := by
  obtain ⟨he, hs⟩ := bigShiftByte_env h .msb
  have hcall := bigShiftByte_called .msb s
  have hregs := bigShiftByte_regs .msb s
  rw [hs, hx] at hcall hregs
  rw [groupValue, msbValue_byteBits] at hregs
  obtain ⟨ht, hr, hc, hb⟩ := hcall
  exact ⟨_, rfl, ⟨⟨ht, hr, hc, hb⟩, (bigShiftByte_clockLow .msb s).setRegs _, he⟩,
    congrArg (Regs.storeByte ix) hregs⟩

theorem bigClockPulses_pulsed {s : State} (h : s.sckLevel = .low) (g : GainCode) :
    s.Pulsed (bigClockPulses g.pulses s) (List.replicate g.pulses (gainEvents s.regs.clockPin)).flatten
      (s.env.gainPulses g.pulses) := by
  refine ⟨bigClockPulses_called _ s, ?_, bigClockPulses_env h _⟩
  rw [← Nat.sub_add_cancel g.pulses_pos]
  exact bigClockPulses_clockLow _ s

/-- A frame from a low line: 24 data pulses whose samples are the bits of `v`, and GAIN_CODE gain pulses (R142 to R149). -/
theorem bigFrame_pulsed {s : State} (h : s.sckLevel = .low) {v : BitVec 24}
    (hv : s.env.openFrame.dataSamples 24 = bits v) :
    s.Pulsed (bigFrame s) (frameEvents s.regs.clockPin s.regs.dataPin (bits v) s.regs.gainCode)
      ((s.env.openFrame.dataPulses 24).gainPulses s.regs.gainCode.pulses).closeFrame ∧
    (bigFrame s).regs = s.regs.afterFrame v := by
  have hsplit : s.env.openFrame.dataSamples (8 + (8 + 8)) = bits v := hv
  rw [bits_eq, Env.dataSamples_add, Env.dataSamples_add] at hsplit
  obtain ⟨hv2, hsplit⟩ := List.append_inj hsplit (Env.dataSamples_length _ 8)
  obtain ⟨hv1, hv0⟩ := List.append_inj hsplit (Env.dataSamples_length _ 8)
  obtain ⟨s2, e2, p2, r2⟩ := bigByte_pulsed (s := s.openFrame) h 2 hv2
  have p2 : s.Pulsed s2 _ _ := ⟨⟨p2.trace, p2.responses, p2.cmds, p2.busy⟩, p2.clockLow, p2.env⟩
  obtain ⟨s1, e1, p1, r1⟩ := bigByte_pulsed p2.clockLow.1 1 (by rw [p2.env]; exact hv1)
  obtain ⟨s0, e0, p0, r0⟩ := bigByte_pulsed p1.clockLow.1 0 (by rw [p1.env, p2.env]; exact hv0)
  have pg := bigClockPulses_pulsed p0.clockLow.1 s0.regs.gainCode
  have hb : bigFrame s = ((bigClockPulses s0.regs.gainCode.pulses s0).setRegs Regs.assembleFrame).closeFrame := by
    unfold bigFrame
    simp only [e2, e1, e0]
  have k0 : s0.regs = { s.regs with
      sr := v.extractLsb' 0 8, byte2 := v.extractLsb' 16 8, byte1 := v.extractLsb' 8 8, byte0 := v.extractLsb' 0 8 } := by
    rw [r0, r1, r2]; rfl
  have c2 : s2.regs.clockPin = s.regs.clockPin := by rw [r2]; rfl
  have c1 : s1.regs.clockPin = s2.regs.clockPin := by rw [r1]; rfl
  have c0 : s0.regs.clockPin = s1.regs.clockPin := by rw [r0]; rfl
  have d2 : s2.regs.dataPin = s.regs.dataPin := by rw [r2]; rfl
  have d1 : s1.regs.dataPin = s2.regs.dataPin := by rw [r1]; rfl
  have g0 : s0.regs.gainCode = s.regs.gainCode := by rw [k0]
  obtain ⟨hcall, hlow, henv⟩ := p2.trans (p1.trans (p0.trans pg c0) c1) c2
  rw [hb]
  refine ⟨⟨⟨?_, hcall.responses, hcall.cmds, hcall.busy⟩, hlow, ?_⟩, ?_⟩
  · show (bigClockPulses s0.regs.gainCode.pulses s0).trace = _
    rw [hcall.trace, c0, c1, c2, d1, d2, g0, bits_eq, frameEvents]
    simp [List.flatMap_append]
  · show (bigClockPulses s0.regs.gainCode.pulses s0).env.closeFrame = _
    rw [henv, p0.env, p1.env, p2.env, g0, ← Env.dataPulses_add, ← Env.dataPulses_add]
    rfl
  · show (bigClockPulses s0.regs.gainCode.pulses s0).regs.assembleFrame = _
    obtain ⟨hf, ha⟩ := assembleFrame_afterFrame v _ (congrArg Regs.byte2 k0) (congrArg Regs.byte1 k0)
      (congrArg Regs.byte0 k0)
    rw [bigClockPulses_regs, Regs.assembleFrame, ha, hf, k0]
    rfl

theorem bits_injective : Function.Injective bits := by
  intro v w h
  refine BitVec.eq_of_getLsbD_eq fun i hi => ?_
  have hat := congrArg (·[23 - i]?) h
  simpa [bits, show 23 - i < 24 by omega, show 23 - (23 - i) = i by omega] using hat

/-! ## A pulse, seen from the converter -/

/-- The converter counts the pulses of a frame, of which `k` have come. -/
def Converter.InFrame (k : Nat) (c : Converter) : Prop :=
  (∃ v, c.phase = .shifting v k) ∨ c.phase = .unready k ∨ c.phase = .poweredDown k

/-- A high interval ends (R267). -/
def Converter.fall (tooLong : Bool) (c : Converter) : Converter := if tooLong then c.powerDown else c

section converter
variable {c : Converter} {k : Nat}

theorem Converter.InFrame.wait (h : c.InFrame k) (us : Nat) : c.wait us = c := by
  refine Converter.wait_of_ne us fun hc => ?_
  obtain ⟨v, h⟩ | h | h := h <;> rw [h] at hc <;> cases hc

theorem Converter.InFrame.rise (h : c.InFrame k) : c.rise.InFrame (k + 1) := by
  obtain ⟨v, h⟩ | h | h := h
  · exact .inl ⟨v, by rw [Converter.rise_shifting h]⟩
  · exact .inr (.inl (by rw [Converter.rise_unready h]))
  · exact .inr (.inr (by rw [Converter.rise_poweredDown h]))

theorem Converter.InFrame.powerDown (h : c.InFrame k) : c.powerDown.phase = .poweredDown k := by
  obtain ⟨v, h⟩ | h | h := h
  · rw [Converter.powerDown_shifting h]
  · rw [Converter.powerDown_unready h]
  · rw [Converter.powerDown, h]

theorem Converter.InFrame.fall (h : c.InFrame k) (tooLong : Bool) : (c.fall tooLong).InFrame k := by
  cases tooLong with
  | false => exact h
  | true => exact .inr (.inr h.powerDown)

theorem Converter.fall_poweredDown (h : c.phase = .poweredDown k) (tooLong : Bool) :
    (c.fall tooLong).phase = .poweredDown k := by
  cases tooLong with
  | false => exact h
  | true => exact Converter.InFrame.powerDown (.inr (.inr h))

/-- Every frame the block starts is one to the converter, whatever it was doing (R57). -/
theorem Converter.openFrame_inFrame (c : Converter) : c.openFrame.InFrame 0 := by
  by_cases h : ∃ v, c.phase = .latched v
  · obtain ⟨v, h⟩ := h
    exact .inl ⟨v, by rw [Converter.openFrame_latched h]⟩
  · exact .inr (.inl (Converter.openFrame_unready fun v hv => h ⟨v, hv⟩))

end converter

section pulse
variable {e : Env} {c : Converter} {k : Nat} (hc : e.conv = some c) (hf : c.InFrame k)
include hc hf

theorem Env.pass_conv (high : Bool) (n : Nat) : (e.pass high n).conv = some c := by
  rw [Env.pass, hc, Option.map_some, hf.wait]

theorem Env.highHold_conv : e.highHold.conv = some c.rise :=
  Env.pass_conv (by rw [Env.rise, Env.pass_conv hc hf]; rfl) hf.rise _ _

theorem Env.gainHigh_conv : e.gainHigh.conv = some c.rise :=
  Env.pass_conv (Env.highHold_conv hc hf) hf.rise _ _

theorem Env.dataHigh_conv : e.dataHigh.conv = some c.rise :=
  Env.pass_conv (e := (e.highHold.pass true 0).afterRead) (Env.gainHigh_conv hc hf) hf.rise _ _

theorem Env.fall_conv (n : Nat) : (e.fall.pass false n).conv = some (c.fall e.tooLong) :=
  Env.pass_conv (by rw [Env.fall, hc]; rfl) (hf.fall _) _ _

theorem Env.dataPulse_conv : e.dataPulse.conv = some (c.rise.fall e.dataHigh.tooLong) :=
  Env.fall_conv (Env.dataHigh_conv hc hf) hf.rise _

theorem Env.gainPulse_conv : e.gainPulse.conv = some (c.rise.fall e.gainHigh.tooLong) :=
  Env.fall_conv (Env.gainHigh_conv hc hf) hf.rise _

theorem Env.dataSample_eq : e.dataSample =
    c.rise.level true e.gainHigh.highUs e.gainHigh.tooLong (e.gainHigh.levels.next Config.freeLevel) := by
  rw [Env.dataSample, Env.level, show (e.highHold.pass true 0).conv = some c.rise from Env.gainHigh_conv hc hf]
  rfl

end pulse

/-- An interval that has become power-down by its sample ends as one. -/
theorem Env.tooLong_at_sample {e : Env} (h : e.dataHigh.tooLong = false) : e.gainHigh.tooLong = false := by
  have hle : e.gainHigh.highUs ≤ e.dataHigh.highUs := Nat.le_add_right _ _
  have hband : e.gainHigh.band = e.dataHigh.band := rfl
  simp only [Env.tooLong, Bool.or_eq_false_iff, Bool.and_eq_false_iff, decide_eq_false_iff_not, hband] at h ⊢
  exact ⟨by omega, h.2.imp_left (by omega)⟩

theorem Env.tHiMin_le_gainHigh (e : Env) : Config.tHiMin ≤ e.gainHigh.highUs := by
  show Config.tHiMin ≤ 0 + (Config.tHiMin + _) + _
  omega

/-! ## The samples of a frame -/

/-- After a power-down every sample left of the 24 is 1 (R267). -/
theorem Env.dataSamples_poweredDown {e : Env} {c : Converter} {k n : Nat} (hc : e.conv = some c)
    (hp : c.phase = .poweredDown k) (hk : k + n ≤ 24) : e.dataSamples n = List.replicate n true := by
  induction n generalizing e c k with
  | zero => rfl
  | succ n ih =>
    have hf : c.InFrame k := .inr (.inr hp)
    have hr : c.rise.phase = .poweredDown (k + 1) := by rw [Converter.rise_poweredDown hp]
    rw [Env.dataSamples, Env.dataSample_eq hc hf, Converter.level_poweredDown _ _ _ hr (by omega),
      ih (Env.dataPulse_conv hc hf) (Converter.fall_poweredDown hr _) (by omega), List.replicate_succ]

/-- After a high interval taken as power-down, the samples left are 1. -/
theorem Env.dataSamples_of_tooLong {e : Env} {c : Converter} {k n : Nat} (hc : e.conv = some c)
    (hf : c.InFrame k) (hk : k + (n + 1) ≤ 24) (h : e.dataHigh.tooLong = true) :
    e.dataPulse.dataSamples n = List.replicate n true := by
  refine Env.dataSamples_poweredDown (k := k + 1) (Env.dataPulse_conv hc hf) ?_ (by omega)
  rw [h]
  exact hf.rise.powerDown

/-- In any frame the samples after an interval longer than T_PD are 1 (R267, R291). -/
theorem Env.dataSamples_after_stretch {e : Env} {c : Converter} {k n : Nat} (hc : e.conv = some c)
    (hf : c.InFrame k) (hk : k + n ≤ 24) {i j : Nat} (hij : i < j) (hj : j < n)
    (hlong : ∀ us, (e.dataHighs n)[i]? = some us → Config.tPd < us) : (e.dataSamples n)[j]? = some true := by
  induction n generalizing e c k i j with
  | zero => cases hj
  | succ n ih =>
    cases j with
    | zero => cases hij
    | succ j =>
      rw [Env.dataSamples, List.getElem?_cons_succ]
      cases i with
      | zero =>
        rw [Env.dataSamples_of_tooLong hc hf hk (Env.tooLong_of_lt (hlong _ rfl)),
          List.getElem?_replicate_of_lt (by omega)]
      | succ i =>
        exact ih (Env.dataPulse_conv hc hf) (hf.rise.fall _) (by omega) (by omega) (by omega) hlong

/-- Of a frame's samples from pulse `k` on, those before the cut are the bits of `v` and those after it are 1: no interval
before it is certainly a power-down, its own is not certainly none (R264, R267, R292). -/
structure CutAt (v : BitVec 24) (k : Nat) (samples : List Bool) (highs : List Nat) (cut : Nat) : Prop where
  le : cut ≤ samples.length
  before : ∀ j < cut, samples[j]? = some (v.getLsbD (23 - (k + j)))
  after : ∀ j, cut < j → j < samples.length → samples[j]? = some true
  short : ∀ i < cut, ∀ us, highs[i]? = some us → us ≤ Config.tPd
  long : cut < samples.length → ∀ us, highs[cut]? = some us → Config.tPdSafe < us

theorem CutAt.cons {v : BitVec 24} {k cut us : Nat} {samples : List Bool} {highs : List Nat}
    (h : CutAt v (k + 1) samples highs cut) (hus : us ≤ Config.tPd) :
    CutAt v k (v.getLsbD (23 - k) :: samples) (us :: highs) (cut + 1) where
  le := Nat.succ_le_succ h.le
  before
    | 0, _ => rfl
    | j + 1, hj => by
      rw [List.getElem?_cons_succ, h.before j (by omega), show k + 1 + j = k + (j + 1) by omega]
  after
    | 0, h0, _ => absurd h0 (by omega)
    | j + 1, hj, hl => h.after j (by omega) (by simpa using hl)
  short
    | 0, _, _, h0 => by cases h0; exact hus
    | i + 1, hi, us', h' => h.short i (by omega) us' h'
  long hl us' h' := h.long (by simpa using hl) us' h'

/-- A stretched pulse is the cut. -/
theorem CutAt.zero {v : BitVec 24} {k us n : Nat} {b : Bool} {highs : List Nat} (hus : Config.tPdSafe < us) :
    CutAt v k (b :: List.replicate n true) (us :: highs) 0 where
  le := Nat.zero_le _
  before j hj := absurd hj (Nat.not_lt_zero j)
  after
    | 0, h0, _ => absurd h0 (by omega)
    | j + 1, _, hl => by
      rw [List.getElem?_cons_succ, List.getElem?_replicate_of_lt (by simpa using hl)]
  short i hi := absurd hi (Nat.not_lt_zero i)
  long _ us' h' := by cases h'; exact hus

/-- Samples come before the cut while no interval has been longer than T_PD_SAFE. -/
theorem CutAt.lt_cut {v : BitVec 24} {k cut : Nat} {samples : List Bool} {highs : List Nat} (h : CutAt v k samples highs cut)
    (hlen : samples.length ≤ highs.length) {j : Nat} (hj : j < samples.length)
    (hs : ∀ i ≤ j, ∀ us, highs[i]? = some us → us ≤ Config.tPdSafe) : j < cut := by
  by_contra hcut
  have hlt : cut < highs.length := by omega
  have hlong := h.long (by omega) _ (List.getElem?_eq_getElem hlt)
  have hshort := hs cut (by omega) _ (List.getElem?_eq_getElem hlt)
  omega

theorem Env.tPdSafe_lt_of_tooLong {e : Env} (h : e.tooLong = true) : Config.tPdSafe < e.highUs := by
  by_contra hle
  rw [Env.not_tooLong (by omega)] at h
  cases h

theorem Env.le_tPd_of_not_tooLong {e : Env} (h : e.tooLong = false) : e.highUs ≤ Config.tPd := by
  by_contra hlt
  rw [Env.tooLong_of_lt (by omega)] at h
  cases h

section shifting
variable {e : Env} {c : Converter} {v : BitVec 24} {k : Nat} (hc : e.conv = some c) (hv : c.phase = .shifting v k)
include hc hv

/-- A data pulse not taken as power-down has the next bit of the result (R264). -/
theorem Env.dataSample_shifting (hk : k + 1 ≤ 24) (h : e.dataHigh.tooLong = false) :
    e.dataSample = v.getLsbD (23 - k) := by
  have hr : c.rise.phase = .shifting v (k + 1) := by rw [Converter.rise_shifting hv]
  rw [Env.dataSample_eq hc (.inl ⟨v, hv⟩), Env.tooLong_at_sample h,
    Converter.level_shifting _ hr hk e.tHiMin_le_gainHigh, show 24 - (k + 1) = 23 - k by omega]

theorem Env.dataPulse_shifting (h : e.dataHigh.tooLong = false) :
    e.dataPulse.conv = some { c with phase := .shifting v (k + 1) } := by
  rw [Env.dataPulse_conv hc (.inl ⟨v, hv⟩), h, ← Converter.rise_shifting hv]
  rfl

theorem Env.gainPulse_shifting (h : e.gainHigh.tooLong = false) :
    e.gainPulse.conv = some { c with phase := .shifting v (k + 1) } := by
  rw [Env.gainPulse_conv hc (.inl ⟨v, hv⟩), h, ← Converter.rise_shifting hv]
  rfl

/-- The samples of a latched result are its bits up to the first interval taken as power-down. -/
theorem Env.dataSamples_cut {n : Nat} (hk : k + n ≤ 24) : ∃ cut, CutAt v k (e.dataSamples n) (e.dataHighs n) cut := by
  induction n generalizing e c k with
  | zero => exact ⟨0, by constructor <;> simp [Env.dataSamples]⟩
  | succ n ih =>
    rw [Env.dataSamples, Env.dataHighs]
    cases h : e.dataHigh.tooLong with
    | true =>
      rw [Env.dataSamples_of_tooLong hc (.inl ⟨v, hv⟩) hk h]
      exact ⟨0, .zero (Env.tPdSafe_lt_of_tooLong h)⟩
    | false =>
      obtain ⟨cut, hcut⟩ := ih (Env.dataPulse_shifting hc hv h) rfl (by omega)
      rw [Env.dataSample_shifting hc hv (by omega) h]
      exact ⟨cut + 1, hcut.cons (Env.le_tPd_of_not_tooLong h)⟩

/-- Data pulses no longer than T_PD_SAFE are counted, and that is all. -/
theorem Env.dataPulses_shifting {n : Nat} (h : ∀ us ∈ e.dataHighs n, us ≤ Config.tPdSafe) :
    (e.dataPulses n).conv = some { c with phase := .shifting v (k + n) } := by
  induction n generalizing e c k with
  | zero => rw [Env.dataPulses, hc, Nat.add_zero, ← hv]
  | succ n ih =>
    rw [Env.dataHighs, List.forall_mem_cons] at h
    rw [Env.dataPulses, ih (Env.dataPulse_shifting hc hv (Env.not_tooLong h.1)) rfl h.2, Nat.add_right_comm, Nat.add_assoc]

theorem Env.gainPulses_shifting {n : Nat} (h : ∀ us ∈ e.gainHighs n, us ≤ Config.tPdSafe) :
    (e.gainPulses n).conv = some { c with phase := .shifting v (k + n) } := by
  induction n generalizing e c k with
  | zero => rw [Env.gainPulses, hc, Nat.add_zero, ← hv]
  | succ n ih =>
    rw [Env.gainHighs, List.forall_mem_cons] at h
    rw [Env.gainPulses, ih (Env.gainPulse_shifting hc hv (Env.not_tooLong h.1)) rfl h.2, Nat.add_right_comm, Nat.add_assoc]

end shifting

/-! ## A check that reads low and its frame -/

/-- The frame starts right after the check that reads low. -/
def Env.frameStart (e : Env) : Env := (e.pass false 0).afterRead.openFrame

def Env.frameSamples (e : Env) : List Bool := e.frameStart.dataSamples 24

/-- The clock-high intervals of a frame. -/
def Env.frameHighs (g : GainCode) (e : Env) : List Nat :=
  e.frameStart.dataHighs 24 ++ (e.frameStart.dataPulses 24).gainHighs g.pulses

/-- The environment after the check and its frame. -/
def Env.frame (g : GainCode) (e : Env) : Env := ((e.frameStart.dataPulses 24).gainPulses g.pulses).closeFrame

theorem Env.frameSamples_length (e : Env) : e.frameSamples.length = 24 := Env.dataSamples_length _ 24

theorem Env.frameHighs_length (g : GainCode) (e : Env) : (e.frameHighs g).length = 24 + g.code.toNat := by
  rw [Env.frameHighs, List.length_append, Env.dataHighs_length, Env.gainHighs_length, GainCode.code_toNat]

theorem Env.frame_highs (g : GainCode) (e : Env) : (e.frame g).highs = e.highs ++ e.frameHighs g := by
  show ((e.frameStart.dataPulses 24).gainPulses g.pulses).highs = _
  rw [Env.gainPulses_highs, Env.dataPulses_highs, Env.frameHighs, List.append_assoc]
  rfl

theorem Env.frameHighs_getElem? (g : GainCode) (e : Env) {i : Nat} (hi : i < 24) :
    (e.frameHighs g)[i]? = (e.frameStart.dataHighs 24)[i]? :=
  List.getElem?_append_left (by rw [Env.dataHighs_length]; exact hi)

/-- The value of a frame's samples. -/
def Env.frameValue (e : Env) : BitVec 24 := BitVec.ofNat 24 (msbValue e.frameSamples)

theorem Env.bits_frameValue (e : Env) : bits e.frameValue = e.frameSamples := bits_msbValue e.frameSamples_length

/-- READ_RAW whose first check reads low (R141 to R149). -/
theorem bigReadRaw_pulsed {s : State} (h : s.sckLevel = .low) (hlow : s.level = false) : ∃ v,
    bigReadRaw 1 s = some v ∧
    s.Pulsed v (readRawEvents s.regs.clockPin s.regs.dataPin 0 s.env.frameSamples s.regs.gainCode)
      (s.env.frame s.regs.gainCode) ∧
    v.regs = s.regs.afterFrame s.env.frameValue := by
  have hstart : s.pinRead.env.openFrame = s.env.frameStart := by
    rw [State.pinRead, State.high, h]; rfl
  obtain ⟨p, hr⟩ := bigFrame_pulsed (s := s.pinRead) h (v := s.env.frameValue) (by rw [hstart, Env.bits_frameValue]; rfl)
  rw [hstart, Env.bits_frameValue] at p
  refine ⟨bigFrame s.pinRead, by rw [bigReadRaw, bigWaitReady, hlow]; rfl, ⟨⟨?_, p.responses, p.cmds, p.busy⟩,
    p.clockLow, p.env⟩, hr⟩
  rw [p.trace, State.pinRead_trace, hlow, List.append_assoc]
  rfl

/-- SET_GAIN's clock-low write and frame, from a line that is not high, where the check reads low (R184 to R186). -/
theorem bigSetGain_pulsed {s : State} (h : s.sckLevel ≠ .high) (gain : Word)
    (hlow : ((s.env.pass false 0).pass false 0).level false = false) : ∃ v, bigSetGain gain 1 s = some v ∧
    s.Called v (.write s.regs.clockPin false :: readRawEvents s.regs.clockPin s.regs.dataPin 0
      (s.env.pass false 0).frameSamples (gainSelect gain s.regs.gainCode)) ∧
    v.sckLevel = .low ∧
    v.env = (s.env.pass false 0).frame (gainSelect gain s.regs.gainCode) ∧
    v.regs = (s.regs.selectGain gain).afterFrame (s.env.pass false 0).frameValue := by
  set l := (s.setRegs (Regs.selectGain gain)).pinWrite false with hl
  have henv : l.env = s.env.pass false 0 := by
    show (s.env.pass (decide (s.sckLevel = .high)) 0).clockLine s.sckLevel false = _
    cases hk : s.sckLevel with
    | high => exact absurd hk h
    | low => rfl
    | undriven => rfl
  obtain ⟨v, hv, p, hr⟩ := bigReadRaw_pulsed (s := l) rfl (by
    show (l.env.pass false 0).level false = false
    rw [henv]; exact hlow)
  rw [henv] at p hr
  refine ⟨v, hv, ⟨?_, p.responses, p.cmds, p.busy⟩, p.clockLow.1, p.env, hr⟩
  rw [p.trace, hl, State.pinWrite_trace, List.append_assoc]
  rfl

/-! ## A frame from a latched result -/

section latched
variable {e : Env} {c : Converter} {v : BitVec 24} (hc : e.conv = some c) (hv : c.phase = .latched v)
include hc hv

theorem Env.pass_latched (high : Bool) (n : Nat) : (e.pass high n).conv = some c := by
  rw [Env.pass, hc, Option.map_some, Converter.wait_of_ne _ (by rw [hv]; simp)]

theorem Env.level_latched (n : Nat) : (e.pass false n).level false = false := by
  rw [Env.level, Env.pass_latched hc hv]
  exact Converter.level_latched _ _ _ hv

theorem Env.frameStart_latched : e.frameStart.conv = some { c with phase := .shifting v 0 } := by
  rw [Env.frameStart, Env.openFrame, Env.afterRead_conv, Env.pass_latched hc hv, Option.map_some,
    Converter.openFrame_latched hv]

/-- The frame's samples are the bits of the result, up to the first interval taken as power-down. -/
theorem Env.frameSamples_cut : ∃ cut, CutAt v 0 e.frameSamples (e.frameStart.dataHighs 24) cut :=
  Env.dataSamples_cut (Env.frameStart_latched hc hv) rfl (Nat.le_refl 24)

/-- An uninterrupted frame has the result's bits and commits its selection (R264 to R266, R293). -/
theorem Env.frame_uninterrupted {g : GainCode} (h : ∀ us ∈ e.frameHighs g, us ≤ Config.tPdSafe) :
    e.frameSamples = bits v ∧ (e.frame g).conv = some { c with phase := .converting, selection := some g } := by
  rw [Env.frameHighs, List.forall_mem_append] at h
  obtain ⟨hdata, hgain⟩ := h
  have hconv := Env.frameStart_latched hc hv
  constructor
  · obtain ⟨cut, hcut⟩ := Env.frameSamples_cut hc hv
    refine List.ext_getElem? fun j => ?_
    by_cases hj : j < 24
    · rw [hcut.before j (hcut.lt_cut (by rw [Env.frameSamples_length, Env.dataHighs_length])
        (by rw [Env.frameSamples_length]; exact hj) fun i _ us hus => hdata us (List.mem_of_getElem? hus)), Nat.zero_add]
      simp [bits, hj]
    · rw [List.getElem?_eq_none (by rw [Env.frameSamples_length]; omega),
        List.getElem?_eq_none (by rw [bits_length]; omega)]
  · have hend := Env.gainPulses_shifting (Env.dataPulses_shifting hconv rfl hdata) rfl hgain
    rw [Env.frame, Env.closeFrame, hend, Option.map_some, Nat.zero_add, Converter.closeFrame_shifting g rfl]

end latched

/-! ## The statements -/

/-- The intervals of an operation that makes one frame. -/
theorem Env.newHighs_eq {e e' : Env} {hs : List Nat} (h : e'.highs = e.highs ++ hs) : e.newHighs e' = hs := by
  rw [Env.newHighs, h, List.drop_left]

/-- READ_RAW from a check that reads low, whatever is on the lines. -/
theorem readRaw_completes {s : State} (hs : s.standsReady) (hk : s.sckLevel = .low) (hlow : s.level = false) :
    ∃ v a t, Completes .readRaw s v (.int s.env.frameValue.toInt)
      (readRawEvents s.regs.clockPin s.regs.dataPin 0 s.env.frameSamples s.regs.gainCode) a t ∧
    run (1 + 5 * 24 + 4 * s.regs.gainCode.code.toNat) a = .next t ∧ t.env = s.env.frame s.regs.gainCode := by
  obtain ⟨v, hv, p, hr⟩ := bigReadRaw_pulsed (s := s.latched s.portA s.portB) hk hlow
  have hp := readRaw_performedAs (fuel := 1) hs (by rw [bigStep, bigConfigured_of_configured hs.2, hv]; rfl)
  have hp : PerformedAs .readRaw s (v.answer (.int s.env.frameValue.toInt)) := by
    have hresp : resultResponse v.regs = .int s.env.frameValue.toInt := by rw [resultResponse, hr, afterFrame_result]; rfl
    exact hresp ▸ hp
  obtain ⟨a, t, h⟩ := hp.completes (s := s) p.trace p.responses p.cmds (p.busy.trans hs.1)
  have hrun := h.runs
  rw [readRawEvents_length _ _ _ (Env.frameSamples_length _)] at hrun
  exact ⟨v, a, t, h, hrun, h.env.trans p.env⟩

/-- Settles O57: after a stretched interval every sample is 1; before the first power-down those of a latched result are its bits. -/
theorem attachedConverterFrame : Obligations.AttachedConverterFrame := by
  intro s conv hs hk hconv
  have hhigh : s.high = false := by rw [State.high, hk]; rfl
  refine ⟨fun v hv => ?_, fun hlow => ?_⟩
  · rw [State.level, hhigh]
    exact Env.level_latched hconv hv 0
  obtain ⟨v, a, t, h, hrun, henv⟩ := readRaw_completes hs hk hlow
  refine ⟨a, t, s.env.frameSamples, s.env.frameHighs s.regs.gainCode, h.accepted, hrun, s.env.frameSamples_length,
    h.ends, by rw [henv, Env.frame_highs], Env.frameHighs_length _ _, fun i j hij hj hlong => ?_, fun v hv => ?_⟩
  · have hstart : s.env.frameStart.conv = some (conv.wait (s.env.duration 0)).openFrame := by
      rw [Env.frameStart, Env.openFrame, Env.afterRead_conv, Env.pass, hconv]; rfl
    rw [Env.frameHighs_getElem? _ _ (by omega)] at hlong
    exact Env.dataSamples_after_stretch hstart (Converter.openFrame_inFrame _) (Nat.le_refl 24) hij hj hlong
  · obtain ⟨cut, hcut⟩ := Env.frameSamples_cut hconv hv
    have hlen := s.env.frameSamples_length
    have hhighs := Env.dataHighs_length s.env.frameStart 24
    have hle : cut ≤ 24 := hlen ▸ hcut.le
    have hat {i : Nat} (hi : i < 24) := Env.frameHighs_getElem? s.regs.gainCode s.env hi
    refine ⟨fun j hj hsafe => ?_, cut, hle, fun j hj => ?_, fun j hj hj24 => hcut.after j hj (hlen ▸ hj24),
      fun i hi => ?_, fun hc24 => ?_⟩
    · have hjc := hcut.lt_cut (by omega) (by omega) fun i hi us hus => hsafe i hi us ((hat (by omega)).trans hus)
      rw [hcut.before j hjc, Nat.zero_add]
    · rw [hcut.before j hj, Nat.zero_add]
    · rw [hat (by omega)]
      exact hcut.short i hi
    · rw [hat hc24]
      exact hcut.long (by omega)

/-- Settles O58: no interval of the frame is taken as power-down. -/
theorem uninterruptedFrameReturnsTheConversion : Obligations.UninterruptedFrameReturnsTheConversion := by
  intro s conv v hs hk hconv hv
  have hhigh : s.high = false := by rw [State.high, hk]; rfl
  obtain ⟨_, a, t, h, hrun, henv⟩ := readRaw_completes hs hk (by rw [State.level, hhigh]; exact Env.level_latched hconv hv 0)
  refine ⟨a, t, h.accepted, hrun, fun hun => ?_⟩
  rw [Env.uninterrupted, Env.newHighs_eq (by rw [henv, Env.frame_highs])] at hun
  obtain ⟨hsamples, hcommit⟩ := Env.frame_uninterrupted hconv hv hun
  have hends := h.ends
  have hvalue : s.env.frameValue = v := bits_injective (by rw [Env.bits_frameValue, hsamples])
  rw [hsamples, hvalue] at hends
  exact ⟨hends, henv ▸ hcommit⟩

/-- SET_GAIN's frame, and BEGIN's through it, from a latched result. -/
theorem bigSetGain_latched {s : State} {conv : Converter} {v : BitVec 24} (h : s.sckLevel ≠ .high) (gain : Word)
    (hconv : s.env.conv = some conv) (hv : conv.phase = .latched v) : ∃ (t : State) (samples : List Bool),
    samples.length = 24 ∧ bigSetGain gain 1 s = some t ∧
    s.Called t (.write s.regs.clockPin false ::
      readRawEvents s.regs.clockPin s.regs.dataPin 0 samples (gainSelect gain s.regs.gainCode)) ∧
    t.sckLevel = .low ∧
    t.regs.lifecycle = s.regs.lifecycle ∧ t.regs.gainCode = gainSelect gain s.regs.gainCode ∧
    t.env.highs.length = s.env.highs.length + (24 + (gainSelect gain s.regs.gainCode).code.toNat) ∧
    (s.env.uninterrupted t.env → t.regs.result.toInt = v.toInt ∧ t.env.conv = some { conv with
      phase := .converting, selection := some (gainSelect gain s.regs.gainCode) }) := by
  have hconv' := Env.pass_latched hconv hv false 0
  obtain ⟨t, ht, hcall, hlow, henv, hregs⟩ :=
    bigSetGain_pulsed h gain (Env.level_latched hconv' hv 0)
  have hhighs := congrArg Env.highs henv
  rw [Env.frame_highs, show (s.env.pass false 0).highs = s.env.highs from rfl] at hhighs
  refine ⟨t, _, Env.frameSamples_length _, ht, hcall, hlow, by rw [hregs]; rfl, by rw [hregs]; rfl,
    by rw [hhighs, List.length_append, Env.frameHighs_length], fun hun => ?_⟩
  rw [Env.uninterrupted, Env.newHighs_eq hhighs] at hun
  obtain ⟨hsamples, hcommit⟩ := Env.frame_uninterrupted hconv' hv hun
  have hvalue : (s.env.pass false 0).frameValue = v := bits_injective (by rw [Env.bits_frameValue, hsamples])
  exact ⟨by rw [hregs, hvalue, afterFrame_result], henv ▸ hcommit⟩

/-- Settles O59: the pins bound, then SET_GAIN(128), whose frame commits channel A at 128. -/
theorem beginCommitsTheDefaultSelection : Obligations.BeginCommitsTheDefaultSelection := by
  intro s c d conv v hb hk hconv hv
  obtain ⟨u, samples, hlen, hu, hcall, hlow, hlife, hgain, hhighs, hcommit⟩ :=
    bigSetGain_latched (s := (s.latched c d).setRegs (Regs.bind c d)) hk 128 hconv hv
  have hp := begin_performedAs (s := s) (fuel := 1) (c := c) (d := d) hb (by rw [bigStep, hu]; rfl)
  obtain ⟨a, t, h⟩ := hp.completes hcall.trace hcall.responses hcall.cmds (hcall.busy.trans hb)
  refine ⟨a, t, h.accepted, ?_, h.ends.phase, h.ends.responses, h.regs ▸ hlife, h.regs ▸ hgain, h.sckLevel.trans hlow,
    h.env ▸ hhighs, fun hun => ⟨_, h.env ▸ (hcommit (h.env ▸ hun)).2, rfl⟩⟩
  have hrun := h.runs
  rw [List.length_cons, readRawEvents_length _ _ _ hlen] at hrun
  exact hrun

/-- Settles O60: the result shifted out is the old selection's, and the conversion that begins is the new one's. -/
theorem setGainCommitsTheNewSelection : Obligations.SetGainCommitsTheNewSelection := by
  intro s gain conv v code hs hk hconv hv hunder hcode
  obtain rfl : code = gainSelect gain s.regs.gainCode := hcode
  obtain ⟨u, samples, hlen, hu, hcall, hlow, -, hgain, -, hcommit⟩ :=
    bigSetGain_latched (s := s.latched gain s.portB) (by show s.sckLevel ≠ _; rw [hk]; simp) gain hconv hv
  have hp := setGain_performedAs (fuel := 1) hs (by rw [bigStep, bigConfigured_of_configured hs.2, hu]; rfl)
  obtain ⟨a, t, h⟩ := hp.completes hcall.trace hcall.responses hcall.cmds (hcall.busy.trans hs.1)
  have hrun := h.runs
  rw [List.length_cons, readRawEvents_length _ _ _ hlen, Nat.add_comm] at hrun
  refine ⟨a, t, h.accepted, hrun, h.ends.phase, h.regs ▸ hgain, fun hun => ?_⟩
  obtain ⟨hresult, hconv'⟩ := hcommit (h.env ▸ hun)
  refine ⟨h.regs ▸ hresult, _, (congrArg Env.conv h.env).trans hconv', rfl, hunder, fun us w more hup => ?_⟩
  rw [Converter.wait_converting rfl hup (Nat.le_refl us)]
  exact ⟨rfl, rfl⟩

end Sys2Proof.Machine
end
